-- ==== Sys2Proof/Word.lean ====
section
/-!
DEFINITION. The word, byte and register-id types.

`XLEN` = 32 bits for a general register, an address, the program counter, an ALU operand and an instruction
(00_scope.md R5, 10_state.md R20, 30_encoding.md R100); memory is addressed by the 8-bit byte (20_memory.md R50).
-/
namespace Sys2Proof

/-- A 32-bit register value, address or instruction word (00_scope.md R5: `XLEN` = `ILEN` = 32). -/
abbrev Word := BitVec 32

/-- The addressable unit, an 8-bit byte (20_memory.md R50). -/
abbrev Byte := BitVec 8

/-- A 5-bit register id, 0 to 31 (10_state.md R20). -/
abbrev Reg := Fin 32

end Sys2Proof
end

