-- ==== Sys2Proof/Config.lean ====
section
/-!
DEFINITION. The implementation parameters of 00_scope.md R5 as configuration values, the constraints of R6 on
them, and the fixed sizes of the cache geometry.

A machine carries its `Config` in `State.cfg` and never changes it (log entry 2). The spec leaves no result to
chance (93_implementation_defined.md), so there is no free value here.
-/
namespace Sys2Proof

/-- The `parameter` rows of the table of 00_scope.md R5. -/
structure Config where
  /-- `MEM_SIZE`: size of the backing memory in bytes. -/
  memSize  : Nat
  /-- `MMIO_BASE`: first byte address of the memory-mapped output region. -/
  mmioBase : Nat
  /-- `MMIO_SIZE`: size of the output region in bytes; 0 means there is none. -/
  mmioSize : Nat
  /-- `PROG_BASE`: byte address where the loader places the first program word. -/
  progBase : Nat
  /-- `ENTRY`: value of the program counters after reset. -/
  entry    : Word
  /-- `L1_LAT`: access latency of L1 in cycles. -/
  l1Lat    : Nat
  /-- `L2_LAT`: additional latency of L2. -/
  l2Lat    : Nat
  /-- `MEM_LAT`: additional latency of backing memory. -/
  memLat   : Nat
deriving DecidableEq, Repr

/-- The default values of 00_scope.md R5. -/
def Config.default : Config where
  memSize := 0x10000
  mmioBase := 0xF000
  mmioSize := 0x1000
  progBase := 0
  entry := 0
  l1Lat := 1
  l2Lat := 4
  memLat := 10

/-- `BLOCK` = 16 bytes, the block size of both cache levels (00_scope.md R5, fixed). -/
abbrev blockBytes : Nat := 16

/-- `L1_LINES` = 16 (00_scope.md R5, fixed). -/
abbrev l1Lines : Nat := 16

/-- `L2_SETS` = 32 (00_scope.md R5, fixed). -/
abbrev l2Sets : Nat := 32

/-- `L2_WAYS` = 2 (00_scope.md R5, fixed). -/
abbrev l2Ways : Nat := 2

end Sys2Proof
end

