-- ==== Sys2Proof/Syntax.lean ====
section
/-!
DEFINITION. The 47 instructions of spec/opcode_table.json, one constructor per row, and the fifteen branch
conditions of 30_encoding.md R112.

Register operands are 5-bit ids. Immediates are the signed integers the fields stand for (30_encoding.md R103 to
R105): `imm` and `off` of classes A and M are byte-sized integers in -16384 .. 16383, `off` of a branch counts
instructions and lies in -2097152 .. 2097151. The ranges are checked in WellFormed.lean (log entry 9).
-/
namespace Sys2Proof

/-- The condition of a `B<cond>` word (30_encoding.md R112); `al` is the unconditional `B`. -/
inductive Cond where
  | al | eq | ne | lt | ge | gt | le | lo | hs | hi | ls | mi | pl | vs | vc
deriving DecidableEq, Repr

/-- A decoded instruction: one constructor per row of spec/opcode_table.json. -/
inductive Instr where
  -- class A, arithmetic and compare (40_arithmetic_compare.md R135 to R146)
  | add  (rd rs1 rs2 : Reg)
  | addi (rd rs1 : Reg) (imm : Int)
  | sub  (rd rs1 rs2 : Reg)
  | subi (rd rs1 : Reg) (imm : Int)
  | mul  (rd rs1 rs2 : Reg)
  | muli (rd rs1 : Reg) (imm : Int)
  | div  (rd rs1 rs2 : Reg)
  | divi (rd rs1 : Reg) (imm : Int)
  | mod  (rd rs1 rs2 : Reg)
  | modi (rd rs1 : Reg) (imm : Int)
  -- class A, logic and shift (41_logic_shift.md R161 to R173)
  | and  (rd rs1 rs2 : Reg)
  | andi (rd rs1 : Reg) (imm : Int)
  | or   (rd rs1 rs2 : Reg)
  | ori  (rd rs1 : Reg) (imm : Int)
  | xor  (rd rs1 rs2 : Reg)
  | xori (rd rs1 : Reg) (imm : Int)
  | shl  (rd rs1 rs2 : Reg)
  | shli (rd rs1 : Reg) (imm : Int)
  | shr  (rd rs1 rs2 : Reg)
  | shri (rd rs1 : Reg) (imm : Int)
  | sar  (rd rs1 rs2 : Reg)
  | sari (rd rs1 : Reg) (imm : Int)
  -- class A, compare
  | cmp  (rs1 rs2 : Reg)
  | cmpi (rs1 : Reg) (imm : Int)
  -- class M (42_load_store.md R181 to R184)
  | ldr  (rt rb : Reg) (off : Int)
  | str  (rt rb : Reg) (off : Int)
  | ldrb (rt rb : Reg) (off : Int)
  | strb (rt rb : Reg) (off : Int)
  -- class C (43_control_flow.md R192 to R210)
  | b    (off : Int)
  | beq  (off : Int)
  | bne  (off : Int)
  | blt  (off : Int)
  | bge  (off : Int)
  | bgt  (off : Int)
  | ble  (off : Int)
  | blo  (off : Int)
  | bhs  (off : Int)
  | bhi  (off : Int)
  | bls  (off : Int)
  | bmi  (off : Int)
  | bpl  (off : Int)
  | bvs  (off : Int)
  | bvc  (off : Int)
  | bl   (off : Int)
  | jr   (rs : Reg)
  | nop
  | halt
deriving DecidableEq, Repr

/-- The two-bit class of an instruction (30_encoding.md R101): `a` arithmetic and logic, `m` memory access,
`c` control flow. -/
inductive InstrClass where
  | a | m | c
deriving DecidableEq, Repr

end Sys2Proof
end

