-- ==== Sys2Proof/WellFormed.lean ====
section
/-!
DEFINITION. The checks on an instruction's immediates (the ranges of 30_encoding.md R103 to R105) and on the
parameters (the constraints of 00_scope.md R6).
-/
namespace Sys2Proof

/-- `imm15` and `off15` are 15-bit two's-complement numbers: -16384 .. 16383 (30_encoding.md R103, R104). -/
def imm15Ok (i : Int) : Bool := decide (-16384 ≤ i) && decide (i ≤ 16383)

/-- `off22` is a 22-bit two's-complement number: -2097152 .. 2097151 (30_encoding.md R105). -/
def off22Ok (i : Int) : Bool := decide (-2097152 ≤ i) && decide (i ≤ 2097151)

/-- The instruction can be encoded: its immediate, if it has one, fits its field. -/
def Instr.wf : Instr → Bool
  | .add _ _ _ => true
  | .addi _ _ imm => imm15Ok imm
  | .sub _ _ _ => true
  | .subi _ _ imm => imm15Ok imm
  | .mul _ _ _ => true
  | .muli _ _ imm => imm15Ok imm
  | .div _ _ _ => true
  | .divi _ _ imm => imm15Ok imm
  | .mod _ _ _ => true
  | .modi _ _ imm => imm15Ok imm
  | .and _ _ _ => true
  | .andi _ _ imm => imm15Ok imm
  | .or _ _ _ => true
  | .ori _ _ imm => imm15Ok imm
  | .xor _ _ _ => true
  | .xori _ _ imm => imm15Ok imm
  | .shl _ _ _ => true
  | .shli _ _ imm => imm15Ok imm
  | .shr _ _ _ => true
  | .shri _ _ imm => imm15Ok imm
  | .sar _ _ _ => true
  | .sari _ _ imm => imm15Ok imm
  | .cmp _ _ => true
  | .cmpi _ imm => imm15Ok imm
  | .ldr _ _ off => imm15Ok off
  | .str _ _ off => imm15Ok off
  | .ldrb _ _ off => imm15Ok off
  | .strb _ _ off => imm15Ok off
  | .b off => off22Ok off
  | .beq off => off22Ok off
  | .bne off => off22Ok off
  | .blt off => off22Ok off
  | .bge off => off22Ok off
  | .bgt off => off22Ok off
  | .ble off => off22Ok off
  | .blo off => off22Ok off
  | .bhs off => off22Ok off
  | .bhi off => off22Ok off
  | .bls off => off22Ok off
  | .bmi off => off22Ok off
  | .bpl off => off22Ok off
  | .bvs off => off22Ok off
  | .bvc off => off22Ok off
  | .bl off => off22Ok off
  | .jr _ => true
  | .nop => true
  | .halt => true

/-- The constraints of 00_scope.md R6 on the parameters, which a model may take as premises. -/
def Config.wf (c : Config) : Bool :=
  decide (c.memSize % blockBytes = 0) && decide (blockBytes ≤ c.memSize) && decide (c.memSize ≤ 2 ^ 32)
  && decide (c.mmioBase % blockBytes = 0) && decide (c.mmioSize % blockBytes = 0)
  && decide (c.mmioBase + c.mmioSize ≤ c.memSize)
  && decide (c.progBase % 4 = 0) && decide (c.entry.toNat % 4 = 0)
  && decide (1 ≤ c.l1Lat) && decide (1 ≤ c.l2Lat) && decide (1 ≤ c.memLat)

end Sys2Proof
end

