-- ==== Sys2Proof/Decode.lean ====
section
/-!
DEFINITION. The decoder and, after it, the encoder, both written from the formats and operation numbers of
30_encoding.md R100 to R113; the decoder's descriptor and register-use table (R113, R118); the rows of
spec/opcode_table.json; and the decoder on stored bytes and on table words.
-/
namespace Sys2Proof

/-! ## Bit fields -/

/-- `u(w[hi:lo])`, the slice of bits `hi` down to `lo` as a number (00_scope.md R8). -/
def bits (w : Word) (hi lo : Nat) : Nat := w.toNat / 2 ^ lo % 2 ^ (hi + 1 - lo)

/-- The register id in bits `lo+4 .. lo` (30_encoding.md section 2: ids sit at 24:20, 19:15, 14:10). -/
def regField (w : Word) (lo : Nat) : Reg := Fin.ofNat 32 (w.toNat / 2 ^ lo)

/-- The low `n` bits of `w` read as a two's-complement number, `s(w[n-1:0])` (00_scope.md R8). -/
def signedField (w : Word) (n : Nat) : Int :=
  if w.toNat % 2 ^ n < 2 ^ (n - 1) then (w.toNat % 2 ^ n : Nat) else (w.toNat % 2 ^ n : Nat) - (2 ^ n : Nat)

/-- The `n`-bit two's-complement field that holds the integer `i`. -/
def unsignedField (n : Nat) (i : Int) : Nat := (i % (2 ^ n : Nat)).toNat

/-! ## Decoding (R113, R114)

`none` is `InvalidOpcode`: every word that is not a legal encoding. -/

/-- Class A, register form (R102, R109): bits 9:0 must be zero, and `CMP` has `rd` = 0. -/
def decodeR (w : Word) : Option Instr :=
  if bits w 9 0 = 0 then
    match bits w 29 26 with
    | 1 => some (.add (regField w 20) (regField w 15) (regField w 10))
    | 2 => some (.sub (regField w 20) (regField w 15) (regField w 10))
    | 3 => some (.mul (regField w 20) (regField w 15) (regField w 10))
    | 4 => some (.div (regField w 20) (regField w 15) (regField w 10))
    | 5 => some (.mod (regField w 20) (regField w 15) (regField w 10))
    | 6 => some (.and (regField w 20) (regField w 15) (regField w 10))
    | 7 => some (.or (regField w 20) (regField w 15) (regField w 10))
    | 8 => some (.xor (regField w 20) (regField w 15) (regField w 10))
    | 9 => some (.shl (regField w 20) (regField w 15) (regField w 10))
    | 10 => some (.shr (regField w 20) (regField w 15) (regField w 10))
    | 11 => some (.sar (regField w 20) (regField w 15) (regField w 10))
    | 12 => if bits w 24 20 = 0 then some (.cmp (regField w 15) (regField w 10)) else none
    | _ => none
  else none

/-- Class A, immediate form (R103, R109): `CMPI` has `rd` = 0. -/
def decodeI (w : Word) : Option Instr :=
  match bits w 29 26 with
  | 1 => some (.addi (regField w 20) (regField w 15) (signedField w 15))
  | 2 => some (.subi (regField w 20) (regField w 15) (signedField w 15))
  | 3 => some (.muli (regField w 20) (regField w 15) (signedField w 15))
  | 4 => some (.divi (regField w 20) (regField w 15) (signedField w 15))
  | 5 => some (.modi (regField w 20) (regField w 15) (signedField w 15))
  | 6 => some (.andi (regField w 20) (regField w 15) (signedField w 15))
  | 7 => some (.ori (regField w 20) (regField w 15) (signedField w 15))
  | 8 => some (.xori (regField w 20) (regField w 15) (signedField w 15))
  | 9 => some (.shli (regField w 20) (regField w 15) (signedField w 15))
  | 10 => some (.shri (regField w 20) (regField w 15) (signedField w 15))
  | 11 => some (.sari (regField w 20) (regField w 15) (signedField w 15))
  | 12 => if bits w 24 20 = 0 then some (.cmpi (regField w 15) (signedField w 15)) else none
  | _ => none

/-- Class M (R104, R110): bit 25 must be zero. -/
def decodeM (w : Word) : Option Instr :=
  if bits w 25 25 = 0 then
    match bits w 29 26 with
    | 0 => some (.ldr (regField w 20) (regField w 15) (signedField w 15))
    | 1 => some (.str (regField w 20) (regField w 15) (signedField w 15))
    | 2 => some (.ldrb (regField w 20) (regField w 15) (signedField w 15))
    | 3 => some (.strb (regField w 20) (regField w 15) (signedField w 15))
    | _ => none
  else none

/-- `B<cond>` (R105, R112): `cond` = 1111 is unassigned. -/
def decodeBranch (w : Word) : Option Instr :=
  match bits w 25 22 with
  | 0 => some (.b (signedField w 22))
  | 1 => some (.beq (signedField w 22))
  | 2 => some (.bne (signedField w 22))
  | 3 => some (.blt (signedField w 22))
  | 4 => some (.bge (signedField w 22))
  | 5 => some (.bgt (signedField w 22))
  | 6 => some (.ble (signedField w 22))
  | 7 => some (.blo (signedField w 22))
  | 8 => some (.bhs (signedField w 22))
  | 9 => some (.bhi (signedField w 22))
  | 10 => some (.bls (signedField w 22))
  | 11 => some (.bmi (signedField w 22))
  | 12 => some (.bpl (signedField w 22))
  | 13 => some (.bvs (signedField w 22))
  | 14 => some (.bvc (signedField w 22))
  | _ => none

/-- Class C (R105 to R107, R111). -/
def decodeC (w : Word) : Option Instr :=
  match bits w 29 26 with
  | 0 => decodeBranch w
  | 1 => if bits w 25 22 = 0 then some (.bl (signedField w 22)) else none
  | 2 => if bits w 25 20 = 0 ∧ bits w 14 0 = 0 then some (.jr (regField w 15)) else none
  | 3 => if bits w 25 0 = 0 then some .nop else none
  | 15 => if bits w 25 0 = 0 then some .halt else none
  | _ => none

/-- `decode(word)` of R113: a pure, total function of the 32-bit word. -/
def decode (w : Word) : Option Instr :=
  match bits w 31 30 with
  | 0 => if bits w 25 25 = 0 then decodeR w else decodeI w
  | 1 => decodeM w
  | 2 => decodeC w
  | _ => none

/-! ## Encoding -/

/-- The R-form word (R102). -/
def encodeR (op4 : Nat) (rd rs1 rs2 : Reg) : Word :=
  BitVec.ofNat 32 (op4 * 2 ^ 26 + rd.val * 2 ^ 20 + rs1.val * 2 ^ 15 + rs2.val * 2 ^ 10)

/-- The I-form word (R103). -/
def encodeI (op4 : Nat) (rd rs1 : Reg) (imm : Int) : Word :=
  BitVec.ofNat 32 (op4 * 2 ^ 26 + 2 ^ 25 + rd.val * 2 ^ 20 + rs1.val * 2 ^ 15 + unsignedField 15 imm)

/-- The M-form word (R104). -/
def encodeM (op4 : Nat) (rt rb : Reg) (off : Int) : Word :=
  BitVec.ofNat 32 (2 ^ 30 + op4 * 2 ^ 26 + rt.val * 2 ^ 20 + rb.val * 2 ^ 15 + unsignedField 15 off)

/-- The B-form word (R105). -/
def encodeB (op4 cond : Nat) (off : Int) : Word :=
  BitVec.ofNat 32 (2 ^ 31 + op4 * 2 ^ 26 + cond * 2 ^ 22 + unsignedField 22 off)

/-- The J-form word (R106). -/
def encodeJ (rs : Reg) : Word := BitVec.ofNat 32 (2 ^ 31 + 2 * 2 ^ 26 + rs.val * 2 ^ 15)

/-- The Z-form word (R107). -/
def encodeZ (op4 : Nat) : Word := BitVec.ofNat 32 (2 ^ 31 + op4 * 2 ^ 26)

/-- The word of an instruction, from the formats R102 to R107 and the numbers of R109 to R112. -/
def encode : Instr → Word
  | .add rd rs1 rs2 => encodeR 1 rd rs1 rs2
  | .addi rd rs1 imm => encodeI 1 rd rs1 imm
  | .sub rd rs1 rs2 => encodeR 2 rd rs1 rs2
  | .subi rd rs1 imm => encodeI 2 rd rs1 imm
  | .mul rd rs1 rs2 => encodeR 3 rd rs1 rs2
  | .muli rd rs1 imm => encodeI 3 rd rs1 imm
  | .div rd rs1 rs2 => encodeR 4 rd rs1 rs2
  | .divi rd rs1 imm => encodeI 4 rd rs1 imm
  | .mod rd rs1 rs2 => encodeR 5 rd rs1 rs2
  | .modi rd rs1 imm => encodeI 5 rd rs1 imm
  | .and rd rs1 rs2 => encodeR 6 rd rs1 rs2
  | .andi rd rs1 imm => encodeI 6 rd rs1 imm
  | .or rd rs1 rs2 => encodeR 7 rd rs1 rs2
  | .ori rd rs1 imm => encodeI 7 rd rs1 imm
  | .xor rd rs1 rs2 => encodeR 8 rd rs1 rs2
  | .xori rd rs1 imm => encodeI 8 rd rs1 imm
  | .shl rd rs1 rs2 => encodeR 9 rd rs1 rs2
  | .shli rd rs1 imm => encodeI 9 rd rs1 imm
  | .shr rd rs1 rs2 => encodeR 10 rd rs1 rs2
  | .shri rd rs1 imm => encodeI 10 rd rs1 imm
  | .sar rd rs1 rs2 => encodeR 11 rd rs1 rs2
  | .sari rd rs1 imm => encodeI 11 rd rs1 imm
  | .cmp rs1 rs2 => encodeR 12 0 rs1 rs2
  | .cmpi rs1 imm => encodeI 12 0 rs1 imm
  | .ldr rt rb off => encodeM 0 rt rb off
  | .str rt rb off => encodeM 1 rt rb off
  | .ldrb rt rb off => encodeM 2 rt rb off
  | .strb rt rb off => encodeM 3 rt rb off
  | .b off => encodeB 0 0 off
  | .beq off => encodeB 0 1 off
  | .bne off => encodeB 0 2 off
  | .blt off => encodeB 0 3 off
  | .bge off => encodeB 0 4 off
  | .bgt off => encodeB 0 5 off
  | .ble off => encodeB 0 6 off
  | .blo off => encodeB 0 7 off
  | .bhs off => encodeB 0 8 off
  | .bhi off => encodeB 0 9 off
  | .bls off => encodeB 0 10 off
  | .bmi off => encodeB 0 11 off
  | .bpl off => encodeB 0 12 off
  | .bvs off => encodeB 0 13 off
  | .bvc off => encodeB 0 14 off
  | .bl off => encodeB 1 0 off
  | .jr rs => encodeJ rs
  | .nop => encodeZ 3
  | .halt => encodeZ 15

/-! ## Stored bytes and table words -/

/-- The word held by four consecutive bytes, lowest address first: little-endian (R100, 20_memory.md R52). -/
def wordOfBytes (b0 b1 b2 b3 : Byte) : Word := b3 ++ b2 ++ b1 ++ b0

/-- Byte `k` of a word, `v[8k+7:8k]`, for `k` = 0 .. 3 (20_memory.md R52). -/
def byteOfWord (v : Word) (k : Nat) : Byte := (v >>> (8 * k)).setWidth 8

/-- The four bytes of a word, lowest address first. -/
def bytesOfWord (v : Word) : List Byte := [byteOfWord v 0, byteOfWord v 1, byteOfWord v 2, byteOfWord v 3]

/-- Decode the instruction at the head of a byte stream and give the rest: one length, four bytes (R100). -/
def decodeBytes : List Byte → Option (Instr × List Byte)
  | b0 :: b1 :: b2 :: b3 :: rest => (decode (wordOfBytes b0 b1 b2 b3)).map (·, rest)
  | _ => none

/-- The instruction the decoder reads from an opcode-table word: its `nbits` bits are laid out as the hardware
stores them (little-endian, bits above `nbits` zero) and given to the decoder. -/
def decodeTableWord (nbits w : Nat) : Option Instr :=
  (decodeBytes (bytesOfWord (BitVec.ofNat 32 (w % 2 ^ nbits)))).map Prod.fst

/-! ## The descriptor (R113) and register use (R118) -/

/-- The class of an instruction (R101). -/
def Instr.cls : Instr → InstrClass
  | .add _ _ _ => .a
  | .addi _ _ _ => .a
  | .sub _ _ _ => .a
  | .subi _ _ _ => .a
  | .mul _ _ _ => .a
  | .muli _ _ _ => .a
  | .div _ _ _ => .a
  | .divi _ _ _ => .a
  | .mod _ _ _ => .a
  | .modi _ _ _ => .a
  | .and _ _ _ => .a
  | .andi _ _ _ => .a
  | .or _ _ _ => .a
  | .ori _ _ _ => .a
  | .xor _ _ _ => .a
  | .xori _ _ _ => .a
  | .shl _ _ _ => .a
  | .shli _ _ _ => .a
  | .shr _ _ _ => .a
  | .shri _ _ _ => .a
  | .sar _ _ _ => .a
  | .sari _ _ _ => .a
  | .cmp _ _ => .a
  | .cmpi _ _ => .a
  | .ldr _ _ _ => .m
  | .str _ _ _ => .m
  | .ldrb _ _ _ => .m
  | .strb _ _ _ => .m
  | .b _ => .c
  | .beq _ => .c
  | .bne _ => .c
  | .blt _ => .c
  | .bge _ => .c
  | .bgt _ => .c
  | .ble _ => .c
  | .blo _ => .c
  | .bhs _ => .c
  | .bhi _ => .c
  | .bls _ => .c
  | .bmi _ => .c
  | .bpl _ => .c
  | .bvs _ => .c
  | .bvc _ => .c
  | .bl _ => .c
  | .jr _ => .c
  | .nop => .c
  | .halt => .c

/-- The mnemonic of an instruction, as spec/opcode_table.json spells it (the descriptor's `op`, R113). -/
def Instr.mnemonic : Instr → String
  | .add _ _ _ => "ADD"
  | .addi _ _ _ => "ADDI"
  | .sub _ _ _ => "SUB"
  | .subi _ _ _ => "SUBI"
  | .mul _ _ _ => "MUL"
  | .muli _ _ _ => "MULI"
  | .div _ _ _ => "DIV"
  | .divi _ _ _ => "DIVI"
  | .mod _ _ _ => "MOD"
  | .modi _ _ _ => "MODI"
  | .and _ _ _ => "AND"
  | .andi _ _ _ => "ANDI"
  | .or _ _ _ => "OR"
  | .ori _ _ _ => "ORI"
  | .xor _ _ _ => "XOR"
  | .xori _ _ _ => "XORI"
  | .shl _ _ _ => "SHL"
  | .shli _ _ _ => "SHLI"
  | .shr _ _ _ => "SHR"
  | .shri _ _ _ => "SHRI"
  | .sar _ _ _ => "SAR"
  | .sari _ _ _ => "SARI"
  | .cmp _ _ => "CMP"
  | .cmpi _ _ => "CMPI"
  | .ldr _ _ _ => "LDR"
  | .str _ _ _ => "STR"
  | .ldrb _ _ _ => "LDRB"
  | .strb _ _ _ => "STRB"
  | .b _ => "B"
  | .beq _ => "BEQ"
  | .bne _ => "BNE"
  | .blt _ => "BLT"
  | .bge _ => "BGE"
  | .bgt _ => "BGT"
  | .ble _ => "BLE"
  | .blo _ => "BLO"
  | .bhs _ => "BHS"
  | .bhi _ => "BHI"
  | .bls _ => "BLS"
  | .bmi _ => "BMI"
  | .bpl _ => "BPL"
  | .bvs _ => "BVS"
  | .bvc _ => "BVC"
  | .bl _ => "BL"
  | .jr _ => "JR"
  | .nop => "NOP"
  | .halt => "HALT"

/-- The descriptor's destination id `rd` (R113): `rt` for a load, 31 for `BL`, none for stores, compares and the
rest of class C. It may be 0. -/
def Instr.rd : Instr → Option Reg
  | .add d _ _ => some d
  | .addi d _ _ => some d
  | .sub d _ _ => some d
  | .subi d _ _ => some d
  | .mul d _ _ => some d
  | .muli d _ _ => some d
  | .div d _ _ => some d
  | .divi d _ _ => some d
  | .mod d _ _ => some d
  | .modi d _ _ => some d
  | .and d _ _ => some d
  | .andi d _ _ => some d
  | .or d _ _ => some d
  | .ori d _ _ => some d
  | .xor d _ _ => some d
  | .xori d _ _ => some d
  | .shl d _ _ => some d
  | .shli d _ _ => some d
  | .shr d _ _ => some d
  | .shri d _ _ => some d
  | .sar d _ _ => some d
  | .sari d _ _ => some d
  | .cmp _ _ => none
  | .cmpi _ _ => none
  | .ldr d _ _ => some d
  | .str _ _ _ => none
  | .ldrb d _ _ => some d
  | .strb _ _ _ => none
  | .b _ => none
  | .beq _ => none
  | .bne _ => none
  | .blt _ => none
  | .bge _ => none
  | .bgt _ => none
  | .ble _ => none
  | .blo _ => none
  | .bhs _ => none
  | .bhi _ => none
  | .bls _ => none
  | .bmi _ => none
  | .bpl _ => none
  | .bvs _ => none
  | .bvc _ => none
  | .bl _ => some 31
  | .jr _ => none
  | .nop => none
  | .halt => none

/-- `srcA(d)` (R118), the descriptor's `rs1` (R113): `rs1`, a load's or store's base, or the register of `JR`. -/
def Instr.srcA : Instr → Option Reg
  | .add _ a _ => some a
  | .addi _ a _ => some a
  | .sub _ a _ => some a
  | .subi _ a _ => some a
  | .mul _ a _ => some a
  | .muli _ a _ => some a
  | .div _ a _ => some a
  | .divi _ a _ => some a
  | .mod _ a _ => some a
  | .modi _ a _ => some a
  | .and _ a _ => some a
  | .andi _ a _ => some a
  | .or _ a _ => some a
  | .ori _ a _ => some a
  | .xor _ a _ => some a
  | .xori _ a _ => some a
  | .shl _ a _ => some a
  | .shli _ a _ => some a
  | .shr _ a _ => some a
  | .shri _ a _ => some a
  | .sar _ a _ => some a
  | .sari _ a _ => some a
  | .cmp a _ => some a
  | .cmpi a _ => some a
  | .ldr _ a _ => some a
  | .str _ a _ => some a
  | .ldrb _ a _ => some a
  | .strb _ a _ => some a
  | .b _ => none
  | .beq _ => none
  | .bne _ => none
  | .blt _ => none
  | .bge _ => none
  | .bgt _ => none
  | .ble _ => none
  | .blo _ => none
  | .bhs _ => none
  | .bhi _ => none
  | .bls _ => none
  | .bmi _ => none
  | .bpl _ => none
  | .bvs _ => none
  | .bvc _ => none
  | .bl _ => none
  | .jr a => some a
  | .nop => none
  | .halt => none

/-- `srcB(d)` (R118), the descriptor's `rs2` (R113): `rs2` of a register form, or the register a store stores. -/
def Instr.srcB : Instr → Option Reg
  | .add _ _ r => some r
  | .addi _ _ _ => none
  | .sub _ _ r => some r
  | .subi _ _ _ => none
  | .mul _ _ r => some r
  | .muli _ _ _ => none
  | .div _ _ r => some r
  | .divi _ _ _ => none
  | .mod _ _ r => some r
  | .modi _ _ _ => none
  | .and _ _ r => some r
  | .andi _ _ _ => none
  | .or _ _ r => some r
  | .ori _ _ _ => none
  | .xor _ _ r => some r
  | .xori _ _ _ => none
  | .shl _ _ r => some r
  | .shli _ _ _ => none
  | .shr _ _ r => some r
  | .shri _ _ _ => none
  | .sar _ _ r => some r
  | .sari _ _ _ => none
  | .cmp _ r => some r
  | .cmpi _ _ => none
  | .ldr _ _ _ => none
  | .str r _ _ => some r
  | .ldrb _ _ _ => none
  | .strb r _ _ => some r
  | .b _ => none
  | .beq _ => none
  | .bne _ => none
  | .blt _ => none
  | .bge _ => none
  | .bgt _ => none
  | .ble _ => none
  | .blo _ => none
  | .bhs _ => none
  | .bhi _ => none
  | .bls _ => none
  | .bmi _ => none
  | .bpl _ => none
  | .bvs _ => none
  | .bvc _ => none
  | .bl _ => none
  | .jr _ => none
  | .nop => none
  | .halt => none

/-- The descriptor's 32-bit immediate (R108, R113): `sext_32` of the field, and for a branch the byte displacement
`sext_32(off22 ++ 00)` = `4 * s(off22)`. -/
def Instr.immWord : Instr → Option Word
  | .add _ _ _ => none
  | .addi _ _ imm => some (BitVec.ofInt 32 imm)
  | .sub _ _ _ => none
  | .subi _ _ imm => some (BitVec.ofInt 32 imm)
  | .mul _ _ _ => none
  | .muli _ _ imm => some (BitVec.ofInt 32 imm)
  | .div _ _ _ => none
  | .divi _ _ imm => some (BitVec.ofInt 32 imm)
  | .mod _ _ _ => none
  | .modi _ _ imm => some (BitVec.ofInt 32 imm)
  | .and _ _ _ => none
  | .andi _ _ imm => some (BitVec.ofInt 32 imm)
  | .or _ _ _ => none
  | .ori _ _ imm => some (BitVec.ofInt 32 imm)
  | .xor _ _ _ => none
  | .xori _ _ imm => some (BitVec.ofInt 32 imm)
  | .shl _ _ _ => none
  | .shli _ _ imm => some (BitVec.ofInt 32 imm)
  | .shr _ _ _ => none
  | .shri _ _ imm => some (BitVec.ofInt 32 imm)
  | .sar _ _ _ => none
  | .sari _ _ imm => some (BitVec.ofInt 32 imm)
  | .cmp _ _ => none
  | .cmpi _ imm => some (BitVec.ofInt 32 imm)
  | .ldr _ _ off => some (BitVec.ofInt 32 off)
  | .str _ _ off => some (BitVec.ofInt 32 off)
  | .ldrb _ _ off => some (BitVec.ofInt 32 off)
  | .strb _ _ off => some (BitVec.ofInt 32 off)
  | .b off => some (BitVec.ofInt 32 (4 * off))
  | .beq off => some (BitVec.ofInt 32 (4 * off))
  | .bne off => some (BitVec.ofInt 32 (4 * off))
  | .blt off => some (BitVec.ofInt 32 (4 * off))
  | .bge off => some (BitVec.ofInt 32 (4 * off))
  | .bgt off => some (BitVec.ofInt 32 (4 * off))
  | .ble off => some (BitVec.ofInt 32 (4 * off))
  | .blo off => some (BitVec.ofInt 32 (4 * off))
  | .bhs off => some (BitVec.ofInt 32 (4 * off))
  | .bhi off => some (BitVec.ofInt 32 (4 * off))
  | .bls off => some (BitVec.ofInt 32 (4 * off))
  | .bmi off => some (BitVec.ofInt 32 (4 * off))
  | .bpl off => some (BitVec.ofInt 32 (4 * off))
  | .bvs off => some (BitVec.ofInt 32 (4 * off))
  | .bvc off => some (BitVec.ofInt 32 (4 * off))
  | .bl off => some (BitVec.ofInt 32 (4 * off))
  | .jr _ => none
  | .nop => none
  | .halt => none

/-- The condition of a `B<cond>` (R112); none for every other instruction. -/
def Instr.cond : Instr → Option Cond
  | .add _ _ _ => none
  | .addi _ _ _ => none
  | .sub _ _ _ => none
  | .subi _ _ _ => none
  | .mul _ _ _ => none
  | .muli _ _ _ => none
  | .div _ _ _ => none
  | .divi _ _ _ => none
  | .mod _ _ _ => none
  | .modi _ _ _ => none
  | .and _ _ _ => none
  | .andi _ _ _ => none
  | .or _ _ _ => none
  | .ori _ _ _ => none
  | .xor _ _ _ => none
  | .xori _ _ _ => none
  | .shl _ _ _ => none
  | .shli _ _ _ => none
  | .shr _ _ _ => none
  | .shri _ _ _ => none
  | .sar _ _ _ => none
  | .sari _ _ _ => none
  | .cmp _ _ => none
  | .cmpi _ _ => none
  | .ldr _ _ _ => none
  | .str _ _ _ => none
  | .ldrb _ _ _ => none
  | .strb _ _ _ => none
  | .b _ => some .al
  | .beq _ => some .eq
  | .bne _ => some .ne
  | .blt _ => some .lt
  | .bge _ => some .ge
  | .bgt _ => some .gt
  | .ble _ => some .le
  | .blo _ => some .lo
  | .bhs _ => some .hs
  | .bhi _ => some .hi
  | .bls _ => some .ls
  | .bmi _ => some .mi
  | .bpl _ => some .pl
  | .bvs _ => some .vs
  | .bvc _ => some .vc
  | .bl _ => none
  | .jr _ => none
  | .nop => none
  | .halt => none

/-- `dest(d)` (R118): the general register the instruction writes; a destination of register 0 counts as none. -/
def Instr.dest (i : Instr) : Option Reg := i.rd.filter (· != 0)

/-- Does the instruction write `FLAGS` (10_state.md R26, R118)? -/
def Instr.writesFlags : Instr → Bool
  | .add _ _ _ => true
  | .addi _ _ _ => true
  | .sub _ _ _ => true
  | .subi _ _ _ => true
  | .mul _ _ _ => true
  | .muli _ _ _ => true
  | .div _ _ _ => true
  | .divi _ _ _ => true
  | .mod _ _ _ => true
  | .modi _ _ _ => true
  | .and _ _ _ => false
  | .andi _ _ _ => false
  | .or _ _ _ => false
  | .ori _ _ _ => false
  | .xor _ _ _ => false
  | .xori _ _ _ => false
  | .shl _ _ _ => false
  | .shli _ _ _ => false
  | .shr _ _ _ => false
  | .shri _ _ _ => false
  | .sar _ _ _ => false
  | .sari _ _ _ => false
  | .cmp _ _ => true
  | .cmpi _ _ => true
  | .ldr _ _ _ => false
  | .str _ _ _ => false
  | .ldrb _ _ _ => false
  | .strb _ _ _ => false
  | .b _ => false
  | .beq _ => false
  | .bne _ => false
  | .blt _ => false
  | .bge _ => false
  | .bgt _ => false
  | .ble _ => false
  | .blo _ => false
  | .bhs _ => false
  | .bhi _ => false
  | .bls _ => false
  | .bmi _ => false
  | .bpl _ => false
  | .bvs _ => false
  | .bvc _ => false
  | .bl _ => false
  | .jr _ => false
  | .nop => false
  | .halt => false

/-- Does the instruction read `FLAGS` (R118)? Only the fourteen conditional forms of `B<cond>`. -/
def Instr.readsFlags (i : Instr) : Bool := i.cond.any (· != .al)

/-- The decoder's output as R113 lays it out. -/
structure Descriptor where
  /-- the class of the instruction -/
  cls  : InstrClass
  /-- the mnemonic -/
  op   : String
  /-- destination register id -/
  rd   : Option Reg
  /-- first source register id -/
  rs1  : Option Reg
  /-- second source register id -/
  rs2  : Option Reg
  /-- the 32-bit immediate -/
  imm  : Option Word
  /-- the branch condition -/
  cond : Option Cond
deriving DecidableEq, Repr

/-- The descriptor of a decoded instruction (R113). -/
def Instr.descriptor (i : Instr) : Descriptor where
  cls := i.cls
  op := i.mnemonic
  rd := i.rd
  rs1 := i.srcA
  rs2 := i.srcB
  imm := i.immWord
  cond := i.cond

/-! ## The opcode table -/

/-- A row of spec/opcode_table.json: a word belongs to it when `(word and mask) = match` (R114). -/
structure OpRow where
  /-- the row's mnemonic -/
  mnemonic : String
  /-- the row's `match` -/
  pattern  : Word
  /-- the row's `mask` -/
  mask     : Word
deriving DecidableEq, Repr

/-- `(word and mask) = match` (R114). -/
def OpRow.matchesWord (r : OpRow) (w : Word) : Bool := w &&& r.mask == r.pattern

/-- The class A rows of the table. -/
def opcodeRowsA : List OpRow := [
  ⟨"ADD", 0x04000000, 0xFE0003FF⟩,
  ⟨"ADDI", 0x06000000, 0xFE000000⟩,
  ⟨"SUB", 0x08000000, 0xFE0003FF⟩,
  ⟨"SUBI", 0x0A000000, 0xFE000000⟩,
  ⟨"MUL", 0x0C000000, 0xFE0003FF⟩,
  ⟨"MULI", 0x0E000000, 0xFE000000⟩,
  ⟨"DIV", 0x10000000, 0xFE0003FF⟩,
  ⟨"DIVI", 0x12000000, 0xFE000000⟩,
  ⟨"MOD", 0x14000000, 0xFE0003FF⟩,
  ⟨"MODI", 0x16000000, 0xFE000000⟩,
  ⟨"AND", 0x18000000, 0xFE0003FF⟩,
  ⟨"ANDI", 0x1A000000, 0xFE000000⟩,
  ⟨"OR", 0x1C000000, 0xFE0003FF⟩,
  ⟨"ORI", 0x1E000000, 0xFE000000⟩,
  ⟨"XOR", 0x20000000, 0xFE0003FF⟩,
  ⟨"XORI", 0x22000000, 0xFE000000⟩,
  ⟨"SHL", 0x24000000, 0xFE0003FF⟩,
  ⟨"SHLI", 0x26000000, 0xFE000000⟩,
  ⟨"SHR", 0x28000000, 0xFE0003FF⟩,
  ⟨"SHRI", 0x2A000000, 0xFE000000⟩,
  ⟨"SAR", 0x2C000000, 0xFE0003FF⟩,
  ⟨"SARI", 0x2E000000, 0xFE000000⟩,
  ⟨"CMP", 0x30000000, 0xFFF003FF⟩,
  ⟨"CMPI", 0x32000000, 0xFFF00000⟩]

/-- The class M rows. -/
def opcodeRowsM : List OpRow := [
  ⟨"LDR", 0x40000000, 0xFE000000⟩,
  ⟨"STR", 0x44000000, 0xFE000000⟩,
  ⟨"LDRB", 0x48000000, 0xFE000000⟩,
  ⟨"STRB", 0x4C000000, 0xFE000000⟩]

/-- The class C rows. -/
def opcodeRowsC : List OpRow := [
  ⟨"B", 0x80000000, 0xFFC00000⟩,
  ⟨"BEQ", 0x80400000, 0xFFC00000⟩,
  ⟨"BNE", 0x80800000, 0xFFC00000⟩,
  ⟨"BLT", 0x80C00000, 0xFFC00000⟩,
  ⟨"BGE", 0x81000000, 0xFFC00000⟩,
  ⟨"BGT", 0x81400000, 0xFFC00000⟩,
  ⟨"BLE", 0x81800000, 0xFFC00000⟩,
  ⟨"BLO", 0x81C00000, 0xFFC00000⟩,
  ⟨"BHS", 0x82000000, 0xFFC00000⟩,
  ⟨"BHI", 0x82400000, 0xFFC00000⟩,
  ⟨"BLS", 0x82800000, 0xFFC00000⟩,
  ⟨"BMI", 0x82C00000, 0xFFC00000⟩,
  ⟨"BPL", 0x83000000, 0xFFC00000⟩,
  ⟨"BVS", 0x83400000, 0xFFC00000⟩,
  ⟨"BVC", 0x83800000, 0xFFC00000⟩,
  ⟨"BL", 0x84000000, 0xFFC00000⟩,
  ⟨"JR", 0x88000000, 0xFFF07FFF⟩,
  ⟨"NOP", 0x8C000000, 0xFFFFFFFF⟩,
  ⟨"HALT", 0xBC000000, 0xFFFFFFFF⟩]

/-- The 47 rows of spec/opcode_table.json. -/
def opcodeRows : List OpRow := opcodeRowsA ++ opcodeRowsM ++ opcodeRowsC

/-! ## Pseudo-instructions (R117): names an assembler gives to instructions; the hardware knows nothing of them. -/

/-- `mov rd, rs` is `or rd, rs, r0`. -/
def pseudoMov (rd rs : Reg) : Instr := .or rd rs 0

/-- `li rd, imm` is `ori rd, r0, imm`. -/
def pseudoLi (rd : Reg) (imm : Int) : Instr := .ori rd 0 imm

/-- `not rd, rs` is `xori rd, rs, -1`. -/
def pseudoNot (rd rs : Reg) : Instr := .xori rd rs (-1)

/-- `neg rd, rs` is `sub rd, r0, rs`. -/
def pseudoNeg (rd rs : Reg) : Instr := .sub rd 0 rs

/-- `ret` is `jr r31`. -/
def pseudoRet : Instr := .jr 31

end Sys2Proof
end

