-- ==== Sys2Proof/Machine/State.lean ====
section
/-!
DEFINITION. The machine's state as plain data: the ISA-level state of 10_state.md sections 1 to 5, the pipeline
latches and control fields of sections 6 and 7, and the cache arrays of section 8, with the reset values of R37.
-/
namespace Sys2Proof.Machine

/-- The four fault kinds of 60_exceptions.md R220, in the source's order. Taking one is a NEXT state whose `STATUS`
is `Faulted` (R227), so no step answers `Host.Outcome.fault` (log entry 3). -/
inductive Fault where
  /-- Raised by decoding a word that is not a legal encoding (R221). Safe: the machine stops as the spec says. -/
  | invalidOpcode
  /-- Raised by an access or a fetch of `n` bytes at `a` with `a + n > MEM_SIZE` (R222). Safe: as the spec says. -/
  | unmappedAddress
  /-- Raised by a 4-byte access or a fetch at an address that is not a multiple of 4 (R223). Safe: as the spec
  says. -/
  | misalignedAccess
  /-- Raised by `DIV`, `DIVI`, `MOD`, `MODI` with a zero divisor (R224). Safe: as the spec says. -/
  | arithmeticFault
deriving DecidableEq, Repr

/-- Why a step could have no meaning. Every instruction of the table has one, so no step answers a refusal. -/
inductive Refusal where
  /-- Raised by an arm of `exec` whose instruction has no meaning yet; there is none. Safe: the machine stops. -/
  | notModelled (mnemonic : String)
deriving DecidableEq, Repr

/-- `FLAGS`: the tuple (N, Z, C, V) of four one-bit flags (10_state.md R26). -/
structure Flags where
  /-- negative -/
  n : Bool
  /-- zero -/
  z : Bool
  /-- carry -/
  c : Bool
  /-- overflow -/
  v : Bool
deriving DecidableEq, Repr

/-- What `Faulted(detail)` carries (60_exceptions.md R225). The code and the descriptor are functions of these
fields (`Fault.code`, `FaultDetail.descriptor` in Ops.lean; log entry 7). -/
structure FaultDetail where
  /-- the kind of the fault -/
  kind : Fault
  /-- the address of the faulting instruction, or at which the fetch was attempted -/
  pc   : Word
  /-- the instruction word; none for a fetch fault -/
  word : Option Word
  /-- the offending address of a memory fault; none for the other two kinds -/
  addr : Option Word
deriving DecidableEq, Repr

/-- `STATUS`, the run status (10_state.md R31). `halted` and `faulted` are terminal. -/
inductive Status where
  | running
  | halted
  | faulted (detail : FaultDetail)
deriving DecidableEq, Repr

/-- One record `(addr, n, value)` of the output log (10_state.md R30): `byte` has `n` = 1, `word` has `n` = 4. -/
inductive OutRec where
  | byte (addr : Word) (value : Byte)
  | word (addr : Word) (value : Word)
deriving DecidableEq, Repr

/-- The backing memory `Mem` (10_state.md R29): the bytes that are not 0, by rising address. A byte that is not
listed reads 0, the fill of R37 and R250. -/
structure Memory where
  /-- the listed cells -/
  cells : List Host.Cell
deriving DecidableEq, Repr

/-- Addresses strictly rise and no listed byte is 0, the value an unlisted address reads as. -/
def cellsWf : List Host.Cell → Bool
  | [] => true
  | [(_, v)] => v != 0
  | (a, v) :: (b, w) :: rest => v != 0 && decide (a < b) && cellsWf ((b, w) :: rest)

/-- Memory is in its canonical form, so that equal memories are equal data. -/
def Memory.wf (m : Memory) : Bool := cellsWf m.cells

/-- The latch `FD`, Fetch to Decode (10_state.md R32). A bubble is `none` (log entry 6). -/
structure FD where
  /-- address the word was fetched from -/
  pc     : Word
  /-- the fetched instruction word -/
  word   : Word
  /-- a fetch fault found by the Fetch stage, with its address, raised when the entry is decoded -/
  ffault : Option (Fault × Word)
deriving DecidableEq, Repr

/-- The latch `DX`, Decode to Execute (10_state.md R32). `d` is the decoded instruction, which stands for the
descriptor (log entry 7). -/
structure DX where
  /-- address of the instruction -/
  pc   : Word
  /-- its word -/
  word : Word
  /-- the decoded instruction -/
  d    : Instr
  /-- value read in Decode for `srcA`; 0 if there is none -/
  va   : Word
  /-- value read in Decode for `srcB`; 0 if there is none -/
  vb   : Word
deriving DecidableEq, Repr

/-- The latch `XM`, Execute to Memory (10_state.md R32). -/
structure XM where
  /-- address of the instruction -/
  pc     : Word
  /-- its word -/
  word   : Word
  /-- the decoded instruction -/
  d      : Instr
  /-- ALU result, effective address, or return address of `BL`; else 0 -/
  result : Word
  /-- the value to store, for `STR` and `STRB`; else 0 -/
  sdata  : Word
  /-- the general register the instruction will write; none if it writes none or its id is 0 -/
  dest   : Option Reg
  /-- the new flag tuple if the instruction writes flags -/
  flags  : Option Flags
  /-- set for `HALT` -/
  halt   : Bool
deriving DecidableEq, Repr

/-- The latch `MW`, Memory to WriteBack (10_state.md R32). -/
structure MW where
  /-- address of the instruction -/
  pc    : Word
  /-- its word -/
  word  : Word
  /-- the decoded instruction -/
  d     : Instr
  /-- the value to commit to `dest` -/
  value : Word
  /-- the general register the instruction will write -/
  dest  : Option Reg
  /-- the flag tuple to commit -/
  flags : Option Flags
  /-- set for `HALT` -/
  halt  : Bool
deriving DecidableEq, Repr

/-- The pipeline's latches and control fields (10_state.md R25, R32, R33). -/
structure Pipe where
  /-- the fetch program counter -/
  fpc          : Word
  /-- Fetch to Decode -/
  fd           : Option FD
  /-- Decode to Execute -/
  dx           : Option DX
  /-- Execute to Memory -/
  xm           : Option XM
  /-- Memory to WriteBack -/
  mw           : Option MW
  /-- while clear the Fetch stage issues nothing -/
  fetchEnable  : Bool
  /-- wait cycles the instruction in the Memory stage has already spent there -/
  memElapsed   : Nat
  /-- the fault detected, kept until the older instructions have drained -/
  pendingFault : Option FaultDetail
  /-- calls of `step` performed in status `Running` since reset -/
  cycle        : Nat
deriving DecidableEq, Repr

/-- A valid cache line with a tag of `tagBits` bits and a block of data (10_state.md R34); an invalid line is
`none` (log entry 6). -/
structure Line (tagBits : Nat) where
  /-- the tag -/
  tag  : BitVec tagBits
  /-- the 16 bytes of the block -/
  data : Vector Byte blockBytes
deriving DecidableEq, Repr

/-- The cache arrays (10_state.md R34). -/
structure Caches where
  /-- the direct-mapped L1 -/
  l1  : Vector (Option (Line 24)) l1Lines
  /-- the two-way L2, by set -/
  l2  : Vector (Vector (Option (Line 23)) l2Ways) l2Sets
  /-- per L2 set, the way that is least recently used -/
  lru : Vector (Fin l2Ways) l2Sets
deriving DecidableEq, Repr

/-- The whole machine. `cfg` is the model's own field: the parameters of 00_scope.md R5, fixed for a run. -/
structure State where
  /-- the parameters (log entry 2) -/
  cfg    : Config
  /-- `x[0] .. x[31]` (R20); read and written only through `State.reg` and `State.setReg` -/
  regs   : Vector Word 32
  /-- the flags register (R26) -/
  flags  : Flags
  /-- the ISA-level program counter (R24) -/
  pc     : Word
  /-- the backing memory (R29) -/
  mem    : Memory
  /-- the output log, oldest record first (R30) -/
  out    : List OutRec
  /-- the run status (R31) -/
  status : Status
  /-- the pipeline (R25, R32, R33) -/
  pipe   : Pipe
  /-- the caches (R34) -/
  caches : Caches
deriving DecidableEq, Repr

/-- The pipeline after reset (R37): every latch a bubble, fetching from `entry`. -/
def Pipe.reset (entry : Word) : Pipe where
  fpc := entry
  fd := none
  dx := none
  xm := none
  mw := none
  fetchEnable := true
  memElapsed := 0
  pendingFault := none
  cycle := 0

/-- The caches after reset (R37): every line invalid, every `lru` bit 0. -/
def Caches.reset : Caches where
  l1 := Vector.replicate l1Lines none
  l2 := Vector.replicate l2Sets (Vector.replicate l2Ways none)
  lru := Vector.replicate l2Sets 0

/-- The machine after a reset to which the caller supplies nothing (R37, R250, R251): the parameters at their
defaults, no program, everything else at the value the table of R37 gives. -/
def State.reset : State where
  cfg := Config.default
  regs := Vector.replicate 32 0
  flags := { n := false, z := false, c := false, v := false }
  pc := Config.default.entry
  mem := { cells := [] }
  out := []
  status := .running
  pipe := Pipe.reset Config.default.entry
  caches := Caches.reset

end Sys2Proof.Machine
end

