-- ==== Sys2Proof/Machine/Flags.lean ====
section
/-!
DEFINITION. The flag computations of 40_arithmetic_compare.md R130 to R134 and the condition evaluation of
43_control_flow.md R190. Each arithmetic function answers the 32-bit result and the new flag tuple.
-/
namespace Sys2Proof.Machine

/-- `N` and `Z` of a result (R130), with the given `C` and `V`. -/
def resultFlags (r : Word) (c v : Bool) : Flags where
  n := r.msb
  z := r == 0
  c := c
  v := v

/-- `AddFlags(a, b)` (R131): `C` is the carry out of bit 31, `V` the signed overflow. -/
def addFlags (a b : Word) : Word × Flags :=
  let t := a.toNat + b.toNat
  let r := BitVec.ofNat 32 t
  (r, resultFlags r (decide (2 ^ 32 ≤ t)) (a.msb == b.msb && r.msb != a.msb))

/-- `SubFlags(a, b)` (R132): `C` means no borrow, `V` the signed overflow. -/
def subFlags (a b : Word) : Word × Flags :=
  let r := BitVec.ofInt 32 ((a.toNat : Int) - (b.toNat : Int))
  (r, resultFlags r (decide (b.toNat ≤ a.toNat)) (a.msb != b.msb && r.msb != a.msb))

/-- `MulFlags(a, b)` (R133): the low 32 bits; `C` when the unsigned product does not fit, `V` when the signed
product does not fit. -/
def mulFlags (a b : Word) : Word × Flags :=
  let pu := a.toNat * b.toNat
  let ps := a.toInt * b.toInt
  let r := BitVec.ofNat 32 pu
  (r, resultFlags r (decide (2 ^ 32 ≤ pu)) (decide (ps < -2 ^ 31) || decide (2 ^ 31 - 1 < ps)))

/-- `DivMod(a, b)` as `DIV` (R134): the signed quotient rounded toward zero; `V` only for -2^31 / -1. `none` is the
`ArithmeticFault` of a zero divisor. -/
def divFlags (a b : Word) : Option (Word × Flags) :=
  if b = 0 then none
  else
    let q := Int.tdiv a.toInt b.toInt
    let r := BitVec.ofInt 32 q
    some (r, resultFlags r false (decide (q = 2 ^ 31)))

/-- `DivMod(a, b)` as `MOD` (R134): the remainder of the division rounded toward zero. `none` is the
`ArithmeticFault` of a zero divisor. -/
def modFlags (a b : Word) : Option (Word × Flags) :=
  if b = 0 then none
  else
    let q := Int.tdiv a.toInt b.toInt
    let r := BitVec.ofInt 32 (a.toInt - b.toInt * q)
    some (r, resultFlags r false false)

/-- `CondTrue(cond, FLAGS)` (R190), the "taken when" column of 30_encoding.md R112. -/
def condTrue : Cond → Flags → Bool
  | .al, _ => true
  | .eq, f => f.z
  | .ne, f => !f.z
  | .lt, f => f.n != f.v
  | .ge, f => f.n == f.v
  | .gt, f => !f.z && f.n == f.v
  | .le, f => f.z || f.n != f.v
  | .lo, f => !f.c
  | .hs, f => f.c
  | .hi, f => f.c && !f.z
  | .ls, f => !f.c || f.z
  | .mi, f => f.n
  | .pl, f => !f.n
  | .vs, f => f.v
  | .vc, f => !f.v

/-- `FLAGS` as the host reads it (10_state.md R26): `zext_32(N ++ Z ++ C ++ V)`. -/
def Flags.toWord (f : Flags) : Word :=
  BitVec.ofNat 32 (8 * f.n.toNat + 4 * f.z.toNat + 2 * f.c.toNat + f.v.toNat)

end Sys2Proof.Machine
end

