-- ==== Sys2Proof/Machine/Operands.lean ====
section
/-!
DEFINITION. How operands are formed: immediates (30_encoding.md R108), shift amounts and shifts
(41_logic_shift.md R167 to R173), effective addresses (42_load_store.md R180) and branch targets
(43_control_flow.md R191).
-/
namespace Sys2Proof.Machine

/-- `sext_32(imm15)` for an immediate given as the integer it stands for (R108, R130, R160). -/
def immOperand (imm : Int) : Word := BitVec.ofInt 32 imm

/-- The shift amount `u(b[4:0])`, 0 to 31 (R167). -/
def shiftAmount (b : Word) : Nat := b.toNat % 32

/-- Shift left (R168): `(u(a) * 2^sh) mod 2^32`. -/
def shiftLeft (a b : Word) : Word := BitVec.ofNat 32 (a.toNat * 2 ^ shiftAmount b)

/-- Logical shift right (R170): `floor(u(a) / 2^sh)`. -/
def shiftRight (a b : Word) : Word := BitVec.ofNat 32 (a.toNat / 2 ^ shiftAmount b)

/-- Arithmetic shift right (R172): `floor(s(a) / 2^sh) mod 2^32`. -/
def shiftRightArith (a b : Word) : Word := BitVec.ofInt 32 (a.toInt / 2 ^ shiftAmount b)

/-- The effective address `(x[rb] + sext_32(off15)) mod 2^32` (R180), from the base register's value. -/
def effectiveAddress (base : Word) (off : Int) : Word := base + immOperand off

/-- The byte displacement of a branch, `sext_32(off22 ++ 00)` = `4 * s(off22)` (R108). -/
def branchDisp (off : Int) : Word := BitVec.ofInt 32 (4 * off)

/-- The branch target `(pc + disp) mod 2^32`, `pc` the address of the branch itself (R191). -/
def branchTarget (pc : Word) (off : Int) : Word := pc + branchDisp off

end Sys2Proof.Machine
end

