-- ==== Sys2Proof/Machine/Ops.lean ====
section
/-!
DEFINITION. The named operations of the ISA level: registers, memory and the output region, the access checks,
fetching, taking a fault, and how an instruction completes (00_scope.md R9, 10_state.md R21, 20_memory.md R50 to
R58, 60_exceptions.md R225 to R227).
-/
namespace Sys2Proof

/-- `InOut(a)`: `a` lies in the memory-mapped output region (20_memory.md R51). -/
def Config.inOut (c : Config) (a : Word) : Bool :=
  decide (c.mmioBase ≤ a.toNat) && decide (a.toNat < c.mmioBase + c.mmioSize)

end Sys2Proof

namespace Sys2Proof.Machine

/-- What one instruction can answer. -/
abbrev Result := Host.Outcome State Fault Refusal

/-! ## Registers and the program counter -/

/-- `x[r]`: register 0 always reads 0 (10_state.md R21). -/
def State.reg (s : State) (r : Reg) : Word := if r = 0 then 0 else s.regs[r]

/-- `x[r] <- v`: a write to register 0 is discarded (10_state.md R21). -/
def State.setReg (s : State) (r : Reg) (v : Word) : State :=
  if r = 0 then s else { s with regs := s.regs.set r v }

/-- `FLAGS <- f`, all four flags (00_scope.md R9). -/
def State.setFlags (s : State) (f : Flags) : State := { s with flags := f }

/-- `pc <- t`: the next instruction is fetched at `t` (00_scope.md R9). -/
def State.setPc (s : State) (t : Word) : State := { s with pc := t }

/-- The next instruction is at `(pc + 4) mod 2^32` (00_scope.md R9, 10_state.md R24). -/
def State.nextPc (s : State) : State := s.setPc (s.pc + 4)

/-! ## Memory bytes -/

/-- The byte listed at an address, or the fill 0 (10_state.md R37). -/
def readCells : List Host.Cell → Nat → Byte
  | [], _ => 0
  | (b, x) :: rest, a => if a = b then x else readCells rest a

/-- `Mem[a]`, one byte. -/
def Memory.read (m : Memory) (a : Nat) : Byte := readCells m.cells a

/-- Put a byte at an address and keep the canonical form: a byte that becomes the fill 0 is not listed. -/
def writeCells : List Host.Cell → Nat → Byte → List Host.Cell
  | [], a, v => if v = 0 then [] else [(a, v)]
  | (b, x) :: rest, a, v =>
    if a < b then (if v = 0 then (b, x) :: rest else (a, v) :: (b, x) :: rest)
    else if a = b then (if v = 0 then rest else (a, v) :: rest)
    else (b, x) :: writeCells rest a v

/-- `Mem[a] <- v`, one byte. -/
def Memory.write (m : Memory) (a : Nat) (v : Byte) : Memory := { cells := writeCells m.cells a v }

/-- `Word(a)` = `Mem[a+3] ++ Mem[a+2] ++ Mem[a+1] ++ Mem[a]`, little-endian (20_memory.md R52). -/
def Memory.readWord (m : Memory) (a : Nat) : Word :=
  wordOfBytes (m.read a) (m.read (a + 1)) (m.read (a + 2)) (m.read (a + 3))

/-- The four bytes of `v` at `a .. a+3`, little-endian (20_memory.md R52). -/
def Memory.writeWord (m : Memory) (a : Nat) (v : Word) : Memory :=
  (((m.write a (byteOfWord v 0)).write (a + 1) (byteOfWord v 1)).write (a + 2) (byteOfWord v 2)).write (a + 3)
    (byteOfWord v 3)

/-! ## Access widths and checks -/

/-- The two access widths (20_memory.md R53). -/
inductive Width where
  | byte | word
deriving DecidableEq, Repr

/-- The number of bytes `n` of an access (R53). -/
def Width.bytes : Width → Nat
  | .byte => 1
  | .word => 4

/-- The checks of an access of `n` bytes at `a`, alignment first (20_memory.md R54 to R56): the fault it raises, if
any. The mapped check is on integers, with no wrap-around. -/
def accessFault (c : Config) (a : Word) (n : Width) : Option Fault :=
  if n = .word ∧ a.toNat % 4 ≠ 0 then some .misalignedAccess
  else if c.memSize < a.toNat + n.bytes then some .unmappedAddress
  else none

/-- The `n` bytes at `a` as a value, zero-extended to 32 bits (20_memory.md R57). -/
def Memory.readWidth (m : Memory) (a : Nat) : Width → Word
  | .byte => (m.read a).setWidth 32
  | .word => m.readWord a

/-- Store the low `8n` bits of `v` at `a`, little-endian (20_memory.md R57). -/
def Memory.writeWidth (m : Memory) (a : Nat) (n : Width) (v : Word) : Memory :=
  match n with
  | .byte => m.write a (byteOfWord v 0)
  | .word => m.writeWord a v

/-- The record a store into the output region appends to `OUT` (20_memory.md R58). -/
def outRecord (a : Word) (n : Width) (v : Word) : OutRec :=
  match n with
  | .byte => .byte a (byteOfWord v 0)
  | .word => .word a v

/-- The bytes and the `OUT` record of a store whose checks have passed (20_memory.md R57, R58). -/
def State.store (s : State) (a : Word) (n : Width) (v : Word) : State :=
  { s with
    mem := s.mem.writeWidth a.toNat n v
    out := if s.cfg.inOut a then s.out ++ [outRecord a n v] else s.out }

/-- `MemRead(a, n)` (20_memory.md R57), zero-extended to 32 bits. -/
def State.memRead (s : State) (a : Word) (n : Width) : Except Fault Word :=
  match accessFault s.cfg a n with
  | some f => .error f
  | none => .ok (s.mem.readWidth a.toNat n)

/-- `MemWrite(a, n, v)` (20_memory.md R57, R58). -/
def State.memWrite (s : State) (a : Word) (n : Width) (v : Word) : Except Fault State :=
  match accessFault s.cfg a n with
  | some f => .error f
  | none => .ok (s.store a n v)

/-- `Fetch(pc)` (20_memory.md R57). -/
def State.fetch (s : State) : Except Fault Word := s.memRead s.pc .word

/-! ## Faults -/

/-- The numeric code of a fault kind (60_exceptions.md R220). -/
def Fault.code : Fault → Nat
  | .invalidOpcode => 1
  | .unmappedAddress => 2
  | .misalignedAccess => 3
  | .arithmeticFault => 4

/-- The `d` of a fault detail (60_exceptions.md R225): `decode(word)` when it exists. -/
def FaultDetail.descriptor (d : FaultDetail) : Option Descriptor :=
  (d.word.bind decode).map Instr.descriptor

/-- Taking a fault at the ISA level, `raise K(info)` (60_exceptions.md R227): `STATUS <- Faulted(detail)` with the
detail of R225; `pc` keeps the address of the faulting instruction and nothing else changes. There is no return
from it (R228). -/
def State.raise (s : State) (k : Fault) (word addr : Option Word) : State :=
  { s with status := .faulted { kind := k, pc := s.pc, word := word, addr := addr } }

/-- `STATUS <- Halted`; `pc` keeps the address of the `HALT` (43_control_flow.md R210). -/
def State.halt (s : State) : State := { s with status := .halted }

/-! ## How instructions complete -/

/-- An arithmetic instruction writes its result and all four flags (40_arithmetic_compare.md R135). -/
def State.writeArith (s : State) (rd : Reg) (r : Word × Flags) : State := ((s.setReg rd r.1).setFlags r.2).nextPc

/-- A compare writes only the flags (40_arithmetic_compare.md R145). -/
def State.writeCompare (s : State) (r : Word × Flags) : State := (s.setFlags r.2).nextPc

/-- A logic or shift instruction writes its result and no flag (41_logic_shift.md R160). -/
def State.writeLogic (s : State) (rd : Reg) (r : Word) : State := (s.setReg rd r).nextPc

/-- A division of `i`: the fault of a zero divisor, which writes nothing (R134, R224), or the result and flags. -/
def State.writeDivision (s : State) (i : Instr) (rd : Reg) (r : Option (Word × Flags)) : State :=
  match r with
  | some x => s.writeArith rd x
  | none => s.raise .arithmeticFault (some (encode i)) none

/-- A load of `i` into `rt` from `ea` (42_load_store.md R181, R183). -/
def State.load (s : State) (i : Instr) (rt : Reg) (ea : Word) (n : Width) : State :=
  match s.memRead ea n with
  | .ok v => (s.setReg rt v).nextPc
  | .error f => s.raise f (some (encode i)) (some ea)

/-- A store of `i` of the value `v` at `ea` (42_load_store.md R182, R184). -/
def State.storeAt (s : State) (i : Instr) (ea : Word) (n : Width) (v : Word) : State :=
  match s.memWrite ea n v with
  | .ok s' => s'.nextPc
  | .error f => s.raise f (some (encode i)) (some ea)

/-- A conditional branch (43_control_flow.md R190 to R193): to its target if the condition holds, else to the next
instruction. -/
def State.branchIf (s : State) (c : Cond) (off : Int) : State :=
  if condTrue c s.flags then s.setPc (branchTarget s.pc off) else s.nextPc

end Sys2Proof.Machine
end

