-- ==== Sys2Proof/Machine/Arith.lean ====
section
/-!
DEFINITION. The meanings of the arithmetic and compare instructions, 40_arithmetic_compare.md R135 to R146.
-/
namespace Sys2Proof.Machine

/-- `ADD rd, rs1, rs2` (R135). -/
def execAdd (rd rs1 rs2 : Reg) (s : State) : Result :=
  .next (s.writeArith rd (addFlags (s.reg rs1) (s.reg rs2)))

/-- `ADDI rd, rs1, imm` (R136). -/
def execAddi (rd rs1 : Reg) (imm : Int) (s : State) : Result :=
  .next (s.writeArith rd (addFlags (s.reg rs1) (immOperand imm)))

/-- `SUB rd, rs1, rs2` (R137). -/
def execSub (rd rs1 rs2 : Reg) (s : State) : Result :=
  .next (s.writeArith rd (subFlags (s.reg rs1) (s.reg rs2)))

/-- `SUBI rd, rs1, imm` (R138). -/
def execSubi (rd rs1 : Reg) (imm : Int) (s : State) : Result :=
  .next (s.writeArith rd (subFlags (s.reg rs1) (immOperand imm)))

/-- `MUL rd, rs1, rs2` (R139). -/
def execMul (rd rs1 rs2 : Reg) (s : State) : Result :=
  .next (s.writeArith rd (mulFlags (s.reg rs1) (s.reg rs2)))

/-- `MULI rd, rs1, imm` (R140). -/
def execMuli (rd rs1 : Reg) (imm : Int) (s : State) : Result :=
  .next (s.writeArith rd (mulFlags (s.reg rs1) (immOperand imm)))

/-- `DIV rd, rs1, rs2` (R141); a zero divisor raises `ArithmeticFault`. -/
def execDiv (rd rs1 rs2 : Reg) (s : State) : Result :=
  .next (s.writeDivision (.div rd rs1 rs2) rd (divFlags (s.reg rs1) (s.reg rs2)))

/-- `DIVI rd, rs1, imm` (R142); a zero divisor raises `ArithmeticFault`. -/
def execDivi (rd rs1 : Reg) (imm : Int) (s : State) : Result :=
  .next (s.writeDivision (.divi rd rs1 imm) rd (divFlags (s.reg rs1) (immOperand imm)))

/-- `MOD rd, rs1, rs2` (R143); a zero divisor raises `ArithmeticFault`. -/
def execMod (rd rs1 rs2 : Reg) (s : State) : Result :=
  .next (s.writeDivision (.mod rd rs1 rs2) rd (modFlags (s.reg rs1) (s.reg rs2)))

/-- `MODI rd, rs1, imm` (R144); a zero divisor raises `ArithmeticFault`. -/
def execModi (rd rs1 : Reg) (imm : Int) (s : State) : Result :=
  .next (s.writeDivision (.modi rd rs1 imm) rd (modFlags (s.reg rs1) (immOperand imm)))

/-- `CMP rs1, rs2` (R145): the flags of the subtraction; no register is written. -/
def execCmp (rs1 rs2 : Reg) (s : State) : Result :=
  .next (s.writeCompare (subFlags (s.reg rs1) (s.reg rs2)))

/-- `CMPI rs1, imm` (R146). -/
def execCmpi (rs1 : Reg) (imm : Int) (s : State) : Result :=
  .next (s.writeCompare (subFlags (s.reg rs1) (immOperand imm)))

end Sys2Proof.Machine
end

