-- ==== Sys2Proof/Machine/Control.lean ====
section
/-!
DEFINITION. The meanings of the control-flow instructions, 43_control_flow.md R192 to R210.
-/
namespace Sys2Proof.Machine

/-- `B label` (R192). -/
def execB (off : Int) (s : State) : Result := .next (s.branchIf .al off)

/-- `BEQ label` (R193). -/
def execBeq (off : Int) (s : State) : Result := .next (s.branchIf .eq off)

/-- `BNE label` (R194). -/
def execBne (off : Int) (s : State) : Result := .next (s.branchIf .ne off)

/-- `BLT label` (R195). -/
def execBlt (off : Int) (s : State) : Result := .next (s.branchIf .lt off)

/-- `BGE label` (R196). -/
def execBge (off : Int) (s : State) : Result := .next (s.branchIf .ge off)

/-- `BGT label` (R197). -/
def execBgt (off : Int) (s : State) : Result := .next (s.branchIf .gt off)

/-- `BLE label` (R198). -/
def execBle (off : Int) (s : State) : Result := .next (s.branchIf .le off)

/-- `BLO label` (R199). -/
def execBlo (off : Int) (s : State) : Result := .next (s.branchIf .lo off)

/-- `BHS label` (R200). -/
def execBhs (off : Int) (s : State) : Result := .next (s.branchIf .hs off)

/-- `BHI label` (R201). -/
def execBhi (off : Int) (s : State) : Result := .next (s.branchIf .hi off)

/-- `BLS label` (R202). -/
def execBls (off : Int) (s : State) : Result := .next (s.branchIf .ls off)

/-- `BMI label` (R203). -/
def execBmi (off : Int) (s : State) : Result := .next (s.branchIf .mi off)

/-- `BPL label` (R204). -/
def execBpl (off : Int) (s : State) : Result := .next (s.branchIf .pl off)

/-- `BVS label` (R205). -/
def execBvs (off : Int) (s : State) : Result := .next (s.branchIf .vs off)

/-- `BVC label` (R206). -/
def execBvc (off : Int) (s : State) : Result := .next (s.branchIf .vc off)

/-- `BL label` (R207): `x[31]` gets the address of the next instruction, and control goes to the target. -/
def execBl (off : Int) (s : State) : Result :=
  .next ((s.setReg 31 (s.pc + 4)).setPc (branchTarget s.pc off))

/-- `JR rs` (R208): all 32 bits, nothing masked; the fetch at a bad `pc` faults, not the `JR`. -/
def execJr (rs : Reg) (s : State) : Result := .next (s.setPc (s.reg rs))

/-- `NOP` (R209). -/
def execNop (s : State) : Result := .next s.nextPc

/-- `HALT` (R210). -/
def execHalt (s : State) : Result := .next s.halt

end Sys2Proof.Machine
end

