-- ==== Sys2Proof/Machine/LoadStore.lean ====
section
/-!
DEFINITION. The meanings of the load and store instructions, 42_load_store.md R181 to R184.
-/
namespace Sys2Proof.Machine

/-- `LDR rt, [rb, off]` (R181): the word at the effective address goes to `rt`. -/
def execLdr (rt rb : Reg) (off : Int) (s : State) : Result :=
  .next (s.load (.ldr rt rb off) rt (effectiveAddress (s.reg rb) off) .word)

/-- `STR rt, [rb, off]` (R182): `rt` is stored as a word at the effective address. -/
def execStr (rt rb : Reg) (off : Int) (s : State) : Result :=
  .next (s.storeAt (.str rt rb off) (effectiveAddress (s.reg rb) off) .word (s.reg rt))

/-- `LDRB rt, [rb, off]` (R183): the byte at the effective address goes to `rt`, zero-extended. -/
def execLdrb (rt rb : Reg) (off : Int) (s : State) : Result :=
  .next (s.load (.ldrb rt rb off) rt (effectiveAddress (s.reg rb) off) .byte)

/-- `STRB rt, [rb, off]` (R184): the low byte of `rt` is stored at the effective address. -/
def execStrb (rt rb : Reg) (off : Int) (s : State) : Result :=
  .next (s.storeAt (.strb rt rb off) (effectiveAddress (s.reg rb) off) .byte (s.reg rt))

end Sys2Proof.Machine
end

