-- ==== Sys2Proof/Machine/Logic.lean ====
section
/-!
DEFINITION. The meanings of the logic and shift instructions, 41_logic_shift.md R161 to R173.
-/
namespace Sys2Proof.Machine

/-- `AND rd, rs1, rs2` (R161). -/
def execAnd (rd rs1 rs2 : Reg) (s : State) : Result :=
  .next (s.writeLogic rd (s.reg rs1 &&& s.reg rs2))

/-- `ANDI rd, rs1, imm` (R162). -/
def execAndi (rd rs1 : Reg) (imm : Int) (s : State) : Result :=
  .next (s.writeLogic rd (s.reg rs1 &&& immOperand imm))

/-- `OR rd, rs1, rs2` (R163). -/
def execOr (rd rs1 rs2 : Reg) (s : State) : Result :=
  .next (s.writeLogic rd (s.reg rs1 ||| s.reg rs2))

/-- `ORI rd, rs1, imm` (R164). -/
def execOri (rd rs1 : Reg) (imm : Int) (s : State) : Result :=
  .next (s.writeLogic rd (s.reg rs1 ||| immOperand imm))

/-- `XOR rd, rs1, rs2` (R165). -/
def execXor (rd rs1 rs2 : Reg) (s : State) : Result :=
  .next (s.writeLogic rd (s.reg rs1 ^^^ s.reg rs2))

/-- `XORI rd, rs1, imm` (R166). -/
def execXori (rd rs1 : Reg) (imm : Int) (s : State) : Result :=
  .next (s.writeLogic rd (s.reg rs1 ^^^ immOperand imm))

/-- `SHL rd, rs1, rs2` (R168). -/
def execShl (rd rs1 rs2 : Reg) (s : State) : Result :=
  .next (s.writeLogic rd (shiftLeft (s.reg rs1) (s.reg rs2)))

/-- `SHLI rd, rs1, imm` (R169). -/
def execShli (rd rs1 : Reg) (imm : Int) (s : State) : Result :=
  .next (s.writeLogic rd (shiftLeft (s.reg rs1) (immOperand imm)))

/-- `SHR rd, rs1, rs2` (R170). -/
def execShr (rd rs1 rs2 : Reg) (s : State) : Result :=
  .next (s.writeLogic rd (shiftRight (s.reg rs1) (s.reg rs2)))

/-- `SHRI rd, rs1, imm` (R171). -/
def execShri (rd rs1 : Reg) (imm : Int) (s : State) : Result :=
  .next (s.writeLogic rd (shiftRight (s.reg rs1) (immOperand imm)))

/-- `SAR rd, rs1, rs2` (R172). -/
def execSar (rd rs1 rs2 : Reg) (s : State) : Result :=
  .next (s.writeLogic rd (shiftRightArith (s.reg rs1) (s.reg rs2)))

/-- `SARI rd, rs1, imm` (R173). -/
def execSari (rd rs1 : Reg) (imm : Int) (s : State) : Result :=
  .next (s.writeLogic rd (shiftRightArith (s.reg rs1) (immOperand imm)))

end Sys2Proof.Machine
end

