-- ==== Sys2Proof/Machine/Dispatch.lean ====
section
/-!
DEFINITION. One arm per constructor of Instr: each calls the meaning of its instruction.
-/
namespace Sys2Proof.Machine

/-- The effect of one instruction at the ISA level (00_scope.md R7). -/
def exec (i : Instr) (s : State) : Host.Outcome State Fault Refusal :=
  match i with
  | .add rd rs1 rs2 => Sys2Proof.Machine.execAdd rd rs1 rs2 s
  | .addi rd rs1 imm => Sys2Proof.Machine.execAddi rd rs1 imm s
  | .sub rd rs1 rs2 => Sys2Proof.Machine.execSub rd rs1 rs2 s
  | .subi rd rs1 imm => Sys2Proof.Machine.execSubi rd rs1 imm s
  | .mul rd rs1 rs2 => Sys2Proof.Machine.execMul rd rs1 rs2 s
  | .muli rd rs1 imm => Sys2Proof.Machine.execMuli rd rs1 imm s
  | .div rd rs1 rs2 => Sys2Proof.Machine.execDiv rd rs1 rs2 s
  | .divi rd rs1 imm => Sys2Proof.Machine.execDivi rd rs1 imm s
  | .mod rd rs1 rs2 => Sys2Proof.Machine.execMod rd rs1 rs2 s
  | .modi rd rs1 imm => Sys2Proof.Machine.execModi rd rs1 imm s
  | .and rd rs1 rs2 => Sys2Proof.Machine.execAnd rd rs1 rs2 s
  | .andi rd rs1 imm => Sys2Proof.Machine.execAndi rd rs1 imm s
  | .or rd rs1 rs2 => Sys2Proof.Machine.execOr rd rs1 rs2 s
  | .ori rd rs1 imm => Sys2Proof.Machine.execOri rd rs1 imm s
  | .xor rd rs1 rs2 => Sys2Proof.Machine.execXor rd rs1 rs2 s
  | .xori rd rs1 imm => Sys2Proof.Machine.execXori rd rs1 imm s
  | .shl rd rs1 rs2 => Sys2Proof.Machine.execShl rd rs1 rs2 s
  | .shli rd rs1 imm => Sys2Proof.Machine.execShli rd rs1 imm s
  | .shr rd rs1 rs2 => Sys2Proof.Machine.execShr rd rs1 rs2 s
  | .shri rd rs1 imm => Sys2Proof.Machine.execShri rd rs1 imm s
  | .sar rd rs1 rs2 => Sys2Proof.Machine.execSar rd rs1 rs2 s
  | .sari rd rs1 imm => Sys2Proof.Machine.execSari rd rs1 imm s
  | .cmp rs1 rs2 => Sys2Proof.Machine.execCmp rs1 rs2 s
  | .cmpi rs1 imm => Sys2Proof.Machine.execCmpi rs1 imm s
  | .ldr rt rb off => Sys2Proof.Machine.execLdr rt rb off s
  | .str rt rb off => Sys2Proof.Machine.execStr rt rb off s
  | .ldrb rt rb off => Sys2Proof.Machine.execLdrb rt rb off s
  | .strb rt rb off => Sys2Proof.Machine.execStrb rt rb off s
  | .b off => Sys2Proof.Machine.execB off s
  | .beq off => Sys2Proof.Machine.execBeq off s
  | .bne off => Sys2Proof.Machine.execBne off s
  | .blt off => Sys2Proof.Machine.execBlt off s
  | .bge off => Sys2Proof.Machine.execBge off s
  | .bgt off => Sys2Proof.Machine.execBgt off s
  | .ble off => Sys2Proof.Machine.execBle off s
  | .blo off => Sys2Proof.Machine.execBlo off s
  | .bhs off => Sys2Proof.Machine.execBhs off s
  | .bhi off => Sys2Proof.Machine.execBhi off s
  | .bls off => Sys2Proof.Machine.execBls off s
  | .bmi off => Sys2Proof.Machine.execBmi off s
  | .bpl off => Sys2Proof.Machine.execBpl off s
  | .bvs off => Sys2Proof.Machine.execBvs off s
  | .bvc off => Sys2Proof.Machine.execBvc off s
  | .bl off => Sys2Proof.Machine.execBl off s
  | .jr rs => Sys2Proof.Machine.execJr rs s
  | .nop => Sys2Proof.Machine.execNop s
  | .halt => Sys2Proof.Machine.execHalt s

end Sys2Proof.Machine
end

