-- ==== Sys2Proof/Machine/Step.lean ====
section
/-!
DEFINITION. One step of the ISA-level sequential machine (00_scope.md R7) and the word the next step fetches.
-/
namespace Sys2Proof.Machine

/-- One instruction: fetch at `pc`, decode, execute. A fetch fault or an illegal word is taken as the fault the spec
names (60_exceptions.md R221 to R223, R226, R227); in a terminal status nothing changes (R228, log entry 4). -/
def step (s : State) : Host.Outcome State Fault Refusal :=
  match s.status with
  | .running =>
    match s.fetch with
    | .error f => .next (s.raise f none (some s.pc))
    | .ok w =>
      match decode w with
      | none => .next (s.raise .invalidOpcode (some w) none)
      | some i => exec i s
  | .halted => .next s
  | .faulted _ => .next s

/-- The machine with the table word `w` stored, little-endian, at the bytes the next step fetches, and running. It
stands for the program load of 70_reset_and_hazards.md R251 (log entry 8). -/
def State.withFetchWord (s : State) (nbits w : Nat) : State :=
  { s with
    mem := s.mem.writeWord s.pc.toNat (BitVec.ofNat 32 (w % 2 ^ nbits))
    status := .running }

end Sys2Proof.Machine
end

