-- ==== Sys2Proof/Machine/Cache.lean ====
section
/-!
DEFINITION. The cache hierarchy of 20_memory.md sections 5 to 7: geometry, lookup, load, store, latency. L1 is
direct-mapped, L2 two-way with one least-recently-used bit a set; both are write-through and do not allocate on a
store (R64 to R70).
-/
namespace Sys2Proof.Machine

/-! ## Geometry (R64) -/

/-- `off(a)` = `a[3:0]`. -/
def blockOff (a : Word) : Nat := a.toNat % 16

/-- `base(a)` = `a[31:4] ++ 0000`, as a byte address. -/
def blockBase (a : Word) : Nat := a.toNat / 16 * 16

/-- `i1(a)` = `a[7:4]`. -/
def l1Index (a : Word) : Fin l1Lines := Fin.ofNat l1Lines (a.toNat / 16)

/-- `t1(a)` = `a[31:8]`. -/
def l1Tag (a : Word) : BitVec 24 := BitVec.ofNat 24 (a.toNat / 256)

/-- `i2(a)` = `a[8:4]`. -/
def l2Index (a : Word) : Fin l2Sets := Fin.ofNat l2Sets (a.toNat / 16)

/-- `t2(a)` = `a[31:9]`. -/
def l2Tag (a : Word) : BitVec 23 := BitVec.ofNat 23 (a.toNat / 512)

/-! ## Block data -/

/-- The 16 bytes of `Mem` from `base` on. -/
def Memory.block (m : Memory) (base : Nat) : Vector Byte blockBytes := Vector.ofFn fun k => m.read (base + k.val)

/-- Byte `k` of a block. -/
def blockByte (d : Vector Byte blockBytes) (k : Nat) : Byte := d[Fin.ofNat blockBytes k]

/-- `n` bytes of a block from offset `k`, little-endian and zero-extended (R66). -/
def blockRead (d : Vector Byte blockBytes) (k : Nat) : Width → Word
  | .byte => (blockByte d k).setWidth 32
  | .word => wordOfBytes (blockByte d k) (blockByte d (k + 1)) (blockByte d (k + 2)) (blockByte d (k + 3))

/-- One byte put into a block. -/
def blockSet (d : Vector Byte blockBytes) (k : Nat) (v : Byte) : Vector Byte blockBytes :=
  d.set (Fin.ofNat blockBytes k) v

/-- The low `n` bytes of `v` put into a block at offset `k` (R68). -/
def blockWrite (d : Vector Byte blockBytes) (k : Nat) (n : Width) (v : Word) : Vector Byte blockBytes :=
  match n with
  | .byte => blockSet d k (byteOfWord v 0)
  | .word =>
    blockSet (blockSet (blockSet (blockSet d k (byteOfWord v 0)) (k + 1) (byteOfWord v 1)) (k + 2) (byteOfWord v 2))
      (k + 3) (byteOfWord v 3)

/-! ## Lookup (R65) and victim (R67) -/

/-- The L1 line that holds `a`, if `L1hit(a)`. -/
def Caches.l1Line (c : Caches) (a : Word) : Option (Line 24) :=
  c.l1[l1Index a].filter (·.tag == l1Tag a)

/-- `L1hit(a)`. -/
def Caches.l1Hit (c : Caches) (a : Word) : Bool := (c.l1Line a).isSome

/-- The line of way `w` of the set of `a`, if it is valid and its tag matches. -/
def Caches.l2Line (c : Caches) (a : Word) (w : Fin l2Ways) : Option (Line 23) :=
  c.l2[l2Index a][w].filter (·.tag == l2Tag a)

/-- `L2way(a)`: the way that holds `a`, or none. -/
def Caches.l2Way (c : Caches) (a : Word) : Option (Fin l2Ways) :=
  if (c.l2Line a 0).isSome then some 0 else if (c.l2Line a 1).isSome then some 1 else none

/-- `L2victim(s)` (R67): the first invalid way, else the least recently used one. -/
def Caches.l2Victim (c : Caches) (set : Fin l2Sets) : Fin l2Ways :=
  if c.l2[set][(0 : Fin 2)].isNone then 0 else if c.l2[set][(1 : Fin 2)].isNone then 1 else c.lru[set]

/-- Way `w` of a set has just been used: `lru[s] <- 1 - w` (R67). -/
def Caches.touch (c : Caches) (set : Fin l2Sets) (w : Fin l2Ways) : Caches :=
  { c with lru := c.lru.set set (1 - w) }

/-- Put a line into a way of an L2 set. -/
def Caches.setL2 (c : Caches) (set : Fin l2Sets) (w : Fin l2Ways) (l : Line 23) : Caches :=
  { c with l2 := c.l2.set set (c.l2[set].set w (some l)) }

/-- Put a line into L1. -/
def Caches.setL1 (c : Caches) (i : Fin l1Lines) (l : Line 24) : Caches :=
  { c with l1 := c.l1.set i (some l) }

/-! ## Load (R66) and store (R68) -/

/-- The L2 part of a load that misses in L1: the block of `a`, filled from `Mem` on a miss (R66). -/
def Caches.l2Load (c : Caches) (m : Memory) (a : Word) : Vector Byte blockBytes × Caches :=
  let hit := (c.l2Way a).bind fun w => (c.l2Line a w).map (w, ·)
  match hit with
  | some (w, l) => (l.data, c.touch (l2Index a) w)
  | none =>
    let w := c.l2Victim (l2Index a)
    let d := m.block (blockBase a)
    (d, (c.setL2 (l2Index a) w { tag := l2Tag a, data := d }).touch (l2Index a) w)

/-- `SysLoad` (R66): the block that serves a load at `a`, and the caches after it. -/
def Caches.load (c : Caches) (m : Memory) (a : Word) : Vector Byte blockBytes × Caches :=
  match c.l1Line a with
  | some l => (l.data, c)
  | none =>
    let r := c.l2Load m a
    (r.1, r.2.setL1 (l1Index a) { tag := l1Tag a, data := r.1 })

/-- The L1 part of a store: only a resident line is written (R68). -/
def Caches.l1Store (c : Caches) (a : Word) (n : Width) (v : Word) : Caches :=
  match c.l1Line a with
  | some l => c.setL1 (l1Index a) { l with data := blockWrite l.data (blockOff a) n v }
  | none => c

/-- The L2 part of a store: only a resident line is written, and that counts as a use (R68). -/
def Caches.l2Store (c : Caches) (a : Word) (n : Width) (v : Word) : Caches :=
  let hit := (c.l2Way a).bind fun w => (c.l2Line a w).map (w, ·)
  match hit with
  | some (w, l) =>
    (c.setL2 (l2Index a) w { l with data := blockWrite l.data (blockOff a) n v }).touch (l2Index a) w
  | none => c

/-- The caches after `SysStore` (R68): no line becomes valid and no tag changes. -/
def Caches.store (c : Caches) (a : Word) (n : Width) (v : Word) : Caches := (c.l1Store a n v).l2Store a n v

/-! ## The data and instruction ports (R69, R72; 70_reset_and_hazards.md R258, R266) -/

/-- `DataLoad(a, n)` of a checked access: through the caches, or straight from `Mem` in the output region. -/
def State.dataLoad (s : State) (a : Word) (n : Width) : Word × State :=
  if s.cfg.inOut a then (s.mem.readWidth a.toNat n, s)
  else
    let r := s.caches.load s.mem a
    (blockRead r.1 (blockOff a) n, { s with caches := r.2 })

/-- `DataStore(a, n, v)` of a checked access: `Mem` and resident lines, or `Mem` and `OUT` in the output region. -/
def State.dataStore (s : State) (a : Word) (n : Width) (v : Word) : State :=
  { s.store a n v with caches := if s.cfg.inOut a then s.caches else s.caches.store a n v }

/-- `LoadLatency(a)` (R70). -/
def State.loadLatency (s : State) (a : Word) : Nat :=
  if s.cfg.inOut a then s.cfg.memLat
  else if s.caches.l1Hit a then s.cfg.l1Lat
  else if (s.caches.l2Way a).isSome then s.cfg.l1Lat + s.cfg.l2Lat
  else s.cfg.l1Lat + s.cfg.l2Lat + s.cfg.memLat

/-- `StoreLatency(a)` (R70). -/
def State.storeLatency (s : State) (a : Word) : Nat :=
  if s.cfg.inOut a then s.cfg.memLat else s.cfg.l1Lat + s.cfg.l2Lat + s.cfg.memLat

end Sys2Proof.Machine
end

