-- ==== Sys2Proof/Machine/Pipeline.lean ====
section
/-!
DEFINITION. One cycle of the five-stage pipeline, 70_reset_and_hazards.md R255 to R269. `clock` is the algorithm of
R269: a wait cycle, or an advance cycle in which WriteBack, Memory, Execute, Decode and Fetch work, oldest first, on
the latches as they stood at the start of the cycle. It never reads or writes the ISA-level `pc` (log entry 11).
-/
namespace Sys2Proof.Machine

/-! ## What the Memory stage does with an instruction -/

/-- The two kinds of class M instruction. -/
inductive MemKind where
  | load | store
deriving DecidableEq, Repr

/-- The access of a class M instruction (R258): `LDR`, `STR` move 4 bytes, `LDRB`, `STRB` one; none for the other
classes. -/
def memOp (i : Instr) : Option (MemKind × Width) :=
  match i with
  | .ldr _ _ _ => some (.load, .word)
  | .str _ _ _ => some (.store, .word)
  | .ldrb _ _ _ => some (.load, .byte)
  | .strb _ _ _ => some (.store, .byte)
  | .add _ _ _ => none
  | .addi _ _ _ => none
  | .sub _ _ _ => none
  | .subi _ _ _ => none
  | .mul _ _ _ => none
  | .muli _ _ _ => none
  | .div _ _ _ => none
  | .divi _ _ _ => none
  | .mod _ _ _ => none
  | .modi _ _ _ => none
  | .and _ _ _ => none
  | .andi _ _ _ => none
  | .or _ _ _ => none
  | .ori _ _ _ => none
  | .xor _ _ _ => none
  | .xori _ _ _ => none
  | .shl _ _ _ => none
  | .shli _ _ _ => none
  | .shr _ _ _ => none
  | .shri _ _ _ => none
  | .sar _ _ _ => none
  | .sari _ _ _ => none
  | .cmp _ _ => none
  | .cmpi _ _ => none
  | .b _ => none
  | .beq _ => none
  | .bne _ => none
  | .blt _ => none
  | .bge _ => none
  | .bgt _ => none
  | .ble _ => none
  | .blo _ => none
  | .bhs _ => none
  | .bhi _ => none
  | .bls _ => none
  | .bmi _ => none
  | .bpl _ => none
  | .bvs _ => none
  | .bvc _ => none
  | .bl _ => none
  | .jr _ => none
  | .nop => none
  | .halt => none

/-- The latency of the access the Memory stage is about to make (R70, R256). -/
def State.latency (s : State) (a : Word) : MemKind → Nat
  | .load => s.loadLatency a
  | .store => s.storeLatency a

/-- Is this a wait cycle (R256)? `XM` holds a load or store that passes its checks and has not spent its latency. -/
def State.waits (s : State) : Bool :=
  match s.pipe.xm with
  | none => false
  | some x =>
    match memOp x.d with
    | none => false
    | some (k, n) =>
      match accessFault s.cfg x.result n with
      | some _ => false
      | none => decide (s.pipe.memElapsed + 1 < s.latency x.result k)

/-! ## WriteBack (R257) -/

/-- Commit a register result. -/
def State.commitReg (s : State) (dest : Option Reg) (v : Word) : State :=
  match dest with
  | some r => s.setReg r v
  | none => s

/-- Commit a flag result. -/
def State.commitFlags (s : State) (f : Option Flags) : State :=
  match f with
  | some f => s.setFlags f
  | none => s

/-- WriteBack: the only place general registers and `FLAGS` are written (R257); a `HALT` sets `STATUS` (R268). -/
def State.writeBack (s : State) : State :=
  match s.pipe.mw with
  | none => s
  | some m =>
    let t := (s.commitReg m.dest m.value).commitFlags m.flags
    if m.halt then t.halt else t

/-! ## Memory (R258) -/

/-- What the Memory stage produces: the machine after its access, the next `MW`, and the fault it found. -/
structure MemOut where
  /-- the machine after the access -/
  next  : State
  /-- the next `MW` -/
  mw    : Option MW
  /-- the fault found -/
  fault : Option FaultDetail
deriving DecidableEq, Repr

/-- The `MW` entry that follows an `XM` entry, with the value, destination, flags and halt bit given. -/
def XM.toMW (x : XM) (value : Word) (dest : Option Reg) (flags : Option Flags) (halt : Bool) : MW where
  pc := x.pc
  word := x.word
  d := x.d
  value := value
  dest := dest
  flags := flags
  halt := halt

/-- The Memory stage in an advance cycle (R258). -/
def State.memStage (s : State) : MemOut :=
  match s.pipe.xm with
  | none => { next := s, mw := none, fault := none }
  | some x =>
    match memOp x.d with
    | none => { next := s, mw := some (x.toMW x.result x.dest x.flags x.halt), fault := none }
    | some (k, n) =>
      match accessFault s.cfg x.result n with
      | some f =>
        { next := s, mw := none,
          fault := some { kind := f, pc := x.pc, word := some x.word, addr := some x.result } }
      | none =>
        match k with
        | .load =>
          let r := s.dataLoad x.result n
          { next := r.2, mw := some (x.toMW r.1 x.dest none false), fault := none }
        | .store =>
          { next := s.dataStore x.result n x.sdata, mw := some (x.toMW 0 none none false), fault := none }

/-! ## Execute (R259 to R262, R268) -/

/-- Is the instruction a load (`LDR` or `LDRB`)? -/
def isLoad (i : Instr) : Bool := (memOp i).any (·.1 == .load)

/-- Is the instruction a store (`STR` or `STRB`)? -/
def isStore (i : Instr) : Bool := (memOp i).any (·.1 == .store)

/-- `XM` will write `r` and its result is already known: `XM.dest = r` and it is no load (R259). -/
def XM.supplies (x : XM) (r : Reg) : Bool := x.dest == some r && !isLoad x.d

/-- Operand forwarding `Fwd(r, v)` (R259): the nearer producer wins; register 0 and an absent source are never
forwarded. -/
def Pipe.fwd (p : Pipe) (r : Option Reg) (v : Word) : Word :=
  match r with
  | none => v
  | some r =>
    if r = 0 then v
    else
      match p.xm.filter (·.supplies r) with
      | some x => x.result
      | none =>
        match p.mw.filter (·.dest == some r) with
        | some m => m.value
        | none => v

/-- Flag forwarding (R261): the flags of the nearest older flag-writing instruction, else the committed ones at the
start of the cycle. -/
def Pipe.fwdFlags (p : Pipe) (flags0 : Flags) : Flags :=
  ((p.xm.bind XM.flags).or (p.mw.bind MW.flags)).getD flags0

/-- A result with the flag tuple its instruction writes. -/
def withFlags (r : Word × Flags) : Word × Option Flags := (r.1, some r.2)

/-- `ALU(op, a, b2)` (R260): the result and flag tuple of a class A instruction's own rule; `none` is a zero
divisor. The other classes do not use it and give (0, none). -/
def alu (i : Instr) (a b : Word) : Option (Word × Option Flags) :=
  match i with
  | .add _ _ _ => some (withFlags (addFlags a b))
  | .addi _ _ _ => some (withFlags (addFlags a b))
  | .sub _ _ _ => some (withFlags (subFlags a b))
  | .subi _ _ _ => some (withFlags (subFlags a b))
  | .mul _ _ _ => some (withFlags (mulFlags a b))
  | .muli _ _ _ => some (withFlags (mulFlags a b))
  | .div _ _ _ => (divFlags a b).map withFlags
  | .divi _ _ _ => (divFlags a b).map withFlags
  | .mod _ _ _ => (modFlags a b).map withFlags
  | .modi _ _ _ => (modFlags a b).map withFlags
  | .and _ _ _ => some (a &&& b, none)
  | .andi _ _ _ => some (a &&& b, none)
  | .or _ _ _ => some (a ||| b, none)
  | .ori _ _ _ => some (a ||| b, none)
  | .xor _ _ _ => some (a ^^^ b, none)
  | .xori _ _ _ => some (a ^^^ b, none)
  | .shl _ _ _ => some (shiftLeft a b, none)
  | .shli _ _ _ => some (shiftLeft a b, none)
  | .shr _ _ _ => some (shiftRight a b, none)
  | .shri _ _ _ => some (shiftRight a b, none)
  | .sar _ _ _ => some (shiftRightArith a b, none)
  | .sari _ _ _ => some (shiftRightArith a b, none)
  | .cmp _ _ => some (withFlags (subFlags a b))
  | .cmpi _ _ => some (withFlags (subFlags a b))
  | .ldr _ _ _ => some (0, none)
  | .str _ _ _ => some (0, none)
  | .ldrb _ _ _ => some (0, none)
  | .strb _ _ _ => some (0, none)
  | .b _ => some (0, none)
  | .beq _ => some (0, none)
  | .bne _ => some (0, none)
  | .blt _ => some (0, none)
  | .bge _ => some (0, none)
  | .bgt _ => some (0, none)
  | .ble _ => some (0, none)
  | .blo _ => some (0, none)
  | .bhs _ => some (0, none)
  | .bhi _ => some (0, none)
  | .bls _ => some (0, none)
  | .bmi _ => some (0, none)
  | .bpl _ => some (0, none)
  | .bvs _ => some (0, none)
  | .bvc _ => some (0, none)
  | .bl _ => some (0, none)
  | .jr _ => some (0, none)
  | .nop => some (0, none)
  | .halt => some (0, none)

/-- Control-flow resolution (R262): where fetching goes on, if the instruction transfers control. -/
def redirect (i : Instr) (pc a : Word) (fl : Flags) : Option Word :=
  match i with
  | .add _ _ _ => none
  | .addi _ _ _ => none
  | .sub _ _ _ => none
  | .subi _ _ _ => none
  | .mul _ _ _ => none
  | .muli _ _ _ => none
  | .div _ _ _ => none
  | .divi _ _ _ => none
  | .mod _ _ _ => none
  | .modi _ _ _ => none
  | .and _ _ _ => none
  | .andi _ _ _ => none
  | .or _ _ _ => none
  | .ori _ _ _ => none
  | .xor _ _ _ => none
  | .xori _ _ _ => none
  | .shl _ _ _ => none
  | .shli _ _ _ => none
  | .shr _ _ _ => none
  | .shri _ _ _ => none
  | .sar _ _ _ => none
  | .sari _ _ _ => none
  | .cmp _ _ => none
  | .cmpi _ _ => none
  | .ldr _ _ _ => none
  | .str _ _ _ => none
  | .ldrb _ _ _ => none
  | .strb _ _ _ => none
  | .b off => if condTrue .al fl then some (branchTarget pc off) else none
  | .beq off => if condTrue .eq fl then some (branchTarget pc off) else none
  | .bne off => if condTrue .ne fl then some (branchTarget pc off) else none
  | .blt off => if condTrue .lt fl then some (branchTarget pc off) else none
  | .bge off => if condTrue .ge fl then some (branchTarget pc off) else none
  | .bgt off => if condTrue .gt fl then some (branchTarget pc off) else none
  | .ble off => if condTrue .le fl then some (branchTarget pc off) else none
  | .blo off => if condTrue .lo fl then some (branchTarget pc off) else none
  | .bhs off => if condTrue .hs fl then some (branchTarget pc off) else none
  | .bhi off => if condTrue .hi fl then some (branchTarget pc off) else none
  | .bls off => if condTrue .ls fl then some (branchTarget pc off) else none
  | .bmi off => if condTrue .mi fl then some (branchTarget pc off) else none
  | .bpl off => if condTrue .pl fl then some (branchTarget pc off) else none
  | .bvs off => if condTrue .vs fl then some (branchTarget pc off) else none
  | .bvc off => if condTrue .vc fl then some (branchTarget pc off) else none
  | .bl off => some (branchTarget pc off)
  | .jr _ => some a
  | .nop => none
  | .halt => none

/-- What Execute produces. -/
structure ExecOut where
  /-- the next `XM` -/
  xm       : Option XM
  /-- the target of a taken control transfer -/
  redirect : Option Word
  /-- a `HALT` is in Execute -/
  stop     : Bool
  /-- the fault found -/
  fault    : Option FaultDetail
deriving DecidableEq, Repr

/-- Execute does nothing: a bubble in `DX`, or squashed by an older fault. -/
def ExecOut.idle : ExecOut where
  xm := none
  redirect := none
  stop := false
  fault := none

/-- The `XM` entry Execute starts from, `E` of R269. -/
def DX.toXM (x : DX) : XM where
  pc := x.pc
  word := x.word
  d := x.d
  result := 0
  sdata := 0
  dest := none
  flags := none
  halt := false

/-- The Execute stage on a valid `DX` (R260), from the latches and the flags at the start of the cycle. -/
def Pipe.execute (p : Pipe) (flags0 : Flags) (x : DX) : ExecOut :=
  let a := p.fwd x.d.srcA x.va
  let b := p.fwd x.d.srcB x.vb
  let imm := x.d.immWord.getD 0
  match x.d.cls with
  | .a =>
    match alu x.d a (if x.d.srcB.isSome then b else imm) with
    | none =>
      { ExecOut.idle with
        fault := some { kind := .arithmeticFault, pc := x.pc, word := some x.word, addr := none } }
    | some (r, f) => { ExecOut.idle with xm := some { x.toXM with result := r, flags := f, dest := x.d.dest } }
  | .m =>
    { ExecOut.idle with
      xm := some { x.toXM with result := a + imm, sdata := if isStore x.d then b else 0, dest := x.d.dest } }
  | .c =>
    { xm := some { x.toXM with
        result := if x.d.dest.isSome then x.pc + 4 else 0
        dest := x.d.dest
        halt := x.d == .halt }
      redirect := redirect x.d x.pc a (p.fwdFlags flags0)
      stop := x.d == .halt
      fault := none }

/-- The Execute stage (R260): nothing if `DX` is a bubble or the Memory stage found a fault this cycle. -/
def Pipe.execStage (p : Pipe) (flags0 : Flags) (killed : Bool) : ExecOut :=
  match p.dx with
  | none => .idle
  | some x => if killed then .idle else p.execute flags0 x

/-! ## Decode (R263 to R265) -/

/-- What Decode produces. -/
structure DecodeOut where
  /-- the next `DX` -/
  dx    : Option DX
  /-- hold `FD` and do not fetch -/
  stall : Bool
  /-- the fault found -/
  fault : Option FaultDetail
deriving DecidableEq, Repr

/-- Decode does nothing: a bubble in `FD`, or squashed. -/
def DecodeOut.idle : DecodeOut where
  dx := none
  stall := false
  fault := none

/-- The load-use hazard (R264): `P`, entering Execute, is a load whose destination, not `r0`, the instruction in
Decode reads. -/
def loadUse (p : Option DX) (d : Instr) : Bool :=
  match p with
  | none => false
  | some x => isLoad x.d && x.d.dest.isSome && (d.srcA == x.d.dest || d.srcB == x.d.dest)

/-- A source operand read from the register file; 0 for an absent source (R265). -/
def State.readSrc (s : State) (r : Option Reg) : Word :=
  match r with
  | some r => s.reg r
  | none => 0

/-- The Decode stage on a valid `FD` (R263 to R265); `s` is the machine after this cycle's WriteBack. -/
def State.decodeEntry (s : State) (p : Pipe) (f : FD) : DecodeOut :=
  match f.ffault with
  | some (k, a) => { DecodeOut.idle with fault := some { kind := k, pc := f.pc, word := none, addr := some a } }
  | none =>
    match decode f.word with
    | none =>
      { DecodeOut.idle with
        fault := some { kind := .invalidOpcode, pc := f.pc, word := some f.word, addr := none } }
    | some d =>
      if loadUse p.dx d then { DecodeOut.idle with stall := true }
      else
        { DecodeOut.idle with
          dx := some { pc := f.pc, word := f.word, d := d, va := s.readSrc d.srcA, vb := s.readSrc d.srcB } }

/-- The Decode stage: nothing if `FD` is a bubble or an older stage squashed it this cycle. -/
def State.decodeStage (s : State) (p : Pipe) (squashed : Bool) : DecodeOut :=
  match p.fd with
  | none => .idle
  | some f => if squashed then .idle else s.decodeEntry p f

/-! ## Fetch (R266) -/

/-- What Fetch produces: the machine after its cache access, the next `FD` and the next `fpc`. -/
structure FetchOut where
  /-- the machine after the access -/
  next : State
  /-- the next `FD` -/
  fd   : Option FD
  /-- the next `fpc` -/
  fpc  : Word
deriving DecidableEq, Repr

/-- Fetch the word at `pc` (R266): a bad address makes an entry that carries its fault. -/
def State.fetchEntry (s : State) (pc : Word) : FetchOut :=
  match accessFault s.cfg pc .word with
  | some f => { next := s, fd := some { pc := pc, word := 0, ffault := some (f, pc) }, fpc := pc + 4 }
  | none =>
    let r := s.dataLoad pc .word
    { next := r.2, fd := some { pc := pc, word := r.1, ffault := none }, fpc := pc + 4 }

/-- The Fetch stage (R262, R264, R266): squashed, held by a stall, switched off, or fetching at `fpc`. -/
def State.fetchStage (s : State) (p : Pipe) (squash : Bool) (redirect : Option Word) (stall : Bool) : FetchOut :=
  if squash then { next := s, fd := none, fpc := redirect.getD p.fpc }
  else if stall then { next := s, fd := p.fd, fpc := p.fpc }
  else if p.fetchEnable then s.fetchEntry p.fpc
  else { next := s, fd := none, fpc := p.fpc }

/-! ## The cycle (R255, R256, R267, R269) -/

/-- At the end of an advance cycle a pending fault is reported once every latch is empty (R267). -/
def State.reportFault (s : State) : State :=
  match s.pipe.pendingFault with
  | none => s
  | some d =>
    if s.status = .running ∧ s.pipe.fd = none ∧ s.pipe.dx = none ∧ s.pipe.xm = none ∧ s.pipe.mw = none then
      { s with status := .faulted d }
    else s

/-- `mem_elapsed` after an advance cycle: 0 once a load or store has left the Memory stage (R256). -/
def Pipe.elapsedAfter (p : Pipe) : Nat :=
  if p.xm.any (fun x => (memOp x.d).isSome) then 0 else p.memElapsed

/-- An advance cycle (R255, R269): every stage works on the latches `p` of the start of the cycle. -/
def State.advance (s : State) : State :=
  let p := s.pipe
  let wb := s.writeBack
  let me := wb.memStage
  let ex := p.execStage s.flags me.fault.isSome
  let squash1 := me.fault.isSome || ex.fault.isSome || ex.redirect.isSome || ex.stop
  let de := wb.decodeStage p squash1
  let fault := me.fault.or (ex.fault.or de.fault)
  let fe := me.next.fetchStage p (squash1 || de.fault.isSome) ex.redirect de.stall
  State.reportFault
    { fe.next with
      pipe :=
        { fpc := fe.fpc
          fd := fe.fd
          dx := de.dx
          xm := ex.xm
          mw := me.mw
          fetchEnable := p.fetchEnable && !(ex.stop || fault.isSome)
          memElapsed := p.elapsedAfter
          pendingFault := fault.or p.pendingFault
          cycle := p.cycle } }

/-- `cycle <- cycle + 1`. -/
def State.countCycle (s : State) : State := { s with pipe := { s.pipe with cycle := s.pipe.cycle + 1 } }

/-- A wait cycle changes nothing but `mem_elapsed` (and `cycle`, counted before) (R256). -/
def State.waitCycle (s : State) : State := { s with pipe := { s.pipe with memElapsed := s.pipe.memElapsed + 1 } }

/-- One simulated cycle, the host's `step()` (R253, R269): in a terminal status nothing changes. -/
def clock (s : State) : State :=
  match s.status with
  | .running => if s.waits then s.countCycle.waitCycle else s.countCycle.advance
  | .halted => s
  | .faulted _ => s

end Sys2Proof.Machine
end

