-- ==== Sys2Proof/Machine/HostOps.lean ====
section
/-!
DEFINITION. The host operations of 70_reset_and_hazards.md R250 to R254: `reset`, `step`, `run` and the inspection
calls, with the refusals of 60_exceptions.md R237.
-/
namespace Sys2Proof.Machine

/-- Why a host call is refused (60_exceptions.md R237): an error to the host, no state change, no fault. -/
inductive HostError where
  /-- `readRegister` with an id outside 0 .. 32 -/
  | badRegisterId
  /-- `readMemory` past the end of memory -/
  | badMemoryRange
  /-- `reset` with inputs that break the bounds of R250 or parameters that break those of 00_scope.md R6 -/
  | badResetInput
deriving DecidableEq, Repr

/-- The inputs of `reset` (R250). The two partial maps are lists of pairs with no key twice (log entry 10). -/
structure ResetInput where
  /-- `PROGRAM`: the encoded words in order -/
  program   : List Word
  /-- `INIT_MEM`: from byte addresses to bytes -/
  initMem   : List Host.Cell
  /-- `INIT_REGS`: from register ids to values; an entry for id 0 is ignored -/
  initRegs  : List (Nat × Word)
  /-- `INIT_FLAGS` -/
  initFlags : Option Flags
deriving DecidableEq, Repr

/-- `reset` with every input omitted. -/
def ResetInput.empty : ResetInput where
  program := []
  initMem := []
  initRegs := []
  initFlags := none

/-- No key of a partial map stands twice. -/
def keysDistinct : List Nat → Bool
  | [] => true
  | k :: rest => !rest.contains k && keysDistinct rest

/-- The bounds of R250 on the inputs and of 00_scope.md R6 on the parameters. -/
def ResetInput.ok (c : Config) (i : ResetInput) : Bool :=
  c.wf && decide (c.progBase + 4 * i.program.length ≤ c.memSize)
  && i.initMem.all (fun cell => decide (cell.1 < c.memSize)) && keysDistinct (i.initMem.map Prod.fst)
  && i.initRegs.all (fun e => decide (e.1 < 32)) && keysDistinct (i.initRegs.map Prod.fst)

/-- `INIT_MEM` as memory: 0 in every byte not supplied (R250). -/
def loadImage (cells : List Host.Cell) : Memory :=
  cells.foldl (fun m cell => m.write cell.1 cell.2) { cells := [] }

/-- The program words written from a byte address on, little-endian (R251). -/
def loadProgram : List Word → Nat → Memory → Memory
  | [], _, m => m
  | w :: rest, a, m => loadProgram rest (a + 4) (m.writeWord a w)

/-- `INIT_REGS` as a register file: 0 in every register not supplied, and in register 0 (R37, R250). -/
def loadRegs (entries : List (Nat × Word)) : Vector Word 32 :=
  entries.foldl (fun v e => if e.1 = 0 then v else v.set (Fin.ofNat 32 e.1) e.2) (Vector.replicate 32 0)

/-- `reset(PROGRAM, INIT_MEM, INIT_REGS, INIT_FLAGS)` (R250, R251): refused if the inputs break their bounds, else
every piece of state at the value of 10_state.md R37. It does not depend on the run before it. -/
def reset (c : Config) (i : ResetInput) : Except HostError State :=
  if i.ok c then
    .ok
      { cfg := c
        regs := loadRegs i.initRegs
        flags := i.initFlags.getD { n := false, z := false, c := false, v := false }
        pc := c.entry
        mem := loadProgram i.program c.progBase (loadImage i.initMem)
        out := []
        status := .running
        pipe := Pipe.reset c.entry
        caches := Caches.reset }
  else .error .badResetInput

/-- `getStatus()` (R254). -/
def getStatus (s : State) : Status := s.status

/-- `step()` (R253): one cycle, and the new status. -/
def hostStep (s : State) : State × Status := (clock s, (clock s).status)

/-- `run(max_cycles)` (R253): cycles until the status is not `Running` or the budget is spent. -/
def hostRun : Nat → State → State × Status
  | 0, s => (s, s.status)
  | k + 1, s =>
    match s.status with
    | .running => hostRun k (clock s)
    | .halted => (s, s.status)
    | .faulted _ => (s, s.status)

/-- `readRegister(id)` (R254): the committed value; id 32 reads `FLAGS` (10_state.md R26); other ids are refused. -/
def readRegister (s : State) (id : Nat) : Except HostError Word :=
  if h : id < 32 then .ok (s.reg ⟨id, h⟩)
  else if id = 32 then .ok s.flags.toWord
  else .error .badRegisterId

/-- `length` bytes of `Mem` from `a` on. -/
def Memory.readBytes (m : Memory) : Nat → Nat → List Byte
  | _, 0 => []
  | a, k + 1 => m.read a :: m.readBytes (a + 1) k

/-- `readMemory(address, length)` (20_memory.md R73): straight from the backing memory, refused past its end. -/
def readMemory (s : State) (address length : Nat) : Except HostError (List Byte) :=
  if address + length ≤ s.cfg.memSize then .ok (s.mem.readBytes address length) else .error .badMemoryRange

/-- The read-only view `cycle` (R254). -/
def readCycle (s : State) : Nat := s.pipe.cycle

/-- The read-only view `OUT` (R254). -/
def readOut (s : State) : List OutRec := s.out

end Sys2Proof.Machine
end

