-- ==== Sys2Proof/Safety.lean ====
section
/-!
DEFINITION. The terms claims use: runs of the two levels, frames, the invariants of a sound machine at the ISA level,
of the caches (20_memory.md R71) and of the pipeline (70_reset_and_hazards.md R270), and the premise of the
equivalence of the two levels (R272, R273).
-/
namespace Sys2Proof.Machine

/-! ## Runs -/

/-- The ISA-level machine after `k` steps. -/
def stepN : Nat → State → State
  | 0, s => s
  | k + 1, s =>
    match step s with
    | .next t => stepN k t
    | .fault _ => s
    | .refused _ => s

/-- The pipeline after `k` cycles. -/
def clockN : Nat → State → State
  | 0, s => s
  | k + 1, s => clockN k (clock s)

/-! ## Frames -/

/-- Every register but `rd` reads as before. -/
def RegsExcept (s t : State) (rd : Reg) : Prop := ∀ r, r ≠ rd → t.reg r = s.reg r

/-- Every register reads as before. -/
def SameRegs (s t : State) : Prop := ∀ r, t.reg r = s.reg r

/-- Every byte of memory reads as before, and the output log is the same. -/
def SameMemory (s t : State) : Prop := (∀ a, t.mem.read a = s.mem.read a) ∧ t.out = s.out

/-- The parameters, the pipeline and the caches are the same. That an ISA-level instruction leaves the last two alone
is the model's choice (log entry 11). -/
def SameHidden (s t : State) : Prop := t.cfg = s.cfg ∧ t.pipe = s.pipe ∧ t.caches = s.caches

/-- Outside the range of a 32-bit two's-complement number. -/
def OutOfRange (x : Int) : Prop := x < -2 ^ 31 ∨ 2 ^ 31 - 1 < x

/-! ## What claims say of one instruction -/

/-- `t` is `s` after an instruction that puts `r` into the register `dest` names, none for a compare (register 0
discards it, R21), and goes on to the next instruction: no other register, no byte of memory, no output record, no
status and nothing hidden changes. The flags are said apart. -/
structure Wrote (s t : State) (dest : Option Reg) (r : Word) : Prop where
  regs   : ∀ q, t.reg q = if q ≠ 0 ∧ dest = some q then r else s.reg q
  pc     : t.pc = s.pc + 4
  memory : SameMemory s t
  status : t.status = s.status
  hidden : SameHidden s t

/-- The four flags of a result: N and Z as R130 says, C and V by the given conditions. -/
def FlagsAre (f : Flags) (r : Word) (carry ovf : Prop) : Prop :=
  f.n = r.getLsbD 31 ∧ (f.z = true ↔ r = 0) ∧ (f.c = true ↔ carry) ∧ (f.v = true ↔ ovf)

/-- The sum of `a` and `b` went to `rd`, with the flags of R131. -/
def Added (s t : State) (rd : Reg) (a b : Word) : Prop :=
  ∃ r : Word, r.toNat = (a.toNat + b.toNat) % 2 ^ 32 ∧ Wrote s t (some rd) r
    ∧ FlagsAre t.flags r (2 ^ 32 ≤ a.toNat + b.toNat) (OutOfRange (a.toInt + b.toInt))

/-- The difference of `a` and `b` went to `dest`, with the flags of R132. -/
def Subtracted (s t : State) (dest : Option Reg) (a b : Word) : Prop :=
  ∃ r : Word, (r.toNat : Int) = ((a.toNat : Int) - b.toNat) % 2 ^ 32 ∧ Wrote s t dest r
    ∧ FlagsAre t.flags r (b.toNat ≤ a.toNat) (OutOfRange (a.toInt - b.toInt))

/-- The low half of the product of `a` and `b` went to `rd`, with the flags of R133. -/
def Multiplied (s t : State) (rd : Reg) (a b : Word) : Prop :=
  ∃ r : Word, r.toNat = a.toNat * b.toNat % 2 ^ 32 ∧ (r.toNat : Int) = a.toInt * b.toInt % 2 ^ 32
    ∧ Wrote s t (some rd) r
    ∧ FlagsAre t.flags r (2 ^ 32 ≤ a.toNat * b.toNat) (OutOfRange (a.toInt * b.toInt))

/-- `q` and `m` are the quotient rounded toward zero and the remainder of `a` by `b` (R134): the remainder is smaller
than the divisor and has the sign of the dividend or is 0. No other pair is. -/
def IsDivMod (a b q m : Int) : Prop := a = b * q + m ∧ |m| < |b| ∧ (m = 0 ∨ (m < 0 ↔ a < 0))

/-- The quotient of `a` by `b` went to `rd`, with the flags of R134. -/
def Divided (s t : State) (rd : Reg) (a b : Word) : Prop :=
  ∃ (q m : Int) (r : Word), IsDivMod a.toInt b.toInt q m ∧ (r.toNat : Int) = q % 2 ^ 32 ∧ Wrote s t (some rd) r
    ∧ FlagsAre t.flags r False (a = 0x80000000 ∧ b = 0xFFFFFFFF)

/-- The remainder of `a` by `b` went to `rd`, with the flags of R134. -/
def Reduced (s t : State) (rd : Reg) (a b : Word) : Prop :=
  ∃ (q m : Int) (r : Word), IsDivMod a.toInt b.toInt q m ∧ r.toInt = m ∧ Wrote s t (some rd) r
    ∧ FlagsAre t.flags r False False

/-- A word with the given bits went to `rd`, and the flags stayed (R160). -/
def WroteBits (s t : State) (rd : Reg) (bit : Nat → Bool) : Prop :=
  ∃ r : Word, (∀ k, k < 32 → r.getLsbD k = bit k) ∧ Wrote s t (some rd) r ∧ t.flags = s.flags

/-- The low `n` bytes of `v` went to memory at `ea`, little-endian, with one output record if `ea` lies in the output
region (R57, R58): no other byte, no register, no flag and nothing hidden changes. -/
structure Stored (s t : State) (ea : Word) (n : Width) (v : Word) : Prop where
  bytes  : ∀ k, k < n.bytes → t.mem.read (ea.toNat + k) = v.extractLsb' (8 * k) 8
  others : ∀ b, b < ea.toNat ∨ ea.toNat + n.bytes ≤ b → t.mem.read b = s.mem.read b
  log    : t.out = if s.cfg.mmioBase ≤ ea.toNat ∧ ea.toNat < s.cfg.mmioBase + s.cfg.mmioSize
    then s.out ++ [outRecord ea n v] else s.out
  regs   : SameRegs s t
  flags  : t.flags = s.flags
  pc     : t.pc = s.pc + 4
  status : t.status = s.status
  hidden : SameHidden s t

/-- Control went to `target` and nothing else changed. -/
structure Jumped (s t : State) (target : Word) : Prop where
  pc     : t.pc = target
  regs   : SameRegs s t
  flags  : t.flags = s.flags
  memory : SameMemory s t
  status : t.status = s.status
  hidden : SameHidden s t

/-- The fault with detail `d` was taken and nothing but the status changed (R227). -/
structure FaultTaken (s t : State) (d : FaultDetail) : Prop where
  status : t.status = .faulted d
  pc     : t.pc = s.pc
  regs   : SameRegs s t
  flags  : t.flags = s.flags
  memory : SameMemory s t
  hidden : SameHidden s t

/-- The branch instruction of a condition (30_encoding.md R112). -/
def branchInstr (c : Cond) (off : Int) : Instr :=
  match c with
  | .al => .b off
  | .eq => .beq off
  | .ne => .bne off
  | .lt => .blt off
  | .ge => .bge off
  | .gt => .bgt off
  | .le => .ble off
  | .lo => .blo off
  | .hs => .bhs off
  | .hi => .bhi off
  | .ls => .bls off
  | .mi => .bmi off
  | .pl => .bpl off
  | .vs => .bvs off
  | .vc => .bvc off

/-- The "taken when" column of 30_encoding.md R112. -/
def Taken (c : Cond) (f : Flags) : Prop :=
  match c with
  | .al => True
  | .eq => f.z = true
  | .ne => f.z = false
  | .lt => f.n ≠ f.v
  | .ge => f.n = f.v
  | .gt => f.z = false ∧ f.n = f.v
  | .le => f.z = true ∨ f.n ≠ f.v
  | .lo => f.c = false
  | .hs => f.c = true
  | .hi => f.c = true ∧ f.z = false
  | .ls => f.c = false ∨ f.z = true
  | .mi => f.n = true
  | .pl => f.n = false
  | .vs => f.v = true
  | .vc => f.v = false

/-- What a condition means after a compare of `a` with `b` (43_control_flow.md R190). -/
def Meaning (c : Cond) (a b : Word) : Prop :=
  match c with
  | .al => True
  | .eq => a = b
  | .ne => a ≠ b
  | .lt => a.toInt < b.toInt
  | .ge => b.toInt ≤ a.toInt
  | .gt => b.toInt < a.toInt
  | .le => a.toInt ≤ b.toInt
  | .lo => a.toNat < b.toNat
  | .hs => b.toNat ≤ a.toNat
  | .hi => b.toNat < a.toNat
  | .ls => a.toNat ≤ b.toNat
  | .mi => (a - b).getLsbD 31 = true
  | .pl => (a - b).getLsbD 31 = false
  | .vs => OutOfRange (a.toInt - b.toInt)
  | .vc => ¬ OutOfRange (a.toInt - b.toInt)

/-- The Memory stage finds no fault in this cycle: `XM` is a bubble, holds no access, or one that passes its checks. -/
def MemoryStageClean (s : State) : Prop :=
  ∀ x k n, s.pipe.xm = some x → memOp x.d = some (k, n) → accessFault s.cfg x.result n = none

/-- Every latch is a bubble. -/
def LatchesEmpty (s : State) : Prop :=
  s.pipe.fd = none ∧ s.pipe.dx = none ∧ s.pipe.xm = none ∧ s.pipe.mw = none

/-! ## The ISA level -/

/-- Every listed byte lies below the given size. -/
def Memory.within (m : Memory) (size : Nat) : Prop := ∀ c ∈ m.cells, c.1 < size

/-- A record of the output log is of a store into the output region, a word store at a multiple of 4 (R54, R58). -/
def OutRec.sound (c : Config) : OutRec → Prop
  | .byte a _ => c.inOut a = true
  | .word a _ => c.inOut a = true ∧ a.toNat % 4 = 0

/-- Is the instruction one that divides? -/
def isDivision : Instr → Bool
  | .div _ _ _ => true
  | .divi _ _ _ => true
  | .mod _ _ _ => true
  | .modi _ _ _ => true
  | _ => false

/-- The fault detail is one that the table of 60_exceptions.md R220 describes. -/
def FaultDetail.sound (c : Config) (d : FaultDetail) : Prop :=
  match d.kind with
  | .invalidOpcode => d.addr = none ∧ ∃ w, d.word = some w ∧ decode w = none
  | .arithmeticFault => d.addr = none ∧ ∃ w i, d.word = some w ∧ decode w = some i ∧ isDivision i = true
  | .misalignedAccess =>
    ∃ a, d.addr = some a ∧ a.toNat % 4 ≠ 0 ∧ (d.word = none → a = d.pc)
  | .unmappedAddress =>
    ∃ a, d.addr = some a ∧ c.memSize < a.toNat + 4 ∧ (d.word = none → a = d.pc)

/-- The ISA-level state is sound: legal parameters, canonical memory inside its bounds, register 0 zero, an output
log of the output region only, and a fault detail as R220 describes it. -/
structure ArchInv (s : State) : Prop where
  cfgOk    : s.cfg.wf = true
  memOk    : s.mem.wf = true
  memIn    : s.mem.within s.cfg.memSize
  zeroSlot : s.regs[0] = 0
  outOk    : ∀ r ∈ s.out, r.sound s.cfg
  detailOk : ∀ d, s.status = .faulted d → d.sound s.cfg

/-! ## The caches (R71) -/

/-- The byte address of the block that L1 line `i` holds under a tag (R64). -/
def l1Base (i : Fin l1Lines) (tag : BitVec 24) : Nat := tag.toNat * 256 + i.val * 16

/-- The byte address of the block that a line of L2 set `i` holds under a tag (R64). -/
def l2Base (i : Fin l2Sets) (tag : BitVec 23) : Nat := tag.toNat * 512 + i.val * 16

/-- A block holds the current bytes of memory, and no byte of the output region (R69, R71). -/
def BlockCoherent (c : Config) (m : Memory) (base : Nat) (d : Vector Byte blockBytes) : Prop :=
  (∀ k : Fin blockBytes, d[k] = m.read (base + k.val))
  ∧ ¬ (c.mmioBase ≤ base ∧ base < c.mmioBase + c.mmioSize)

/-- The coherence invariant of 20_memory.md R71: every valid line of L1 and of L2 holds the current bytes of `Mem`
for its block, no block of the output region is cached (R69), and at most one way of a set matches (R65). -/
structure CacheInv (s : State) : Prop where
  cfgOk : s.cfg.wf = true
  memOk : s.mem.wf = true
  l1Ok  : ∀ (i : Fin l1Lines) (l : Line 24), s.caches.l1[i] = some l →
    BlockCoherent s.cfg s.mem (l1Base i l.tag) l.data
  l2Ok  : ∀ (i : Fin l2Sets) (w : Fin l2Ways) (l : Line 23), s.caches.l2[i][w] = some l →
    BlockCoherent s.cfg s.mem (l2Base i l.tag) l.data
  l2One : ∀ (i : Fin l2Sets) (l l' : Line 23), s.caches.l2[i][(0 : Fin l2Ways)] = some l →
    s.caches.l2[i][(1 : Fin l2Ways)] = some l' → l.tag ≠ l'.tag

/-! ## The pipeline (R270) -/

/-- What the latches, the control fields and the status tell about each other at every cycle boundary: R270 (7), (8),
(9), R257, R267, R268, and that every latch holds the decoding of its own word (10_state.md R32, R35). -/
structure PipeInv (s : State) : Prop where
  fdFault   : ∀ f k a, s.pipe.fd = some f → f.ffault = some (k, a) →
    a = f.pc ∧ accessFault s.cfg f.pc .word = some k
  dxWord    : ∀ x, s.pipe.dx = some x → decode x.word = some x.d
  xmWord    : ∀ x, s.pipe.xm = some x → decode x.word = some x.d
  xmDest    : ∀ x, s.pipe.xm = some x → x.dest = x.d.dest
  xmFlags   : ∀ x, s.pipe.xm = some x → x.flags.isSome = x.d.writesFlags
  xmHalt    : ∀ x, s.pipe.xm = some x → (x.halt = true ↔ x.d = .halt)
  mwWord    : ∀ m, s.pipe.mw = some m → decode m.word = some m.d
  mwDest    : ∀ m, s.pipe.mw = some m → m.dest = m.d.dest
  mwFlags   : ∀ m, s.pipe.mw = some m → m.flags.isSome = m.d.writesFlags
  mwHalt    : ∀ m, s.pipe.mw = some m → (m.halt = true ↔ m.d = .halt)
  elapsed   : s.pipe.memElapsed ≠ 0 → ∃ x k n, s.pipe.xm = some x ∧ memOp x.d = some (k, n)
    ∧ accessFault s.cfg x.result n = none
  noLoadUse : ∀ x y r, s.pipe.xm = some x → isLoad x.d = true → x.dest = some r → s.pipe.dx = some y →
    y.d.srcA ≠ some r ∧ y.d.srcB ≠ some r
  stopped   : s.pipe.fetchEnable = false → s.pipe.fd = none ∧ s.pipe.dx = none
  pending   : ∀ d, s.pipe.pendingFault = some d → s.pipe.fetchEnable = false ∧ d.sound s.cfg
  haltInXM  : ∀ x, s.pipe.xm = some x → x.d = .halt → s.pipe.fetchEnable = false ∧ s.pipe.pendingFault = none
  haltInMW  : ∀ m, s.pipe.mw = some m → m.d = .halt →
    s.pipe.xm = none ∧ s.pipe.fetchEnable = false ∧ s.pipe.pendingFault = none
  drained   : s.status ≠ .running →
    s.pipe.fd = none ∧ s.pipe.dx = none ∧ s.pipe.xm = none ∧ s.pipe.mw = none ∧ s.pipe.fetchEnable = false

/-! ## Stores into code (R62, R272) -/

/-- The bytes the instruction at `pc` is about to store to, as first address and count; none if it stores nothing. -/
def storeSpan (s : State) : Option (Nat × Nat) :=
  match s.fetch with
  | .error _ => none
  | .ok w =>
    match decode w with
    | some (.str _ rb off) =>
      if (accessFault s.cfg (effectiveAddress (s.reg rb) off) .word).isNone then
        some ((effectiveAddress (s.reg rb) off).toNat, 4)
      else none
    | some (.strb _ rb off) =>
      if (accessFault s.cfg (effectiveAddress (s.reg rb) off) .byte).isNone then
        some ((effectiveAddress (s.reg rb) off).toNat, 1)
      else none
    | _ => none

/-- Is the instruction at `pc` about to transfer control (a taken `B<cond>`, a `BL` or a `JR`)? -/
def takesTransfer (s : State) : Bool :=
  match s.fetch with
  | .error _ => false
  | .ok w =>
    match decode w with
    | some i => (redirect i s.pc (s.readSrc i.srcA) s.flags).isSome
    | none => false

/-- The word at `pc` shares a byte with the `n` bytes at `a`. -/
def overlapsCode (pc : Word) (span : Nat × Nat) : Prop := pc.toNat < span.1 + span.2 ∧ span.1 < pc.toNat + 4

/-- No instruction of the run from `s` is executed inside the window of R272: what a store writes is neither the next
instruction executed nor, unless that one transfers control, the one after it. -/
def NoStoreIntoNextCode (s : State) : Prop :=
  ∀ k span, (stepN k s).status = .running → storeSpan (stepN k s) = some span →
    ¬ overlapsCode (stepN (k + 1) s).pc span
    ∧ (takesTransfer (stepN (k + 1) s) = false → ¬ overlapsCode (stepN (k + 2) s).pc span)

/-- The two levels ended alike (R273): the same status, registers, flags, bytes of memory and output log. -/
def SameEnd (p a : State) : Prop :=
  p.status = a.status ∧ SameRegs a p ∧ p.flags = a.flags ∧ (∀ b, p.mem.read b = a.mem.read b) ∧ p.out = a.out

end Sys2Proof.Machine
end

