-- ==== Sys2Proof/Certificates/Slice0/Obligations.lean ====
section
/-!
DEFINITION. The statements for the provers. Each says one thing of the machine that a numbered rule of spec/ says;
OBLIGATIONS.json lists them with their rules. The predicates they use stand in Safety.lean.
-/
open Sys2Proof Sys2Proof.Machine

/-! ## Encoding -/

/-- Decoding the word of a well-formed instruction gives the instruction, with every operand at every value. -/
def Obligations.DecodeOfEncode : Prop :=
  ∀ i : Instr, i.wf = true → decode (encode i) = some i

/-- A decoded instruction is well-formed and its word is the one it came from: no bit of a legal word is dropped. -/
def Obligations.EncodeOfDecode : Prop :=
  ∀ (w : Word) (i : Instr), decode w = some i → i.wf = true ∧ encode i = w

/-- The illegal words are exactly the complete list of R114. -/
def Obligations.IllegalWordsAreTheList : Prop :=
  ∀ w : Word, decode w = none ↔
    bits w 31 30 = 3
    ∨ (bits w 31 30 = 0 ∧ (bits w 29 26 = 0 ∨ 13 ≤ bits w 29 26))
    ∨ (bits w 31 30 = 0 ∧ bits w 25 25 = 0 ∧ bits w 9 0 ≠ 0)
    ∨ (bits w 31 30 = 0 ∧ bits w 29 26 = 12 ∧ bits w 24 20 ≠ 0)
    ∨ (bits w 31 30 = 1 ∧ (4 ≤ bits w 29 26 ∨ bits w 25 25 = 1))
    ∨ (bits w 31 30 = 2 ∧ 4 ≤ bits w 29 26 ∧ bits w 29 26 ≤ 14)
    ∨ (bits w 31 30 = 2 ∧ bits w 29 26 = 0 ∧ bits w 25 22 = 15)
    ∨ (bits w 31 30 = 2 ∧ bits w 29 26 = 1 ∧ bits w 25 22 ≠ 0)
    ∨ (bits w 31 30 = 2 ∧ bits w 29 26 = 2 ∧ (bits w 25 20 ≠ 0 ∨ bits w 14 0 ≠ 0))
    ∨ (bits w 31 30 = 2 ∧ (bits w 29 26 = 3 ∨ bits w 29 26 = 15) ∧ bits w 25 0 ≠ 0)

/-- The legal words are exactly those that a row of the opcode table matches, the row is the instruction's own, and
no word matches two rows. -/
def Obligations.LegalWordsMatchOneRow : Prop :=
  (∀ (w : Word) (i : Instr), decode w = some i → ∃ r ∈ opcodeRows, r.mnemonic = i.mnemonic ∧ r.matchesWord w = true)
  ∧ (∀ w : Word, (∃ r ∈ opcodeRows, r.matchesWord w = true) → ∃ i, decode w = some i)
  ∧ ∀ (w : Word) (r q : OpRow), r ∈ opcodeRows → q ∈ opcodeRows → r.matchesWord w = true → q.matchesWord w = true →
      r = q

/-- The descriptor's register ids and immediate are the slices of the word that R113 names. -/
def Obligations.DescriptorFieldsAreTheSlices : Prop :=
  ∀ (w : Word) (i : Instr), decode w = some i →
    (i.cls = .a → bits w 31 30 = 0
      ∧ i.rd.map Fin.val = (if bits w 29 26 = 12 then none else some (bits w 24 20))
      ∧ i.srcA.map Fin.val = some (bits w 19 15)
      ∧ i.srcB.map Fin.val = (if bits w 25 25 = 1 then none else some (bits w 14 10))
      ∧ i.immWord = (if bits w 25 25 = 1 then some ((w.extractLsb' 0 15).signExtend 32) else none))
    ∧ (i.cls = .m → bits w 31 30 = 1
      ∧ i.rd.map Fin.val = (if isStore i then none else some (bits w 24 20))
      ∧ i.srcA.map Fin.val = some (bits w 19 15)
      ∧ i.srcB.map Fin.val = (if isStore i then some (bits w 24 20) else none)
      ∧ i.immWord = some ((w.extractLsb' 0 15).signExtend 32))
    ∧ (i.cls = .c → bits w 31 30 = 2
      ∧ i.rd = (if bits w 29 26 = 1 then some 31 else none)
      ∧ i.srcA.map Fin.val = (if bits w 29 26 = 2 then some (bits w 19 15) else none)
      ∧ i.srcB = none
      ∧ i.immWord = (if bits w 29 26 ≤ 1 then some ((w.extractLsb' 0 22 ++ 0#2).signExtend 32) else none))

/-- Worked encodings of the spec, one for each of the six formats, decode to the instructions they stand for. -/
def Obligations.WorkedWordsDecode : Prop :=
  decode 0x04208400 = some (.add 2 1 1) ∧ decode 0x0610000A = some (.addi 1 0 10)
  ∧ decode 0x44328000 = some (.str 3 5 0) ∧ decode 0x40628000 = some (.ldr 6 5 0)
  ∧ decode 0x80BFFFFE = some (.bne (-2)) ∧ decode 0x84000004 = some (.bl 4)
  ∧ decode 0x880F8000 = some (.jr 31) ∧ decode 0x8C000000 = some .nop ∧ decode 0xBC000000 = some .halt
  ∧ decode 0x00000000 = none ∧ decode 0xFFFFFFFF = none

/-! ## The step -/

/-- A running machine whose `pc` is aligned and inside memory and whose four bytes there, little-endian, decode to
`i` does `exec` of `i`; the step adds nothing around it, and `i` is well-formed. -/
def Obligations.StepRunsTheDecodedInstruction : Prop :=
  ∀ (s : State) (i : Instr), s.status = .running → s.pc.toNat % 4 = 0 → s.pc.toNat + 4 ≤ s.cfg.memSize →
    decode (s.mem.read (s.pc.toNat + 3) ++ s.mem.read (s.pc.toNat + 2) ++ s.mem.read (s.pc.toNat + 1)
      ++ s.mem.read s.pc.toNat) = some i →
    step s = exec i s ∧ i.wf = true

/-- A running machine takes the fault of its fetch, alignment before mapping, or of a word that does not decode. -/
def Obligations.FetchAndDecodeFaults : Prop :=
  ∀ s : State, s.status = .running →
    (s.pc.toNat % 4 ≠ 0 → ∃ t, step s = .next t
      ∧ FaultTaken s t { kind := .misalignedAccess, pc := s.pc, word := none, addr := some s.pc })
    ∧ (s.pc.toNat % 4 = 0 → s.cfg.memSize < s.pc.toNat + 4 → ∃ t, step s = .next t
      ∧ FaultTaken s t { kind := .unmappedAddress, pc := s.pc, word := none, addr := some s.pc })
    ∧ (∀ w : Word, s.pc.toNat % 4 = 0 → s.pc.toNat + 4 ≤ s.cfg.memSize → s.mem.readWord s.pc.toNat = w →
      decode w = none → ∃ t, step s = .next t
        ∧ FaultTaken s t { kind := .invalidOpcode, pc := s.pc, word := some w, addr := none })

/-- `Halted` and `Faulted` are terminal: neither a step, a cycle nor a run changes anything. That the ISA-level `step`
then answers the same state as a next state is the model's choice (log entry 4). -/
def Obligations.TerminalStatusIsFinal : Prop :=
  ∀ s : State, s.status ≠ .running → step s = .next s ∧ clock s = s ∧ ∀ k, hostRun k s = (s, s.status)

/-- Every step and every instruction answers a next state, whatever the state and the operands: taking a fault is a
next state too, which is the model's choice of outcome (log entry 3). -/
def Obligations.EveryStepAnswersNext : Prop :=
  ∀ s : State, (∃ t, step s = .next t) ∧ ∀ i : Instr, ∃ t, exec i s = .next t

/-! ## Arithmetic and compare -/

/-- `ADD` and `ADDI` complete in every state: the sum modulo 2^32 and the flags of R131. -/
def Obligations.AddWritesSumAndFlags : Prop :=
  ∀ (rd rs1 rs2 : Reg) (imm : Int) (s : State),
    (∃ t, exec (.add rd rs1 rs2) s = .next t ∧ Added s t rd (s.reg rs1) (s.reg rs2))
    ∧ (∃ t, exec (.addi rd rs1 imm) s = .next t ∧ Added s t rd (s.reg rs1) (BitVec.ofInt 32 imm))

/-- `SUB` and `SUBI` complete in every state: the difference modulo 2^32 and the flags of R132. -/
def Obligations.SubWritesDifferenceAndFlags : Prop :=
  ∀ (rd rs1 rs2 : Reg) (imm : Int) (s : State),
    (∃ t, exec (.sub rd rs1 rs2) s = .next t ∧ Subtracted s t (some rd) (s.reg rs1) (s.reg rs2))
    ∧ (∃ t, exec (.subi rd rs1 imm) s = .next t ∧ Subtracted s t (some rd) (s.reg rs1) (BitVec.ofInt 32 imm))

/-- `MUL` and `MULI` complete in every state: the low half of the product and the flags of R133. -/
def Obligations.MulWritesLowProductAndFlags : Prop :=
  ∀ (rd rs1 rs2 : Reg) (imm : Int) (s : State),
    (∃ t, exec (.mul rd rs1 rs2) s = .next t ∧ Multiplied s t rd (s.reg rs1) (s.reg rs2))
    ∧ (∃ t, exec (.muli rd rs1 imm) s = .next t ∧ Multiplied s t rd (s.reg rs1) (BitVec.ofInt 32 imm))

/-- `AddFlags`, `SubFlags` and `MulFlags` as R131, R132 and R133 define them, N and Z of each as R130 says, the
overflow of the first two by sign bits and by range, that of the product by range, the carry of a subtraction as no borrow and as the carry of the complement's sum. -/
def Obligations.FlagFunctionsFollowTheRules : Prop :=
  ∀ a b : Word,
    ((addFlags a b).1.toNat = (a.toNat + b.toNat) % 2 ^ 32
      ∧ FlagsAre (addFlags a b).2 (addFlags a b).1 (2 ^ 32 ≤ a.toNat + b.toNat)
          (a.getLsbD 31 = b.getLsbD 31 ∧ (addFlags a b).1.getLsbD 31 ≠ a.getLsbD 31)
      ∧ ((addFlags a b).2.v = true ↔ OutOfRange (a.toInt + b.toInt)))
    ∧ (((subFlags a b).1.toNat : Int) = ((a.toNat : Int) - b.toNat) % 2 ^ 32
      ∧ FlagsAre (subFlags a b).2 (subFlags a b).1 (b.toNat ≤ a.toNat)
          (a.getLsbD 31 ≠ b.getLsbD 31 ∧ (subFlags a b).1.getLsbD 31 ≠ a.getLsbD 31)
      ∧ ((subFlags a b).2.c = true ↔ 2 ^ 32 ≤ a.toNat + (~~~b).toNat + 1)
      ∧ ((subFlags a b).2.v = true ↔ OutOfRange (a.toInt - b.toInt)))
    ∧ ((mulFlags a b).1.toNat = a.toNat * b.toNat % 2 ^ 32
      ∧ ((mulFlags a b).1.toNat : Int) = a.toInt * b.toInt % 2 ^ 32
      ∧ FlagsAre (mulFlags a b).2 (mulFlags a b).1 (2 ^ 32 ≤ a.toNat * b.toNat) (OutOfRange (a.toInt * b.toInt)))

/-- `DIV`, `DIVI`, `MOD` and `MODI` complete for every divisor but zero: the quotient rounded toward zero or the
remainder, and the flags of R134, the overflowing quotient -2^31 / -1 included. -/
def Obligations.DivisionRoundsTowardZero : Prop :=
  (∀ (rd rs1 rs2 : Reg) (s : State), s.reg rs2 ≠ 0 →
    (∃ t, exec (.div rd rs1 rs2) s = .next t ∧ Divided s t rd (s.reg rs1) (s.reg rs2))
    ∧ (∃ t, exec (.mod rd rs1 rs2) s = .next t ∧ Reduced s t rd (s.reg rs1) (s.reg rs2)))
  ∧ (∀ (rd rs1 : Reg) (imm : Int) (s : State), imm15Ok imm = true → imm ≠ 0 →
    (∃ t, exec (.divi rd rs1 imm) s = .next t ∧ Divided s t rd (s.reg rs1) (BitVec.ofInt 32 imm))
    ∧ (∃ t, exec (.modi rd rs1 imm) s = .next t ∧ Reduced s t rd (s.reg rs1) (BitVec.ofInt 32 imm)))

/-- A zero divisor raises `ArithmeticFault`, whatever the dividend and the destination, and writes nothing. The
detail's word is the instruction's encoding (log entry 5). -/
def Obligations.ZeroDivisorFaults : Prop :=
  (∀ (rd rs1 rs2 : Reg) (s : State), s.reg rs2 = 0 →
    (∃ t, exec (.div rd rs1 rs2) s = .next t ∧ FaultTaken s t
      { kind := .arithmeticFault, pc := s.pc, word := some (encode (.div rd rs1 rs2)), addr := none })
    ∧ (∃ t, exec (.mod rd rs1 rs2) s = .next t ∧ FaultTaken s t
      { kind := .arithmeticFault, pc := s.pc, word := some (encode (.mod rd rs1 rs2)), addr := none }))
  ∧ (∀ (rd rs1 : Reg) (s : State),
    (∃ t, exec (.divi rd rs1 0) s = .next t ∧ FaultTaken s t
      { kind := .arithmeticFault, pc := s.pc, word := some (encode (.divi rd rs1 0)), addr := none })
    ∧ (∃ t, exec (.modi rd rs1 0) s = .next t ∧ FaultTaken s t
      { kind := .arithmeticFault, pc := s.pc, word := some (encode (.modi rd rs1 0)), addr := none }))

/-- The quotient times the divisor plus the remainder is the dividend, modulo 2^32, for every non-zero divisor. -/
def Obligations.QuotientAndRemainderIdentity : Prop :=
  ∀ (rd rs1 rs2 : Reg) (s : State), rd ≠ 0 → s.reg rs2 ≠ 0 →
    ∃ t u, exec (.div rd rs1 rs2) s = .next t ∧ exec (.mod rd rs1 rs2) s = .next u
      ∧ s.reg rs1 = t.reg rd * s.reg rs2 + u.reg rd

/-- `CMP` and `CMPI` complete in every state: the flags of the subtraction and no register; `SUB` to register 0 has
exactly the effect of `CMP`. -/
def Obligations.CompareWritesOnlyFlags : Prop :=
  ∀ (rs1 rs2 : Reg) (imm : Int) (s : State),
    (∃ t, exec (.cmp rs1 rs2) s = .next t ∧ Subtracted s t none (s.reg rs1) (s.reg rs2))
    ∧ (∃ t, exec (.cmpi rs1 imm) s = .next t ∧ Subtracted s t none (s.reg rs1) (BitVec.ofInt 32 imm))
    ∧ exec (.sub 0 rs1 rs2) s = exec (.cmp rs1 rs2) s

/-- After a compare or a subtraction every condition means what R190 says, also when the subtraction overflows. -/
def Obligations.ConditionsAfterCompareMeanComparisons : Prop :=
  ∀ (c : Cond) (rd rs1 rs2 : Reg) (imm : Int) (s t : State),
    (exec (.cmp rs1 rs2) s = .next t ∨ exec (.sub rd rs1 rs2) s = .next t →
      (condTrue c t.flags = true ↔ Meaning c (s.reg rs1) (s.reg rs2)))
    ∧ (exec (.cmpi rs1 imm) s = .next t ∨ exec (.subi rd rs1 imm) s = .next t →
      (condTrue c t.flags = true ↔ Meaning c (s.reg rs1) (BitVec.ofInt 32 imm)))

/-! ## Logic and shift -/

/-- `AND`, `OR`, `XOR` and their immediate forms complete in every state, bit by bit, and write no flag. -/
def Obligations.LogicWorksBitByBit : Prop :=
  ∀ (rd rs1 rs2 : Reg) (imm : Int) (s : State),
    (∃ t, exec (.and rd rs1 rs2) s = .next t
      ∧ WroteBits s t rd fun k => (s.reg rs1).getLsbD k && (s.reg rs2).getLsbD k)
    ∧ (∃ t, exec (.andi rd rs1 imm) s = .next t
      ∧ WroteBits s t rd fun k => (s.reg rs1).getLsbD k && (BitVec.ofInt 32 imm).getLsbD k)
    ∧ (∃ t, exec (.or rd rs1 rs2) s = .next t
      ∧ WroteBits s t rd fun k => (s.reg rs1).getLsbD k || (s.reg rs2).getLsbD k)
    ∧ (∃ t, exec (.ori rd rs1 imm) s = .next t
      ∧ WroteBits s t rd fun k => (s.reg rs1).getLsbD k || (BitVec.ofInt 32 imm).getLsbD k)
    ∧ (∃ t, exec (.xor rd rs1 rs2) s = .next t
      ∧ WroteBits s t rd fun k => (s.reg rs1).getLsbD k != (s.reg rs2).getLsbD k)
    ∧ (∃ t, exec (.xori rd rs1 imm) s = .next t
      ∧ WroteBits s t rd fun k => (s.reg rs1).getLsbD k != (BitVec.ofInt 32 imm).getLsbD k)

/-- `SHL`, `SHR`, `SAR` and their immediate forms complete in every state: they move the bits by the amount modulo 32,
zeros or copies of bit 31 enter, and no flag is written. -/
def Obligations.ShiftsMoveBitsModulo32 : Prop :=
  ∀ (rd rs1 rs2 : Reg) (imm : Int) (s : State),
    let x := s.reg rs1
    let m := (s.reg rs2).toNat % 32
    let j := (imm % 32).toNat
    (∃ t, exec (.shl rd rs1 rs2) s = .next t ∧ WroteBits s t rd fun k => decide (m ≤ k) && x.getLsbD (k - m))
    ∧ (∃ t, exec (.shli rd rs1 imm) s = .next t ∧ WroteBits s t rd fun k => decide (j ≤ k) && x.getLsbD (k - j))
    ∧ (∃ t, exec (.shr rd rs1 rs2) s = .next t ∧ WroteBits s t rd fun k => x.getLsbD (k + m))
    ∧ (∃ t, exec (.shri rd rs1 imm) s = .next t ∧ WroteBits s t rd fun k => x.getLsbD (k + j))
    ∧ (∃ t, exec (.sar rd rs1 rs2) s = .next t
      ∧ WroteBits s t rd fun k => if k + m < 32 then x.getLsbD (k + m) else x.getLsbD 31)
    ∧ (∃ t, exec (.sari rd rs1 imm) s = .next t
      ∧ WroteBits s t rd fun k => if k + j < 32 then x.getLsbD (k + j) else x.getLsbD 31)

/-! ## Loads and stores -/

/-- The effective address is the base plus the signed offset, wrapped at 32 bits before any check. -/
def Obligations.EffectiveAddressWraps : Prop :=
  ∀ (base : Word) (off : Int), ((effectiveAddress base off).toNat : Int) = ((base.toNat : Int) + off) % 2 ^ 32

/-- `LDR` from an aligned address inside memory and `LDRB` from any address inside memory complete: the little-endian
word, or the byte zero-extended, goes to `rt`; no flag, no byte of memory and no output record changes. -/
def Obligations.LoadsReadMemory : Prop :=
  ∀ (rt rb : Reg) (off : Int) (s : State),
    let ea := effectiveAddress (s.reg rb) off
    (ea.toNat % 4 = 0 → ea.toNat + 4 ≤ s.cfg.memSize → ∃ t, exec (.ldr rt rb off) s = .next t
      ∧ Wrote s t (some rt) (s.mem.read (ea.toNat + 3) ++ s.mem.read (ea.toNat + 2) ++ s.mem.read (ea.toNat + 1)
          ++ s.mem.read ea.toNat)
      ∧ t.flags = s.flags)
    ∧ (ea.toNat + 1 ≤ s.cfg.memSize → ∃ t, exec (.ldrb rt rb off) s = .next t
      ∧ Wrote s t (some rt) (BitVec.ofNat 32 (s.mem.read ea.toNat).toNat)
      ∧ t.flags = s.flags)

/-- `STR` to an aligned address inside memory and `STRB` to any address inside memory complete: the low bytes of `rt`
go to the effective address, every other byte stays, and a store into the output region adds its record. -/
def Obligations.StoresWriteMemory : Prop :=
  ∀ (rt rb : Reg) (off : Int) (s : State), s.mem.wf = true →
    let ea := effectiveAddress (s.reg rb) off
    (ea.toNat % 4 = 0 → ea.toNat + 4 ≤ s.cfg.memSize → ∃ t, exec (.str rt rb off) s = .next t
      ∧ Stored s t ea .word (s.reg rt))
    ∧ (ea.toNat + 1 ≤ s.cfg.memSize → ∃ t, exec (.strb rt rb off) s = .next t
      ∧ Stored s t ea .byte (s.reg rt))

/-- A bad data address is taken as a fault, alignment before mapping, with no part of the access performed. The
detail's word is the instruction's encoding (log entry 5). -/
def Obligations.BadDataAddressFaults : Prop :=
  ∀ (rt rb : Reg) (off : Int) (s : State),
    let ea := effectiveAddress (s.reg rb) off
    (ea.toNat % 4 ≠ 0 →
      (∃ t, exec (.ldr rt rb off) s = .next t ∧ FaultTaken s t
        { kind := .misalignedAccess, pc := s.pc, word := some (encode (.ldr rt rb off)), addr := some ea })
      ∧ (∃ t, exec (.str rt rb off) s = .next t ∧ FaultTaken s t
        { kind := .misalignedAccess, pc := s.pc, word := some (encode (.str rt rb off)), addr := some ea }))
    ∧ (ea.toNat % 4 = 0 → s.cfg.memSize < ea.toNat + 4 →
      (∃ t, exec (.ldr rt rb off) s = .next t ∧ FaultTaken s t
        { kind := .unmappedAddress, pc := s.pc, word := some (encode (.ldr rt rb off)), addr := some ea })
      ∧ (∃ t, exec (.str rt rb off) s = .next t ∧ FaultTaken s t
        { kind := .unmappedAddress, pc := s.pc, word := some (encode (.str rt rb off)), addr := some ea }))
    ∧ (s.cfg.memSize < ea.toNat + 1 →
      (∃ t, exec (.ldrb rt rb off) s = .next t ∧ FaultTaken s t
        { kind := .unmappedAddress, pc := s.pc, word := some (encode (.ldrb rt rb off)), addr := some ea })
      ∧ (∃ t, exec (.strb rt rb off) s = .next t ∧ FaultTaken s t
        { kind := .unmappedAddress, pc := s.pc, word := some (encode (.strb rt rb off)), addr := some ea }))

/-- An access that is both misaligned and outside memory raises `MisalignedAccess`. -/
def Obligations.AlignmentIsCheckedFirst : Prop :=
  ∀ (c : Config) (a : Word), a.toNat % 4 ≠ 0 → c.memSize < a.toNat + 4 →
    accessFault c a .word = some .misalignedAccess

/-- After a word store of `v` at `a`, a byte read at `a + k` gives bits `8k+7 .. 8k` of `v`, and a word read and a
fetch at `a` give `v`: little-endian, for data and for fetch. -/
def Obligations.WordStoreIsLittleEndian : Prop :=
  ∀ (s t : State) (a v : Word), s.mem.wf = true → s.memWrite a .word v = .ok t →
    (∀ k, k < 4 → t.memRead (a + BitVec.ofNat 32 k) .byte = .ok ((v.extractLsb' (8 * k) 8).setWidth 32))
    ∧ t.memRead a .word = .ok v
    ∧ (t.setPc a).fetch = .ok v
    ∧ v = t.mem.read (a.toNat + 3) ++ t.mem.read (a.toNat + 2) ++ t.mem.read (a.toNat + 1) ++ t.mem.read a.toNat

/-! ## Control flow -/

/-- Every `B<cond>` completes in every state: if its condition holds control goes to the address of the branch plus
four times the offset, modulo 2^32, else to the next instruction; nothing else changes. The fifteen instructions are
`B BEQ BNE BLT BGE BGT BLE BLO BHS BHI BLS BMI BPL BVS BVC` (`branchInstr`). -/
def Obligations.BranchesGoWhereTheConditionSays : Prop :=
  ∀ (c : Cond) (off : Int) (s : State), ∃ t, exec (branchInstr c off) s = .next t ∧ Jumped s t t.pc
    ∧ (Taken c s.flags → (t.pc.toNat : Int) = ((s.pc.toNat : Int) + 4 * off) % 2 ^ 32)
    ∧ (¬ Taken c s.flags → t.pc.toNat = (s.pc.toNat + 4) % 2 ^ 32)

/-- `BL` completes in every state: register 31 gets the address of the next instruction and control goes to the
target. `JR` completes in every state: control goes to all 32 bits of its register, even a misaligned one. -/
def Obligations.CallAndRegisterJump : Prop :=
  ∀ (off : Int) (rs : Reg) (s : State),
    (∃ t, exec (.bl off) s = .next t ∧ t.reg 31 = s.pc + 4 ∧ RegsExcept s t 31
      ∧ (t.pc.toNat : Int) = ((s.pc.toNat : Int) + 4 * off) % 2 ^ 32 ∧ t.flags = s.flags ∧ SameMemory s t
      ∧ t.status = s.status ∧ SameHidden s t)
    ∧ (∃ t, exec (.jr rs) s = .next t ∧ Jumped s t (s.reg rs))

/-- `NOP` completes in every state and only moves on; `HALT` completes in every state and only sets the status, `pc`
keeping its address. -/
def Obligations.NopAndHalt : Prop :=
  ∀ s : State,
    (∃ t, exec .nop s = .next t ∧ Jumped s t (s.pc + 4))
    ∧ (∃ t, exec .halt s = .next t ∧ t.status = .halted ∧ t.pc = s.pc ∧ SameRegs s t ∧ t.flags = s.flags
      ∧ SameMemory s t ∧ SameHidden s t)

/-- A `JR` to a misaligned address completes; the step after it takes the fetch fault, with that address as `pc`. -/
def Obligations.JumpToMisalignedFaultsAtTheFetch : Prop :=
  ∀ (rs : Reg) (s : State), s.status = .running → (s.reg rs).toNat % 4 ≠ 0 →
    ∃ t u, exec (.jr rs) s = .next t ∧ t.status = .running ∧ step t = .next u ∧ FaultTaken t u
      { kind := .misalignedAccess, pc := s.reg rs, word := none, addr := some (s.reg rs) }

/-- No instruction but `JR` takes an aligned `pc` to a misaligned one. -/
def Obligations.OnlyJrMisalignsThePc : Prop :=
  ∀ (i : Instr) (s t : State), (∀ rs, i ≠ .jr rs) → s.pc.toNat % 4 = 0 → exec i s = .next t → t.pc.toNat % 4 = 0

/-! ## Whole-machine rules of the ISA level -/

/-- An instruction writes no general register but its destination and, unless it is one of the twelve flag-writing
instructions, no flag; only a store changes memory or the output log; parameters, pipeline and caches stay, the
last two by the model's choice of two levels (log entry 11). -/
def Obligations.OnlyTheListedWrites : Prop :=
  ∀ (i : Instr) (s t : State), exec i s = .next t →
    (∀ q, i.dest ≠ some q → t.reg q = s.reg q)
    ∧ (i.writesFlags = false → t.flags = s.flags)
    ∧ (isStore i = false → SameMemory s t)
    ∧ SameHidden s t
    ∧ (t.status = s.status ∨ (i = .halt ∧ t.status = .halted) ∨ ∃ d, t.status = .faulted d ∧ d.pc = s.pc)

/-- An instruction's effect depends on nothing but its source registers, the memory, the `pc` and, for the fourteen
conditional branches, the flags. -/
def Obligations.OnlyTheListedReads : Prop :=
  ∀ (i : Instr) (s s' t t' : State), s.status = .running → s'.status = .running → s.cfg = s'.cfg → s.pc = s'.pc →
    s.mem = s'.mem → s.out = s'.out → (∀ q, i.srcA = some q ∨ i.srcB = some q → s.reg q = s'.reg q) →
    (i.readsFlags = true → s.flags = s'.flags) → exec i s = .next t → exec i s' = .next t' →
    t.status = t'.status ∧ t.pc = t'.pc ∧ t.mem = t'.mem ∧ t.out = t'.out
    ∧ (t.status = .running → (∀ q, i.dest = some q → t.reg q = t'.reg q)
      ∧ (i.writesFlags = true → t.flags = t'.flags))

/-- The only causes of a fault in execution: a zero divisor, or a data access that fails its checks; the detail names
the instruction, its address and, for an access, the effective address. That the detail's word is the instruction's
encoding is the model's inference (log entry 5). -/
def Obligations.OnlyTheListedFaults : Prop :=
  ∀ (i : Instr) (s t : State) (d : FaultDetail), s.status = .running → exec i s = .next t → t.status = .faulted d →
    FaultTaken s t d ∧ d.pc = s.pc ∧ d.word = some (encode i)
    ∧ ((d.kind = .arithmeticFault ∧ d.addr = none ∧ isDivision i = true
        ∧ ((i.srcB.map s.reg).or i.immWord) = some 0)
      ∨ (∃ (k : MemKind) (n : Width) (a : Reg) (off : Word), memOp i = some (k, n) ∧ i.srcA = some a
        ∧ i.immWord = some off ∧ d.addr = some (s.reg a + off)
        ∧ ((d.kind = .misalignedAccess ∧ n = .word ∧ (s.reg a + off).toNat % 4 ≠ 0)
          ∨ (d.kind = .unmappedAddress ∧ (n = .word → (s.reg a + off).toNat % 4 = 0)
            ∧ s.cfg.memSize < (s.reg a + off).toNat + n.bytes))))

/-- The latches, the control fields and the caches are invisible to a program: a step does the same whatever they
hold, and leaves them alone. R36 says that a program cannot read them; that the ISA-level step neither reads nor
writes them at all is the model's choice (log entry 11). -/
def Obligations.HiddenStateIsInvisible : Prop :=
  ∀ (s t : State) (p : Pipe) (c : Caches), step s = .next t →
    step { s with pipe := p, caches := c } = .next { t with pipe := p, caches := c }

/-- The output log only grows, by at most one record a step and at most one record a cycle. -/
def Obligations.OutputLogOnlyGrows : Prop :=
  ∀ s t : State, step s = .next t →
    (∃ l, l.length ≤ 1 ∧ t.out = s.out ++ l) ∧ (∃ l, l.length ≤ 1 ∧ (clock s).out = s.out ++ l)

/-- The three invariants hold right after reset. -/
def Obligations.ResetStateMeetsTheInvariants : Prop :=
  ArchInv State.reset ∧ CacheInv State.reset ∧ PipeInv State.reset

/-- Every step of the ISA level keeps its invariant: legal parameters, canonical memory within its bounds, register 0
zero, an output log of the output region only, and fault details as the table of faults describes them. -/
def Obligations.StepKeepsTheInvariant : Prop :=
  ∀ s t : State, ArchInv s → step s = .next t → ArchInv t

/-! ## Reset and the host -/

/-- `reset` is accepted exactly if its inputs meet the bounds of R250 and the parameters those of R6. That a key given
twice is refused is the model's reading of 'partial map' (log entry 10). -/
def Obligations.ResetAcceptsExactlyTheBounds : Prop :=
  ∀ (c : Config) (i : ResetInput), (∃ s, reset c i = .ok s) ↔
    c.wf = true ∧ c.progBase + 4 * i.program.length ≤ c.memSize
    ∧ (∀ a v, (a, v) ∈ i.initMem → a < c.memSize) ∧ (i.initMem.map Prod.fst).Nodup
    ∧ (∀ r v, (r, v) ∈ i.initRegs → r < 32) ∧ (i.initRegs.map Prod.fst).Nodup

/-- After `reset` every piece of state has the value the table of R37 gives it. -/
def Obligations.ResetGivesTheTable : Prop :=
  ∀ (c : Config) (i : ResetInput) (s : State), reset c i = .ok s →
    s.reg 0 = 0
    ∧ (∀ (r : Reg) (v : Word), r ≠ 0 → (r.val, v) ∈ i.initRegs → s.reg r = v)
    ∧ (∀ r : Reg, (∀ v, (r.val, v) ∉ i.initRegs) → s.reg r = 0)
    ∧ (∀ f, i.initFlags = some f → s.flags = f)
    ∧ (i.initFlags = none → s.flags = { n := false, z := false, c := false, v := false })
    ∧ (∀ k j w, i.program[k]? = some w → j < 4 →
        s.mem.read (c.progBase + 4 * k + j) = w.extractLsb' (8 * j) 8)
    ∧ (∀ a, a < c.progBase ∨ c.progBase + 4 * i.program.length ≤ a →
        (∀ v, (a, v) ∈ i.initMem → s.mem.read a = v) ∧ ((∀ v, (a, v) ∉ i.initMem) → s.mem.read a = 0))
    ∧ s.out = [] ∧ s.status = .running ∧ s.pipe.fpc = c.entry ∧ LatchesEmpty s ∧ s.pipe.fetchEnable = true
    ∧ s.pipe.memElapsed = 0 ∧ s.pipe.pendingFault = none ∧ s.pipe.cycle = 0
    ∧ (∀ k : Fin l1Lines, s.caches.l1[k] = none)
    ∧ (∀ (k : Fin l2Sets) (w : Fin l2Ways), s.caches.l2[k][w] = none)
    ∧ (∀ k : Fin l2Sets, s.caches.lru[k] = 0)
    ∧ s.pc = c.entry ∧ s.cfg = c

/-- Every accepted `reset` establishes the three invariants. -/
def Obligations.EveryResetMeetsTheInvariants : Prop :=
  ∀ (c : Config) (i : ResetInput) (s : State), reset c i = .ok s → ArchInv s ∧ CacheInv s ∧ PipeInv s

/-- `readRegister` gives the committed registers and, as id 32, the flags in bits 3 to 0; `readMemory` gives the bytes
of memory; other ids and ranges are refused. -/
def Obligations.InspectionReadsCommittedState : Prop :=
  ∀ s : State,
    (∀ r : Reg, readRegister s r.val = .ok (s.reg r))
    ∧ (∃ w, readRegister s 32 = .ok w ∧ w.getLsbD 3 = s.flags.n ∧ w.getLsbD 2 = s.flags.z ∧ w.getLsbD 1 = s.flags.c
      ∧ w.getLsbD 0 = s.flags.v ∧ w.toNat < 16)
    ∧ (∀ id, 32 < id → readRegister s id = .error .badRegisterId)
    ∧ (∀ a n, a + n ≤ s.cfg.memSize → ∃ l, readMemory s a n = .ok l ∧ l.length = n
      ∧ ∀ k, k < n → l[k]? = some (s.mem.read (a + k)))
    ∧ (∀ a n, s.cfg.memSize < a + n → readMemory s a n = .error .badMemoryRange)

/-- `run` is cycles until the budget or the end, can be continued by further calls, and a cycle of a running machine
adds 1 to `cycle`. -/
def Obligations.RunIsRepeatedCycles : Prop :=
  ∀ (m n : Nat) (s : State),
    hostRun m s = (clockN m s, (clockN m s).status) ∧ hostRun (m + n) s = hostRun n (hostRun m s).1
    ∧ (s.status = .running → (clock s).pipe.cycle = s.pipe.cycle + 1)

/-! ## Caches -/

/-- Under the coherence invariant a load through the caches gives what memory holds, and loads and stores keep the
invariant. -/
def Obligations.CachedAccessesAreCoherent : Prop :=
  ∀ (s : State) (a : Word) (n : Width) (v : Word), CacheInv s → accessFault s.cfg a n = none →
    (s.dataLoad a n).1 = s.mem.readWidth a.toNat n ∧ CacheInv (s.dataLoad a n).2 ∧ CacheInv (s.dataStore a n v)

/-- A load outside the output region leaves its block in L1: the next load of the address hits at L1 latency, gives
the same value and changes nothing. -/
def Obligations.LoadedBlockThenHits : Prop :=
  ∀ (s : State) (a : Word) (n : Width), s.cfg.inOut a = false →
    (s.dataLoad a n).2.caches.l1Hit a = true
    ∧ (s.dataLoad a n).2.loadLatency a = s.cfg.l1Lat
    ∧ (s.dataLoad a n).2.dataLoad a n = s.dataLoad a n

/-- A store makes no line valid or invalid and changes no tag, in L1 and in L2. -/
def Obligations.StoresNeverAllocate : Prop :=
  ∀ (s : State) (a : Word) (n : Width) (v : Word),
    (∀ k : Fin l1Lines, (s.dataStore a n v).caches.l1[k].map Line.tag = s.caches.l1[k].map Line.tag)
    ∧ (∀ (k : Fin l2Sets) (w : Fin l2Ways),
        (s.dataStore a n v).caches.l2[k][w].map Line.tag = s.caches.l2[k][w].map Line.tag)

/-- A load that misses in L1 uses the way that holds its block, or else the victim way of R67, and leaves the other
way of the set as the least recently used; every other set stays. -/
def Obligations.ReplacementFollowsLru : Prop :=
  ∀ (s : State) (a : Word) (n : Width), s.cfg.inOut a = false → s.caches.l1Hit a = false →
    ∃ w : Fin l2Ways,
      (∀ u, s.caches.l2Way a = some u → w = u)
      ∧ (s.caches.l2Way a = none → s.caches.l2[l2Index a][(0 : Fin l2Ways)] = none → w = 0)
      ∧ (s.caches.l2Way a = none → s.caches.l2[l2Index a][(0 : Fin l2Ways)] ≠ none →
          s.caches.l2[l2Index a][(1 : Fin l2Ways)] = none → w = 1)
      ∧ (s.caches.l2Way a = none → s.caches.l2[l2Index a][(0 : Fin l2Ways)] ≠ none →
          s.caches.l2[l2Index a][(1 : Fin l2Ways)] ≠ none → w = s.caches.lru[l2Index a])
      ∧ ((s.dataLoad a n).2.caches.l2Line a w).isSome = true
      ∧ (s.dataLoad a n).2.caches.lru[l2Index a] = 1 - w
      ∧ ∀ k : Fin l2Sets, k ≠ l2Index a →
          (s.dataLoad a n).2.caches.l2[k] = s.caches.l2[k] ∧ (s.dataLoad a n).2.caches.lru[k] = s.caches.lru[k]

/-- The output region is never cached: a load gives the bytes of memory and changes nothing, a store writes memory,
adds one record and changes no cache line. -/
def Obligations.OutputRegionIsUncached : Prop :=
  ∀ (s : State) (a : Word) (n : Width) (v : Word), s.cfg.mmioBase ≤ a.toNat →
    a.toNat < s.cfg.mmioBase + s.cfg.mmioSize →
    s.dataLoad a n = (s.mem.readWidth a.toNat n, s)
    ∧ (s.dataStore a n v).caches = s.caches
    ∧ (s.dataStore a n v).mem = s.mem.writeWidth a.toNat n v
    ∧ (s.dataStore a n v).out = s.out ++ [outRecord a n v]

/-- Every cycle keeps the coherence of the caches with memory. -/
def Obligations.ClockKeepsCacheCoherence : Prop :=
  ∀ s : State, CacheInv s → CacheInv (clock s)

/-! ## The pipeline -/

/-- Every cycle keeps the pipeline's invariants of R270 and what the latches tell about each other. -/
def Obligations.ClockKeepsThePipelineInvariant : Prop :=
  ∀ s : State, PipeInv s → PipeInv (clock s)

/-- Every cycle keeps the invariant of the ISA-level state. -/
def Obligations.ClockKeepsTheInvariant : Prop :=
  ∀ s : State, ArchInv s → PipeInv s → ArchInv (clock s)

/-- An access of latency `lat` keeps its instruction in the Memory stage for `lat - 1` wait cycles, in which nothing
but `memElapsed` and `cycle` changes, and one advance cycle. -/
def Obligations.AccessWaitsItsLatency : Prop :=
  ∀ (s : State) (x : XM) (k : MemKind) (n : Width), s.status = .running → s.pipe.xm = some x →
    memOp x.d = some (k, n) → accessFault s.cfg x.result n = none → s.pipe.memElapsed = 0 →
    ∀ j, j < s.latency x.result k →
      clockN j s = { s with pipe := { s.pipe with memElapsed := j, cycle := s.pipe.cycle + j } }
      ∧ ((clockN j s).waits = true ↔ j + 1 < s.latency x.result k)

/-- General registers and flags change only in WriteBack: in an advance cycle by what `MW` holds, in a wait cycle not
at all. -/
def Obligations.RegistersChangeOnlyInWriteBack : Prop :=
  ∀ s : State, s.status = .running →
    (s.waits = true → SameRegs s (clock s) ∧ (clock s).flags = s.flags)
    ∧ (s.waits = false →
      (∀ r : Reg, (∀ m, s.pipe.mw = some m → m.dest ≠ some r) → (clock s).reg r = s.reg r)
      ∧ (∀ (r : Reg) (m : MW), r ≠ 0 → s.pipe.mw = some m → m.dest = some r → (clock s).reg r = m.value)
      ∧ (∀ (m : MW) (f : Flags), s.pipe.mw = some m → m.flags = some f → (clock s).flags = f)
      ∧ ((∀ m, s.pipe.mw = some m → m.flags = none) → (clock s).flags = s.flags))

/-- A control transfer taken in Execute turns the two younger entries into bubbles and sets the fetch address, and
raises nothing for what it squashed. -/
def Obligations.TakenTransferFlushes : Prop :=
  ∀ (s : State) (y : DX) (target : Word), s.status = .running → s.waits = false → MemoryStageClean s →
    s.pipe.dx = some y →
    redirect y.d y.pc (s.pipe.fwd y.d.srcA y.va) (s.pipe.fwdFlags s.flags) = some target →
    (clock s).pipe.fpc = target ∧ (clock s).pipe.fd = none ∧ (clock s).pipe.dx = none
    ∧ (∃ x, (clock s).pipe.xm = some x ∧ x.d = y.d ∧ x.pc = y.pc)
    ∧ (clock s).pipe.pendingFault = s.pipe.pendingFault

/-- An instruction that reads the destination of the load just before it stays in Decode for one cycle: a bubble goes
to Execute, the fetch latch is held and nothing is fetched. -/
def Obligations.LoadUseStalls : Prop :=
  ∀ (s : State) (y : DX) (f : FD) (d : Instr) (r : Reg), s.status = .running → s.waits = false →
    MemoryStageClean s → s.pipe.dx = some y → isLoad y.d = true → y.d.dest = some r → s.pipe.fd = some f →
    f.ffault = none → decode f.word = some d → d.srcA = some r ∨ d.srcB = some r →
    (clock s).pipe.dx = none ∧ (clock s).pipe.fd = some f ∧ (clock s).pipe.fpc = s.pipe.fpc
    ∧ ∃ x, (clock s).pipe.xm = some x ∧ x.d = y.d

/-- A `HALT` in WriteBack sets the status, and every latch is then a bubble. -/
def Obligations.HaltInWriteBackEndsTheRun : Prop :=
  ∀ (s : State) (m : MW), PipeInv s → s.status = .running → s.pipe.mw = some m → m.d = .halt →
    (clock s).status = .halted ∧ LatchesEmpty (clock s)

/-- A fault found in the Memory stage is reported in the cycle it is found, whatever younger fault was pending; the
instruction before it commits, no access is performed, and every latch is then a bubble. -/
def Obligations.MemoryFaultIsReportedAtOnce : Prop :=
  ∀ (s : State) (x : XM) (k : MemKind) (n : Width) (f : Fault), PipeInv s → s.status = .running →
    s.pipe.xm = some x → memOp x.d = some (k, n) → accessFault s.cfg x.result n = some f →
    (clock s).status = .faulted { kind := f, pc := x.pc, word := some x.word, addr := some x.result }
    ∧ LatchesEmpty (clock s) ∧ (clock s).mem = s.mem ∧ (clock s).out = s.out ∧ (clock s).caches = s.caches
    ∧ ∀ (r : Reg) (m : MW), r ≠ 0 → s.pipe.mw = some m → m.dest = some r → (clock s).reg r = m.value

/-- From the same reset inputs the pipeline and the ISA-level machine end alike: one reaches a terminal status exactly
if the other does, and then status, registers, flags, memory and output log are the same. The premise rules out the
window of R272, a store into the next two instructions executed. -/
def Obligations.PipelineEndsLikeTheSequentialMachine : Prop :=
  ∀ (c : Config) (i : ResetInput) (s : State), reset c i = .ok s → NoStoreIntoNextCode s →
    ((∃ n, (clockN n s).status ≠ .running) ↔ ∃ k, (stepN k s).status ≠ .running)
    ∧ ∀ n k, (clockN n s).status ≠ .running → (stepN k s).status ≠ .running → SameEnd (clockN n s) (stepN k s)
end

