-- ==== Sys2Proof/Laws/Decode.lean ====
section
/-!
SUPPORT. The fields of an encoded word, format by format (30_encoding.md R102 to R107): what each slice and register
id of an encoder's word is. Proofs about the decoder cite these and never unfold an encoder.
-/
namespace Sys2Proof

/-! ## Slices of a number written as a word -/

theorem bits_ofNat {n : Nat} (h : n < 2 ^ 32) (hi lo : Nat) :
    bits (BitVec.ofNat 32 n) hi lo = n / 2 ^ lo % 2 ^ (hi + 1 - lo) := by
  simp only [bits, BitVec.toNat_ofNat, Nat.mod_eq_of_lt h]

theorem regField_ofNat {n : Nat} (h : n < 2 ^ 32) (lo : Nat) :
    regField (BitVec.ofNat 32 n) lo = Fin.ofNat 32 (n / 2 ^ lo) := by
  simp only [regField, BitVec.toNat_ofNat, Nat.mod_eq_of_lt h]

theorem unsignedField_lt (n : Nat) (i : Int) : unsignedField n i < 2 ^ n := by
  have hp : (0 : Int) < (2 ^ n : Nat) := by exact_mod_cast Nat.two_pow_pos n
  have h1 := Int.emod_lt_of_pos i hp
  have h2 := Int.emod_nonneg i (by omega : ((2 ^ n : Nat) : Int) ≠ 0)
  unfold unsignedField
  omega

/-- The 15-bit field read back is the immediate it was made from, if the immediate is in range. -/
theorem signedField_unsignedField15 {w : Word} {i : Int} (hw : w.toNat % 2 ^ 15 = unsignedField 15 i)
    (h : imm15Ok i = true) : signedField w 15 = i := by
  simp only [imm15Ok, Bool.and_eq_true, decide_eq_true_eq] at h
  unfold signedField
  rw [hw]
  unfold unsignedField
  norm_num
  split <;> omega

/-- The 22-bit field read back is the offset it was made from, if the offset is in range. -/
theorem signedField_unsignedField22 {w : Word} {i : Int} (hw : w.toNat % 2 ^ 22 = unsignedField 22 i)
    (h : off22Ok i = true) : signedField w 22 = i := by
  simp only [off22Ok, Bool.and_eq_true, decide_eq_true_eq] at h
  unfold signedField
  rw [hw]
  unfold unsignedField
  norm_num
  split <;> omega

/-- A register id is read back from its place in a word. -/
theorem fin32_ofNat_eq {n : Nat} {r : Reg} (h : n % 32 = r.val) : Fin.ofNat 32 n = r := Fin.ext h

/-! ## The R-form -/

section
variable {op4 : Nat} (h : op4 < 16) (rd rs1 rs2 : Reg)
include h

theorem encodeR_toNat : (encodeR op4 rd rs1 rs2).toNat
    = op4 * 2 ^ 26 + rd.val * 2 ^ 20 + rs1.val * 2 ^ 15 + rs2.val * 2 ^ 10 := by
  have := rd.isLt; have := rs1.isLt; have := rs2.isLt
  simp only [encodeR, BitVec.toNat_ofNat]
  omega

theorem encodeR_class : bits (encodeR op4 rd rs1 rs2) 31 30 = 0 := by
  have := rd.isLt; have := rs1.isLt; have := rs2.isLt
  simp only [bits, encodeR_toNat h]; norm_num; omega

theorem encodeR_op4 : bits (encodeR op4 rd rs1 rs2) 29 26 = op4 := by
  have := rd.isLt; have := rs1.isLt; have := rs2.isLt
  simp only [bits, encodeR_toNat h]; norm_num; omega

theorem encodeR_bit25 : bits (encodeR op4 rd rs1 rs2) 25 25 = 0 := by
  have := rd.isLt; have := rs1.isLt; have := rs2.isLt
  simp only [bits, encodeR_toNat h]; norm_num; omega

theorem encodeR_low : bits (encodeR op4 rd rs1 rs2) 9 0 = 0 := by
  have := rd.isLt; have := rs1.isLt; have := rs2.isLt
  simp only [bits, encodeR_toNat h]; norm_num; omega

theorem encodeR_rdBits : bits (encodeR op4 rd rs1 rs2) 24 20 = rd.val := by
  have := rd.isLt; have := rs1.isLt; have := rs2.isLt
  simp only [bits, encodeR_toNat h]; norm_num; omega

theorem encodeR_rd : regField (encodeR op4 rd rs1 rs2) 20 = rd := by
  have := rd.isLt; have := rs1.isLt; have := rs2.isLt
  simp only [regField, encodeR_toNat h]; exact fin32_ofNat_eq (by norm_num; omega)

theorem encodeR_rs1 : regField (encodeR op4 rd rs1 rs2) 15 = rs1 := by
  have := rd.isLt; have := rs1.isLt; have := rs2.isLt
  simp only [regField, encodeR_toNat h]; exact fin32_ofNat_eq (by norm_num; omega)

theorem encodeR_rs2 : regField (encodeR op4 rd rs1 rs2) 10 = rs2 := by
  have := rd.isLt; have := rs1.isLt; have := rs2.isLt
  simp only [regField, encodeR_toNat h]; exact fin32_ofNat_eq (by norm_num; omega)

end

/-! ## The I-form and the M-form -/

section
variable {op4 : Nat} (h : op4 < 16) (rd rs1 : Reg) (imm : Int)
include h

theorem encodeI_toNat : (encodeI op4 rd rs1 imm).toNat
    = op4 * 2 ^ 26 + 2 ^ 25 + rd.val * 2 ^ 20 + rs1.val * 2 ^ 15 + unsignedField 15 imm := by
  have := rd.isLt; have := rs1.isLt; have := unsignedField_lt 15 imm
  simp only [encodeI, BitVec.toNat_ofNat]
  omega

theorem encodeI_class : bits (encodeI op4 rd rs1 imm) 31 30 = 0 := by
  have := rd.isLt; have := rs1.isLt; have := unsignedField_lt 15 imm
  simp only [bits, encodeI_toNat h]; norm_num; omega

theorem encodeI_op4 : bits (encodeI op4 rd rs1 imm) 29 26 = op4 := by
  have := rd.isLt; have := rs1.isLt; have := unsignedField_lt 15 imm
  simp only [bits, encodeI_toNat h]; norm_num; omega

theorem encodeI_bit25 : bits (encodeI op4 rd rs1 imm) 25 25 = 1 := by
  have := rd.isLt; have := rs1.isLt; have := unsignedField_lt 15 imm
  simp only [bits, encodeI_toNat h]; norm_num; omega

theorem encodeI_rdBits : bits (encodeI op4 rd rs1 imm) 24 20 = rd.val := by
  have := rd.isLt; have := rs1.isLt; have := unsignedField_lt 15 imm
  simp only [bits, encodeI_toNat h]; norm_num; omega

theorem encodeI_rd : regField (encodeI op4 rd rs1 imm) 20 = rd := by
  have := rd.isLt; have := rs1.isLt; have := unsignedField_lt 15 imm
  simp only [regField, encodeI_toNat h]; exact fin32_ofNat_eq (by norm_num; omega)

theorem encodeI_rs1 : regField (encodeI op4 rd rs1 imm) 15 = rs1 := by
  have := rd.isLt; have := rs1.isLt; have := unsignedField_lt 15 imm
  simp only [regField, encodeI_toNat h]; exact fin32_ofNat_eq (by norm_num; omega)

theorem encodeI_imm : (encodeI op4 rd rs1 imm).toNat % 2 ^ 15 = unsignedField 15 imm := by
  have := rd.isLt; have := rs1.isLt; have := unsignedField_lt 15 imm
  rw [encodeI_toNat h]; omega

theorem encodeM_toNat : (encodeM op4 rd rs1 imm).toNat
    = 2 ^ 30 + op4 * 2 ^ 26 + rd.val * 2 ^ 20 + rs1.val * 2 ^ 15 + unsignedField 15 imm := by
  have := rd.isLt; have := rs1.isLt; have := unsignedField_lt 15 imm
  simp only [encodeM, BitVec.toNat_ofNat]
  omega

theorem encodeM_class : bits (encodeM op4 rd rs1 imm) 31 30 = 1 := by
  have := rd.isLt; have := rs1.isLt; have := unsignedField_lt 15 imm
  simp only [bits, encodeM_toNat h]; norm_num; omega

theorem encodeM_op4 : bits (encodeM op4 rd rs1 imm) 29 26 = op4 := by
  have := rd.isLt; have := rs1.isLt; have := unsignedField_lt 15 imm
  simp only [bits, encodeM_toNat h]; norm_num; omega

theorem encodeM_bit25 : bits (encodeM op4 rd rs1 imm) 25 25 = 0 := by
  have := rd.isLt; have := rs1.isLt; have := unsignedField_lt 15 imm
  simp only [bits, encodeM_toNat h]; norm_num; omega

theorem encodeM_rt : regField (encodeM op4 rd rs1 imm) 20 = rd := by
  have := rd.isLt; have := rs1.isLt; have := unsignedField_lt 15 imm
  simp only [regField, encodeM_toNat h]; exact fin32_ofNat_eq (by norm_num; omega)

theorem encodeM_rb : regField (encodeM op4 rd rs1 imm) 15 = rs1 := by
  have := rd.isLt; have := rs1.isLt; have := unsignedField_lt 15 imm
  simp only [regField, encodeM_toNat h]; exact fin32_ofNat_eq (by norm_num; omega)

theorem encodeM_off : (encodeM op4 rd rs1 imm).toNat % 2 ^ 15 = unsignedField 15 imm := by
  have := rd.isLt; have := rs1.isLt; have := unsignedField_lt 15 imm
  rw [encodeM_toNat h]; omega

end

/-! ## The B-form -/

section
variable {op4 cond : Nat} (h : op4 < 16) (hc : cond < 16) (off : Int)
include h hc

theorem encodeB_toNat : (encodeB op4 cond off).toNat
    = 2 ^ 31 + op4 * 2 ^ 26 + cond * 2 ^ 22 + unsignedField 22 off := by
  have := unsignedField_lt 22 off
  simp only [encodeB, BitVec.toNat_ofNat]
  omega

theorem encodeB_class : bits (encodeB op4 cond off) 31 30 = 2 := by
  have := unsignedField_lt 22 off
  simp only [bits, encodeB_toNat h hc]; norm_num; omega

theorem encodeB_op4 : bits (encodeB op4 cond off) 29 26 = op4 := by
  have := unsignedField_lt 22 off
  simp only [bits, encodeB_toNat h hc]; norm_num; omega

theorem encodeB_cond : bits (encodeB op4 cond off) 25 22 = cond := by
  have := unsignedField_lt 22 off
  simp only [bits, encodeB_toNat h hc]; norm_num; omega

theorem encodeB_off : (encodeB op4 cond off).toNat % 2 ^ 22 = unsignedField 22 off := by
  have := unsignedField_lt 22 off
  rw [encodeB_toNat h hc]; omega

end

/-! ## The J-form and the Z-form -/

theorem encodeJ_toNat (rs : Reg) : (encodeJ rs).toNat = 2 ^ 31 + 2 * 2 ^ 26 + rs.val * 2 ^ 15 := by
  have := rs.isLt
  simp only [encodeJ, BitVec.toNat_ofNat]
  omega

theorem encodeJ_rs (rs : Reg) : regField (encodeJ rs) 15 = rs := by
  have := rs.isLt
  simp only [regField, encodeJ_toNat]; exact fin32_ofNat_eq (by norm_num; omega)

theorem encodeJ_fields (rs : Reg) : bits (encodeJ rs) 31 30 = 2 ∧ bits (encodeJ rs) 29 26 = 2
    ∧ bits (encodeJ rs) 25 20 = 0 ∧ bits (encodeJ rs) 14 0 = 0 := by
  have := rs.isLt
  simp only [bits, encodeJ_toNat]; norm_num; omega

theorem encodeZ_fields {op4 : Nat} (h : op4 < 16) : bits (encodeZ op4) 31 30 = 2 ∧ bits (encodeZ op4) 29 26 = op4
    ∧ bits (encodeZ op4) 25 0 = 0 := by
  simp only [bits, encodeZ, BitVec.toNat_ofNat]; norm_num; omega

/-! ## Bytes -/

/-- The word of its own four bytes, least significant first. -/
theorem wordOfBytes_bytes (v : Word) :
    wordOfBytes (byteOfWord v 0) (byteOfWord v 1) (byteOfWord v 2) (byteOfWord v 3) = v := by
  apply BitVec.eq_of_getLsbD_eq
  intro i hi
  simp only [wordOfBytes, byteOfWord, BitVec.getLsbD_append, BitVec.getLsbD_setWidth, BitVec.getLsbD_ushiftRight]
  have e1 : 8 ≤ i → 8 + (i - 8) = i := by omega
  have e2 : 16 ≤ i → 16 + (i - 8 - 8) = i := by omega
  have e3 : 24 ≤ i → 24 + (i - 8 - 8 - 8) = i := by omega
  split
  · simp [*]
  · split
    · rename_i h1 h2; simp [h2, e1 (by omega)]
    · split
      · rename_i h1 h2 h3; simp [h3, e2 (by omega)]
      · rename_i h1 h2 h3
        have h4 : i - 8 - 8 - 8 < 8 := by omega
        simp [h4, e3 (by omega)]

end Sys2Proof
end

