-- ==== Sys2Proof/Laws/Memory.lean ====
section
/-!
SUPPORT. The laws of memory: reading after writing, and that every memory operation keeps the canonical form.
-/
namespace Sys2Proof.Machine

/-! ## The canonical form -/

/-- Every cell's address is at least `lo`. -/
def cellsFrom (lo : Nat) (l : List Host.Cell) : Prop := ∀ c ∈ l, lo ≤ c.1

theorem cellsWf_tail {c : Host.Cell} {l : List Host.Cell} (h : cellsWf (c :: l) = true) : cellsWf l = true := by
  obtain ⟨a, v⟩ := c
  cases l with
  | nil => rfl
  | cons d l => obtain ⟨b, w⟩ := d; simp [cellsWf] at h; exact h.2

theorem cellsWf_head_ne {a : Nat} {v : Byte} {l : List Host.Cell} (h : cellsWf ((a, v) :: l) = true) : v ≠ 0 := by
  cases l with
  | nil => simpa [cellsWf] using h
  | cons d l => obtain ⟨b, w⟩ := d; simp [cellsWf] at h; exact h.1.1

theorem cellsWf_from {a : Nat} {v : Byte} {l : List Host.Cell} (h : cellsWf ((a, v) :: l) = true) :
    cellsFrom (a + 1) l := by
  induction l generalizing a v with
  | nil => intro c hc; simp at hc
  | cons d l ih =>
    obtain ⟨b, w⟩ := d
    have h' := h
    simp [cellsWf] at h'
    intro c hc
    rcases List.mem_cons.1 hc with rfl | hc
    · exact h'.1.2
    · have := ih (cellsWf_tail h) c hc
      omega

theorem cellsWf_cons {a : Nat} {v : Byte} {l : List Host.Cell} (hv : v ≠ 0) (hl : cellsWf l = true)
    (hfrom : cellsFrom (a + 1) l) : cellsWf ((a, v) :: l) = true := by
  cases l with
  | nil => simpa [cellsWf] using hv
  | cons d l =>
    obtain ⟨b, w⟩ := d
    have : a + 1 ≤ b := hfrom (b, w) (by simp)
    simp only [cellsWf, Bool.and_eq_true, bne_iff_ne, ne_eq, decide_eq_true_eq]
    exact ⟨⟨hv, by omega⟩, hl⟩

theorem readCells_eq_zero {l : List Host.Cell} {lo a : Nat} (h : cellsFrom lo l) (ha : a < lo) : readCells l a = 0 := by
  induction l with
  | nil => rfl
  | cons d l ih =>
    obtain ⟨b, w⟩ := d
    have hb : lo ≤ b := h (b, w) (by simp)
    have hne : a ≠ b := by omega
    simp [readCells, hne, ih fun c hc => h c (List.mem_cons_of_mem _ hc)]

theorem writeCells_from {l : List Host.Cell} {lo a : Nat} {v : Byte} (h : cellsFrom lo l) (ha : lo ≤ a) :
    cellsFrom lo (writeCells l a v) := by
  induction l with
  | nil => unfold writeCells; split <;> intro c hc <;> simp_all
  | cons d l ih =>
    obtain ⟨b, w⟩ := d
    have hl : cellsFrom lo l := fun c hc => h c (List.mem_cons_of_mem _ hc)
    have hb : lo ≤ b := h (b, w) (by simp)
    unfold writeCells
    intro c hc
    split at hc
    · split at hc
      · exact h c hc
      · rcases List.mem_cons.1 hc with rfl | hc
        · exact ha
        · exact h c hc
    · split at hc
      · split at hc
        · exact hl c hc
        · rcases List.mem_cons.1 hc with rfl | hc
          · exact ha
          · exact hl c hc
      · rcases List.mem_cons.1 hc with rfl | hc
        · exact hb
        · exact ih hl c hc

theorem writeCells_wf {l : List Host.Cell} {a : Nat} {v : Byte} (h : cellsWf l = true) :
    cellsWf (writeCells l a v) = true := by
  induction l with
  | nil => unfold writeCells; split <;> simp_all [cellsWf]
  | cons d l ih =>
    obtain ⟨b, w⟩ := d
    have hl := cellsWf_tail h
    have hw := cellsWf_head_ne h
    have hfrom := cellsWf_from h
    unfold writeCells
    split
    · split
      · exact h
      · refine cellsWf_cons ‹_› h ?_
        intro c hc
        rcases List.mem_cons.1 hc with rfl | hc
        · show a + 1 ≤ b; omega
        · have := hfrom c hc; omega
    · split
      · subst_vars
        split
        · exact hl
        · exact cellsWf_cons ‹_› hl hfrom
      · exact cellsWf_cons hw (ih hl) (writeCells_from hfrom (by omega))

theorem readCells_writeCells_same {l : List Host.Cell} (a : Nat) (v : Byte) (h : cellsWf l = true) :
    readCells (writeCells l a v) a = v := by
  induction l with
  | nil => unfold writeCells; split <;> simp_all [readCells]
  | cons d l ih =>
    obtain ⟨b, w⟩ := d
    have hfrom := cellsWf_from h
    unfold writeCells
    split
    · split
      · rename_i hlt hv
        rw [hv]
        refine readCells_eq_zero (lo := b) ?_ hlt
        intro c hc
        rcases List.mem_cons.1 hc with rfl | hc
        · exact Nat.le_refl _
        · have := hfrom c hc; omega
      · simp [readCells]
    · split
      · subst_vars
        split
        · rename_i hv; rw [hv]; exact readCells_eq_zero hfrom (by omega)
        · simp [readCells]
      · rename_i hne; simp [readCells, hne, ih (cellsWf_tail h)]

theorem readCells_writeCells_other {l : List Host.Cell} {a b : Nat} (v : Byte) (h : b ≠ a) :
    readCells (writeCells l a v) b = readCells l b := by
  induction l with
  | nil => unfold writeCells; split <;> simp [readCells, h]
  | cons d l ih =>
    obtain ⟨c, w⟩ := d
    unfold writeCells
    split
    · split <;> simp [readCells, h]
    · split
      · subst_vars; split <;> simp [readCells, h]
      · simp [readCells, ih]

/-! ## The laws of `Memory` -/

/-- A write keeps the canonical form. -/
theorem Memory.write_wf {m : Memory} {a : Nat} {v : Byte} (h : m.wf = true) : (m.write a v).wf = true :=
  writeCells_wf h

/-- Reading the byte just written gives it. -/
theorem Memory.read_write_same {m : Memory} (a : Nat) (v : Byte) (h : m.wf = true) : (m.write a v).read a = v :=
  readCells_writeCells_same a v h

/-- A write leaves every other byte alone. -/
theorem Memory.read_write_other (m : Memory) {a b : Nat} (v : Byte) (h : b ≠ a) :
    (m.write a v).read b = m.read b :=
  readCells_writeCells_other v h

theorem Memory.writeWord_wf {m : Memory} {a : Nat} {v : Word} (h : m.wf = true) : (m.writeWord a v).wf = true :=
  write_wf (write_wf (write_wf (write_wf h)))

/-- A store of either width keeps the canonical form. -/
theorem Memory.writeWidth_wf {m : Memory} {a : Nat} {n : Width} {v : Word} (h : m.wf = true) :
    (m.writeWidth a n v).wf = true := by
  cases n
  · exact write_wf h
  · exact writeWord_wf h

/-- Byte `k` of a word just written is byte `k` of its value (20_memory.md R52). -/
theorem Memory.read_writeWord_same {m : Memory} (a k : Nat) (v : Word) (h : m.wf = true) (hk : k < 4) :
    (m.writeWord a v).read (a + k) = byteOfWord v k := by
  have h0 := write_wf (a := a) (v := byteOfWord v 0) h
  have h1 := write_wf (a := a + 1) (v := byteOfWord v 1) h0
  have h2 := write_wf (a := a + 2) (v := byteOfWord v 2) h1
  unfold Memory.writeWord
  match k, hk with
  | 0, _ =>
    rw [read_write_other _ _ (by omega), read_write_other _ _ (by omega), read_write_other _ _ (by omega)]
    exact read_write_same a _ h
  | 1, _ =>
    rw [read_write_other _ _ (by omega), read_write_other _ _ (by omega)]
    exact read_write_same (a + 1) _ h0
  | 2, _ => rw [read_write_other _ _ (by omega)]; exact read_write_same (a + 2) _ h1
  | 3, _ => exact read_write_same (a + 3) _ h2

/-- A store changes only the bytes it stores to. -/
theorem Memory.read_writeWidth_other (m : Memory) (a b : Nat) (n : Width) (v : Word)
    (h : b < a ∨ a + n.bytes ≤ b) : (m.writeWidth a n v).read b = m.read b := by
  cases n <;> simp only [Width.bytes] at h
  · exact read_write_other _ _ (by omega)
  · simp only [Memory.writeWidth, Memory.writeWord]
    rw [read_write_other _ _ (by omega), read_write_other _ _ (by omega), read_write_other _ _ (by omega),
      read_write_other _ _ (by omega)]

/-- Byte `k` of what a store wrote (20_memory.md R57). -/
theorem Memory.read_writeWidth_same {m : Memory} (a k : Nat) (n : Width) (v : Word) (h : m.wf = true)
    (hk : k < n.bytes) : (m.writeWidth a n v).read (a + k) = byteOfWord v k := by
  cases n <;> simp only [Width.bytes] at hk
  · obtain rfl : k = 0 := by omega
    exact read_write_same a _ h
  · exact read_writeWord_same a k v h hk

/-- The memory of the reset state is in canonical form. -/
theorem State.reset_mem_wf : State.reset.mem.wf = true := rfl

end Sys2Proof.Machine
end

