-- ==== Sys2Proof/Laws/State.lean ====
section
/-!
SUPPORT. The small lemmas of the state's updates: for each named update one lemma per field, and what reading a
register gives after it. Later proofs never unfold a record update.
-/
namespace Sys2Proof.Machine

/-! ## Writing a register -/

@[simp] theorem State.setReg_cfg (s : State) (r : Reg) (v : Word) : (s.setReg r v).cfg = s.cfg := by
  unfold State.setReg; split <;> rfl

@[simp] theorem State.setReg_flags (s : State) (r : Reg) (v : Word) : (s.setReg r v).flags = s.flags := by
  unfold State.setReg; split <;> rfl

@[simp] theorem State.setReg_pc (s : State) (r : Reg) (v : Word) : (s.setReg r v).pc = s.pc := by
  unfold State.setReg; split <;> rfl

@[simp] theorem State.setReg_mem (s : State) (r : Reg) (v : Word) : (s.setReg r v).mem = s.mem := by
  unfold State.setReg; split <;> rfl

@[simp] theorem State.setReg_out (s : State) (r : Reg) (v : Word) : (s.setReg r v).out = s.out := by
  unfold State.setReg; split <;> rfl

@[simp] theorem State.setReg_status (s : State) (r : Reg) (v : Word) : (s.setReg r v).status = s.status := by
  unfold State.setReg; split <;> rfl

@[simp] theorem State.setReg_pipe (s : State) (r : Reg) (v : Word) : (s.setReg r v).pipe = s.pipe := by
  unfold State.setReg; split <;> rfl

@[simp] theorem State.setReg_caches (s : State) (r : Reg) (v : Word) : (s.setReg r v).caches = s.caches := by
  unfold State.setReg; split <;> rfl

@[simp] theorem State.reg_zero (s : State) : s.reg 0 = 0 := rfl

/-- Reading after writing: the value written, unless it went to register 0 (10_state.md R21). -/
theorem State.reg_setReg (s : State) (r q : Reg) (v : Word) :
    (s.setReg r v).reg q = if q = r ∧ r ≠ 0 then v else s.reg q := by
  unfold State.setReg State.reg
  by_cases hr : r = 0
  · simp [hr]
  · by_cases hq : q = r
    · subst hq; simp [hr]
    · have hne : (r : Nat) ≠ q := fun h => hq (Fin.ext h.symm)
      simp [hr, hq, hne]

@[simp] theorem State.reg_setReg_same (s : State) (r : Reg) (v : Word) (h : r ≠ 0) : (s.setReg r v).reg r = v := by
  simp [State.reg_setReg, h]

@[simp] theorem State.reg_setReg_other (s : State) (r q : Reg) (v : Word) (h : q ≠ r) :
    (s.setReg r v).reg q = s.reg q := by
  simp [State.reg_setReg, h]

/-- A write to register 0 changes nothing. -/
@[simp] theorem State.setReg_zero (s : State) (v : Word) : s.setReg 0 v = s := rfl

/-- Slot 0 of the register file is never written. -/
theorem State.setReg_slot_zero (s : State) (r : Reg) (v : Word) : (s.setReg r v).regs[0] = s.regs[0] := by
  unfold State.setReg
  split
  · rfl
  · rename_i h
    have : (r : Nat) ≠ 0 := fun h0 => h (Fin.ext h0)
    simp [this]

/-! ## The other updates -/

@[simp] theorem State.setFlags_cfg (s : State) (f : Flags) : (s.setFlags f).cfg = s.cfg := rfl

@[simp] theorem State.setFlags_regs (s : State) (f : Flags) : (s.setFlags f).regs = s.regs := rfl

@[simp] theorem State.setFlags_flags (s : State) (f : Flags) : (s.setFlags f).flags = f := rfl

@[simp] theorem State.setFlags_pc (s : State) (f : Flags) : (s.setFlags f).pc = s.pc := rfl

@[simp] theorem State.setFlags_mem (s : State) (f : Flags) : (s.setFlags f).mem = s.mem := rfl

@[simp] theorem State.setFlags_out (s : State) (f : Flags) : (s.setFlags f).out = s.out := rfl

@[simp] theorem State.setFlags_status (s : State) (f : Flags) : (s.setFlags f).status = s.status := rfl

@[simp] theorem State.setFlags_pipe (s : State) (f : Flags) : (s.setFlags f).pipe = s.pipe := rfl

@[simp] theorem State.setFlags_caches (s : State) (f : Flags) : (s.setFlags f).caches = s.caches := rfl

@[simp] theorem State.setFlags_reg (s : State) (f : Flags) (r : Reg) : (s.setFlags f).reg r = s.reg r := rfl

@[simp] theorem State.setPc_cfg (s : State) (t : Word) : (s.setPc t).cfg = s.cfg := rfl

@[simp] theorem State.setPc_regs (s : State) (t : Word) : (s.setPc t).regs = s.regs := rfl

@[simp] theorem State.setPc_flags (s : State) (t : Word) : (s.setPc t).flags = s.flags := rfl

@[simp] theorem State.setPc_pc (s : State) (t : Word) : (s.setPc t).pc = t := rfl

@[simp] theorem State.setPc_mem (s : State) (t : Word) : (s.setPc t).mem = s.mem := rfl

@[simp] theorem State.setPc_out (s : State) (t : Word) : (s.setPc t).out = s.out := rfl

@[simp] theorem State.setPc_status (s : State) (t : Word) : (s.setPc t).status = s.status := rfl

@[simp] theorem State.setPc_pipe (s : State) (t : Word) : (s.setPc t).pipe = s.pipe := rfl

@[simp] theorem State.setPc_caches (s : State) (t : Word) : (s.setPc t).caches = s.caches := rfl

@[simp] theorem State.setPc_reg (s : State) (t : Word) (r : Reg) : (s.setPc t).reg r = s.reg r := rfl

@[simp] theorem State.nextPc_cfg (s : State) : s.nextPc.cfg = s.cfg := rfl

@[simp] theorem State.nextPc_regs (s : State) : s.nextPc.regs = s.regs := rfl

@[simp] theorem State.nextPc_flags (s : State) : s.nextPc.flags = s.flags := rfl

@[simp] theorem State.nextPc_pc (s : State) : s.nextPc.pc = s.pc + 4 := rfl

@[simp] theorem State.nextPc_mem (s : State) : s.nextPc.mem = s.mem := rfl

@[simp] theorem State.nextPc_out (s : State) : s.nextPc.out = s.out := rfl

@[simp] theorem State.nextPc_status (s : State) : s.nextPc.status = s.status := rfl

@[simp] theorem State.nextPc_pipe (s : State) : s.nextPc.pipe = s.pipe := rfl

@[simp] theorem State.nextPc_caches (s : State) : s.nextPc.caches = s.caches := rfl

@[simp] theorem State.nextPc_reg (s : State) (r : Reg) : s.nextPc.reg r = s.reg r := rfl

@[simp] theorem State.raise_cfg (s : State) (k : Fault) (w a : Option Word) : (s.raise k w a).cfg = s.cfg := rfl

@[simp] theorem State.raise_regs (s : State) (k : Fault) (w a : Option Word) : (s.raise k w a).regs = s.regs := rfl

@[simp] theorem State.raise_flags (s : State) (k : Fault) (w a : Option Word) : (s.raise k w a).flags = s.flags := rfl

@[simp] theorem State.raise_pc (s : State) (k : Fault) (w a : Option Word) : (s.raise k w a).pc = s.pc := rfl

@[simp] theorem State.raise_mem (s : State) (k : Fault) (w a : Option Word) : (s.raise k w a).mem = s.mem := rfl

@[simp] theorem State.raise_out (s : State) (k : Fault) (w a : Option Word) : (s.raise k w a).out = s.out := rfl

@[simp] theorem State.raise_status (s : State) (k : Fault) (w a : Option Word) :
    (s.raise k w a).status = .faulted { kind := k, pc := s.pc, word := w, addr := a } := rfl

@[simp] theorem State.raise_pipe (s : State) (k : Fault) (w a : Option Word) : (s.raise k w a).pipe = s.pipe := rfl

@[simp] theorem State.raise_caches (s : State) (k : Fault) (w a : Option Word) : (s.raise k w a).caches = s.caches := rfl

@[simp] theorem State.raise_reg (s : State) (k : Fault) (w a : Option Word) (r : Reg) : (s.raise k w a).reg r = s.reg r := rfl

@[simp] theorem State.halt_cfg (s : State) : s.halt.cfg = s.cfg := rfl

@[simp] theorem State.halt_regs (s : State) : s.halt.regs = s.regs := rfl

@[simp] theorem State.halt_flags (s : State) : s.halt.flags = s.flags := rfl

@[simp] theorem State.halt_pc (s : State) : s.halt.pc = s.pc := rfl

@[simp] theorem State.halt_mem (s : State) : s.halt.mem = s.mem := rfl

@[simp] theorem State.halt_out (s : State) : s.halt.out = s.out := rfl

@[simp] theorem State.halt_status (s : State) : s.halt.status = .halted := rfl

@[simp] theorem State.halt_pipe (s : State) : s.halt.pipe = s.pipe := rfl

@[simp] theorem State.halt_caches (s : State) : s.halt.caches = s.caches := rfl

@[simp] theorem State.halt_reg (s : State) (r : Reg) : s.halt.reg r = s.reg r := rfl

@[simp] theorem State.store_cfg (s : State) (a : Word) (n : Width) (v : Word) : (s.store a n v).cfg = s.cfg := rfl

@[simp] theorem State.store_regs (s : State) (a : Word) (n : Width) (v : Word) : (s.store a n v).regs = s.regs := rfl

@[simp] theorem State.store_flags (s : State) (a : Word) (n : Width) (v : Word) : (s.store a n v).flags = s.flags := rfl

@[simp] theorem State.store_pc (s : State) (a : Word) (n : Width) (v : Word) : (s.store a n v).pc = s.pc := rfl

@[simp] theorem State.store_mem (s : State) (a : Word) (n : Width) (v : Word) : (s.store a n v).mem = s.mem.writeWidth a.toNat n v := rfl

@[simp] theorem State.store_out (s : State) (a : Word) (n : Width) (v : Word) :
    (s.store a n v).out = if s.cfg.inOut a then s.out ++ [outRecord a n v] else s.out := rfl

@[simp] theorem State.store_status (s : State) (a : Word) (n : Width) (v : Word) : (s.store a n v).status = s.status := rfl

@[simp] theorem State.store_pipe (s : State) (a : Word) (n : Width) (v : Word) : (s.store a n v).pipe = s.pipe := rfl

@[simp] theorem State.store_caches (s : State) (a : Word) (n : Width) (v : Word) : (s.store a n v).caches = s.caches := rfl

@[simp] theorem State.store_reg (s : State) (a : Word) (n : Width) (v : Word) (r : Reg) : (s.store a n v).reg r = s.reg r := rfl

end Sys2Proof.Machine
end

