-- ==== Sys2Proof/Laws/Ops.lean ====
section
/-!
SUPPORT. For each shared operation one lemma that says everything it can do. Later proofs cite these and never
unfold the operation.
-/
namespace Sys2Proof.Machine

/-! ## Access checks and memory -/

/-- An access passes its checks exactly when it is aligned (4 bytes only) and inside memory (20_memory.md R54 to
R56). -/
theorem accessFault_eq_none {c : Config} {a : Word} {n : Width} :
    accessFault c a n = none ↔ (n = .word → a.toNat % 4 = 0) ∧ a.toNat + n.bytes ≤ c.memSize := by
  unfold accessFault
  split
  · rename_i h; simp [h.1, h.2]
  · rename_i h
    split
    · simp; omega
    · simp only [true_iff]
      exact ⟨fun hn => by by_contra hc; exact h ⟨hn, hc⟩, by omega⟩

/-- The fault an access raises: misaligned if it moves 4 bytes at no multiple of 4, else unmapped if it ends outside
memory (R56). -/
theorem accessFault_eq_some {c : Config} {a : Word} {n : Width} {f : Fault} :
    accessFault c a n = some f ↔
      (n = .word ∧ a.toNat % 4 ≠ 0 ∧ f = .misalignedAccess)
      ∨ (¬ (n = .word ∧ a.toNat % 4 ≠ 0) ∧ c.memSize < a.toNat + n.bytes ∧ f = .unmappedAddress) := by
  unfold accessFault
  split
  · rename_i h; simp only [Option.some.injEq]; constructor
    · rintro rfl; exact .inl ⟨h.1, h.2, rfl⟩
    · rintro (⟨-, -, rfl⟩ | ⟨hn, -⟩)
      · rfl
      · exact absurd h hn
  · rename_i h
    split
    · rename_i hm; simp only [Option.some.injEq]; constructor
      · rintro rfl; exact .inr ⟨h, hm, rfl⟩
      · rintro (⟨h1, h2, -⟩ | ⟨-, -, rfl⟩)
        · exact absurd ⟨h1, h2⟩ h
        · rfl
    · rename_i hm
      constructor
      · intro hc; cases hc
      · rintro (⟨h1, h2, -⟩ | ⟨-, h2, -⟩)
        · exact absurd ⟨h1, h2⟩ h
        · exact absurd h2 hm

/-- A read answers the fault of its checks or the bytes. -/
theorem State.memRead_cases (s : State) (a : Word) (n : Width) :
    (∃ f, accessFault s.cfg a n = some f ∧ s.memRead a n = .error f)
    ∨ (accessFault s.cfg a n = none ∧ s.memRead a n = .ok (s.mem.readWidth a.toNat n)) := by
  unfold State.memRead
  cases h : accessFault s.cfg a n <;> simp

/-- A write answers the fault of its checks or the store. -/
theorem State.memWrite_cases (s : State) (a : Word) (n : Width) (v : Word) :
    (∃ f, accessFault s.cfg a n = some f ∧ s.memWrite a n v = .error f)
    ∨ (accessFault s.cfg a n = none ∧ s.memWrite a n v = .ok (s.store a n v)) := by
  unfold State.memWrite
  cases h : accessFault s.cfg a n <;> simp

/-- A fetch answers the fault of its checks or the word at `pc`. -/
theorem State.fetch_cases (s : State) :
    (∃ f, accessFault s.cfg s.pc .word = some f ∧ s.fetch = .error f)
    ∨ (accessFault s.cfg s.pc .word = none ∧ s.fetch = .ok (s.mem.readWord s.pc.toNat)) :=
  s.memRead_cases s.pc .word

/-! ## How instructions complete -/

/-- A division faults and writes nothing else, or writes its result and flags. -/
theorem State.writeDivision_cases (s : State) (i : Instr) (rd : Reg) (r : Option (Word × Flags)) :
    (r = none ∧ s.writeDivision i rd r = s.raise .arithmeticFault (some (encode i)) none)
    ∨ (∃ x, r = some x ∧ s.writeDivision i rd r = s.writeArith rd x) := by
  cases r <;> simp [State.writeDivision]

/-- A load faults and writes nothing else, or writes its register. -/
theorem State.load_cases (s : State) (i : Instr) (rt : Reg) (ea : Word) (n : Width) :
    (∃ f, accessFault s.cfg ea n = some f ∧ s.load i rt ea n = s.raise f (some (encode i)) (some ea))
    ∨ (accessFault s.cfg ea n = none
      ∧ s.load i rt ea n = (s.setReg rt (s.mem.readWidth ea.toNat n)).nextPc) := by
  unfold State.load
  rcases s.memRead_cases ea n with ⟨f, h, e⟩ | ⟨h, e⟩
  · exact .inl ⟨f, h, by rw [e]⟩
  · exact .inr ⟨h, by rw [e]⟩

/-- A store faults and writes nothing else, or writes memory and the output log. -/
theorem State.storeAt_cases (s : State) (i : Instr) (ea : Word) (n : Width) (v : Word) :
    (∃ f, accessFault s.cfg ea n = some f ∧ s.storeAt i ea n v = s.raise f (some (encode i)) (some ea))
    ∨ (accessFault s.cfg ea n = none ∧ s.storeAt i ea n v = (s.store ea n v).nextPc) := by
  unfold State.storeAt
  rcases s.memWrite_cases ea n v with ⟨f, h, e⟩ | ⟨h, e⟩
  · exact .inl ⟨f, h, by rw [e]⟩
  · exact .inr ⟨h, by rw [e]⟩

/-- A conditional branch moves the program counter and nothing else. -/
theorem State.branchIf_eq (s : State) (c : Cond) (off : Int) :
    s.branchIf c off = s.setPc (if condTrue c s.flags then branchTarget s.pc off else s.pc + 4) := by
  unfold State.branchIf State.nextPc
  split <;> rfl

/-! ## Signs and flags -/

theorem msb_iff_toInt_neg (r : Word) : r.msb = true ↔ r.toInt < 0 := by
  rw [BitVec.msb_eq_toInt]; simp

/-- `divFlags` answers none exactly on a zero divisor. -/
theorem divFlags_eq_none {a b : Word} : divFlags a b = none ↔ b = 0 := by
  by_cases h : b = 0 <;> simp [divFlags, h]

/-- `modFlags` answers none exactly on a zero divisor. -/
theorem modFlags_eq_none {a b : Word} : modFlags a b = none ↔ b = 0 := by
  by_cases h : b = 0 <;> simp [modFlags, h]

end Sys2Proof.Machine
end

