-- ==== Sys2Proof/Laws/Cache.lean ====
section
/-!
SUPPORT. What the cache operations of 20_memory.md sections 5 and 6 can do, one lemma per operation, and the
arithmetic of block addresses.
-/
namespace Sys2Proof.Machine

/-! ## Addresses (R64) -/

/-- An address is its block's first byte plus its offset. -/
theorem blockBase_add_off (a : Word) : blockBase a + blockOff a = a.toNat := by
  unfold blockBase blockOff; omega

/-- The line that `a` indexes, under the tag of `a`, stands for the block of `a`. -/
theorem l1Base_self (a : Word) : l1Base (l1Index a) (l1Tag a) = blockBase a := by
  have := a.isLt
  simp only [l1Base, l1Index, l1Tag, blockBase, BitVec.toNat_ofNat, Fin.ofNat_eq_cast, Fin.val_natCast, l1Lines]
  omega

/-- The set that `a` indexes, under the tag of `a`, stands for the block of `a`. -/
theorem l2Base_self (a : Word) : l2Base (l2Index a) (l2Tag a) = blockBase a := by
  have := a.isLt
  simp only [l2Base, l2Index, l2Tag, blockBase, BitVec.toNat_ofNat, Fin.ofNat_eq_cast, Fin.val_natCast, l2Sets]
  omega

/-- Only the line that `a` indexes, under the tag of `a`, stands for the block of `a`. -/
theorem l1Base_eq {i : Fin l1Lines} {tag : BitVec 24} {a : Word} (h : l1Base i tag = blockBase a) :
    i = l1Index a ∧ tag = l1Tag a := by
  have := a.isLt; have := i.isLt; have := tag.isLt
  simp only [l1Base, blockBase, l1Lines] at *
  constructor
  · apply Fin.ext; simp only [l1Index, Fin.ofNat_eq_cast, Fin.val_natCast, l1Lines]; omega
  · apply BitVec.eq_of_toNat_eq; simp only [l1Tag, BitVec.toNat_ofNat]; omega

/-- Only the set that `a` indexes, under the tag of `a`, stands for the block of `a`. -/
theorem l2Base_eq {i : Fin l2Sets} {tag : BitVec 23} {a : Word} (h : l2Base i tag = blockBase a) :
    i = l2Index a ∧ tag = l2Tag a := by
  have := a.isLt; have := i.isLt; have := tag.isLt
  simp only [l2Base, blockBase, l2Sets] at *
  constructor
  · apply Fin.ext; simp only [l2Index, Fin.ofNat_eq_cast, Fin.val_natCast, l2Sets]; omega
  · apply BitVec.eq_of_toNat_eq; simp only [l2Tag, BitVec.toNat_ofNat]; omega

theorem l1Base_dvd (i : Fin l1Lines) (tag : BitVec 24) : l1Base i tag % 16 = 0 := by
  unfold l1Base; omega

theorem l2Base_dvd (i : Fin l2Sets) (tag : BitVec 23) : l2Base i tag % 16 = 0 := by
  unfold l2Base; omega

theorem blockBase_dvd (a : Word) : blockBase a % 16 = 0 := by
  unfold blockBase; omega

/-- With legal parameters an address lies in the output region exactly if its block starts there (R54). -/
theorem inOut_iff {c : Config} (h : c.wf = true) (a : Word) :
    c.inOut a = true ↔ c.mmioBase ≤ blockBase a ∧ blockBase a < c.mmioBase + c.mmioSize := by
  simp only [Config.wf, Bool.and_eq_true, decide_eq_true_eq, blockBytes] at h
  simp only [Config.inOut, Bool.and_eq_true, decide_eq_true_eq, blockBase]
  omega

/-! ## Blocks -/

/-- Byte `j` of a block after byte `k` was set. -/
theorem blockSet_get (d : Vector Byte blockBytes) (k : Nat) (v : Byte) (j : Fin blockBytes) (hk : k < 16) :
    (blockSet d k v)[j] = if k = j.val then v else d[j] := by
  simp only [blockSet, Fin.ofNat_eq_cast, Fin.getElem_fin, Vector.getElem_set, Fin.val_natCast,
    Nat.mod_eq_of_lt hk]

/-- A byte outside a store of `n` bytes at offset `k` stays (R68). -/
theorem blockWrite_other (d : Vector Byte blockBytes) (k : Nat) (n : Width) (v : Word) (j : Fin blockBytes)
    (hk : k + n.bytes ≤ 16) (h : j.val < k ∨ k + n.bytes ≤ j.val) : (blockWrite d k n v)[j] = d[j] := by
  cases n with
  | byte =>
    simp only [Width.bytes] at hk h
    simp only [blockWrite]
    rw [blockSet_get _ _ _ _ (by omega), if_neg (by omega)]
  | word =>
    simp only [Width.bytes] at hk h
    simp only [blockWrite]
    rw [blockSet_get _ _ _ _ (by omega), if_neg (by omega), blockSet_get _ _ _ _ (by omega), if_neg (by omega),
      blockSet_get _ _ _ _ (by omega), if_neg (by omega), blockSet_get _ _ _ _ (by omega), if_neg (by omega)]

/-- Byte `i` of a store of `n` bytes at offset `k` is byte `i` of the value (R68). -/
theorem blockWrite_same (d : Vector Byte blockBytes) (k : Nat) (n : Width) (v : Word) (j : Fin blockBytes) (i : Nat)
    (hk : k + n.bytes ≤ 16) (hi : i < n.bytes) (h : k + i = j.val) : (blockWrite d k n v)[j] = byteOfWord v i := by
  cases n with
  | byte =>
    simp only [Width.bytes] at hk hi
    obtain rfl : i = 0 := by omega
    simp only [blockWrite]
    rw [blockSet_get _ _ _ _ (by omega), if_pos (by omega)]
  | word =>
    simp only [Width.bytes] at hk hi
    simp only [blockWrite]
    rw [blockSet_get _ _ _ _ (by omega), blockSet_get _ _ _ _ (by omega), blockSet_get _ _ _ _ (by omega),
      blockSet_get _ _ _ _ (by omega)]
    match i, hi with
    | 3, _ => rw [if_pos h]
    | 2, _ => rw [if_neg (by omega), if_pos h]
    | 1, _ => rw [if_neg (by omega), if_neg (by omega), if_pos h]
    | 0, _ => rw [if_neg (by omega), if_neg (by omega), if_neg (by omega), if_pos (by omega)]

/-- Every byte of a block read from memory. -/
theorem Memory.block_get (m : Memory) (base : Nat) (k : Fin blockBytes) : (m.block base)[k] = m.read (base + k.val) := by
  simp [Memory.block]

/-- Byte `k` of a block that holds the bytes of memory from `base` on. -/
theorem blockByte_eq {m : Memory} {base : Nat} {d : Vector Byte blockBytes}
    (h : ∀ k : Fin blockBytes, d[k] = m.read (base + k.val)) {k : Nat} (hk : k < 16) :
    blockByte d k = m.read (base + k) := by
  unfold blockByte
  rw [h]
  simp [Fin.ofNat_eq_cast, Fin.val_natCast, Nat.mod_eq_of_lt hk]

/-- A block that holds the bytes of memory gives what a direct read gives (R71). -/
theorem blockRead_eq {m : Memory} {base : Nat} {d : Vector Byte blockBytes}
    (h : ∀ k : Fin blockBytes, d[k] = m.read (base + k.val)) (k : Nat) (n : Width) (hk : k + n.bytes ≤ 16) :
    blockRead d k n = m.readWidth (base + k) n := by
  cases n with
  | byte =>
    simp only [Width.bytes] at hk
    simp only [blockRead, Memory.readWidth, blockByte_eq h (show k < 16 by omega)]
  | word =>
    simp only [Width.bytes] at hk
    simp only [blockRead, Memory.readWidth, Memory.readWord, blockByte_eq h (show k < 16 by omega),
      blockByte_eq h (show k + 1 < 16 by omega), blockByte_eq h (show k + 2 < 16 by omega),
      blockByte_eq h (show k + 3 < 16 by omega), Nat.add_assoc]

/-- A checked access stays inside its block (R54). -/
theorem access_in_block {c : Config} {a : Word} {n : Width} (h : accessFault c a n = none) :
    blockOff a + n.bytes ≤ 16 := by
  have := accessFault_eq_none.1 h
  unfold blockOff
  cases n <;> simp [Width.bytes] at * <;> omega

/-! ## Lookup (R65) -/

/-- The L1 line found for an address is the one its index selects, under its tag. -/
theorem Caches.l1Line_eq_some {c : Caches} {a : Word} {l : Line 24} :
    c.l1Line a = some l ↔ c.l1[l1Index a] = some l ∧ l.tag = l1Tag a := by
  simp [Caches.l1Line, Option.filter_eq_some_iff]

/-- The L2 line found for an address in a way is the one of its set, under its tag. -/
theorem Caches.l2Line_eq_some {c : Caches} {a : Word} {w : Fin l2Ways} {l : Line 23} :
    c.l2Line a w = some l ↔ c.l2[l2Index a][w] = some l ∧ l.tag = l2Tag a := by
  simp [Caches.l2Line, Option.filter_eq_some_iff]

/-- The way found for an address holds its block. -/
theorem Caches.l2Way_eq_some {c : Caches} {a : Word} {w : Fin l2Ways} (h : c.l2Way a = some w) :
    ∃ l, c.l2Line a w = some l := by
  unfold Caches.l2Way at h
  split at h
  · rename_i h0; cases h; exact Option.isSome_iff_exists.1 h0
  · split at h
    · rename_i h1; cases h; exact Option.isSome_iff_exists.1 h1
    · cases h

/-- No way is found exactly if neither holds the block. -/
theorem Caches.l2Way_eq_none {c : Caches} {a : Word} :
    c.l2Way a = none ↔ c.l2Line a 0 = none ∧ c.l2Line a 1 = none := by
  unfold Caches.l2Way
  cases c.l2Line a 0 <;> cases c.l2Line a 1 <;> simp

/-! ## Load and store -/

/-- Everything a cached load can do: serve from L1, from L2 into L1, or from memory into both (R66). -/
theorem Caches.load_cases (c : Caches) (m : Memory) (a : Word) :
    (∃ l, c.l1Line a = some l ∧ c.load m a = (l.data, c))
    ∨ (∃ w l, c.l1Line a = none ∧ c.l2Way a = some w ∧ c.l2Line a w = some l
      ∧ c.load m a = (l.data, (c.touch (l2Index a) w).setL1 (l1Index a) { tag := l1Tag a, data := l.data }))
    ∨ (c.l1Line a = none ∧ c.l2Way a = none
      ∧ c.load m a = (m.block (blockBase a),
          ((c.setL2 (l2Index a) (c.l2Victim (l2Index a)) { tag := l2Tag a, data := m.block (blockBase a) }).touch
            (l2Index a) (c.l2Victim (l2Index a))).setL1 (l1Index a)
              { tag := l1Tag a, data := m.block (blockBase a) })) := by
  unfold Caches.load Caches.l2Load
  cases h1 : c.l1Line a with
  | some l => exact .inl ⟨l, rfl, rfl⟩
  | none =>
    cases hw : c.l2Way a with
    | some w =>
      obtain ⟨l, hl⟩ := Caches.l2Way_eq_some hw
      exact .inr (.inl ⟨w, l, rfl, rfl, hl, by simp [hl]⟩)
    | none => exact .inr (.inr ⟨rfl, rfl, by simp⟩)

/-- Everything the L2 part of a store can do (R68). -/
theorem Caches.l2Store_cases (c : Caches) (a : Word) (n : Width) (v : Word) :
    (∃ w l, c.l2Way a = some w ∧ c.l2Line a w = some l ∧ c.l2Store a n v
      = (c.setL2 (l2Index a) w { l with data := blockWrite l.data (blockOff a) n v }).touch (l2Index a) w)
    ∨ (c.l2Way a = none ∧ c.l2Store a n v = c) := by
  unfold Caches.l2Store
  cases hw : c.l2Way a with
  | some w =>
    obtain ⟨l, hl⟩ := Caches.l2Way_eq_some hw
    exact .inl ⟨w, l, rfl, hl, by simp [hl]⟩
  | none => exact .inr ⟨rfl, by simp⟩

/-- Everything the L1 part of a store can do (R68). -/
theorem Caches.l1Store_cases (c : Caches) (a : Word) (n : Width) (v : Word) :
    (∃ l, c.l1Line a = some l ∧ c.l1Store a n v
      = c.setL1 (l1Index a) { l with data := blockWrite l.data (blockOff a) n v })
    ∨ (c.l1Line a = none ∧ c.l1Store a n v = c) := by
  unfold Caches.l1Store
  cases h : c.l1Line a with
  | some l => exact .inl ⟨l, rfl, rfl⟩
  | none => exact .inr ⟨rfl, rfl⟩

/-! ## Updates of the arrays -/

theorem Caches.setL1_get (c : Caches) (i j : Fin l1Lines) (l : Line 24) :
    (c.setL1 i l).l1[j] = if i = j then some l else c.l1[j] := by
  simp only [Caches.setL1, Fin.getElem_fin, Vector.getElem_set, Fin.ext_iff]

theorem Caches.setL2_get (c : Caches) (i j : Fin l2Sets) (w u : Fin l2Ways) (l : Line 23) :
    (c.setL2 i w l).l2[j][u] = if i = j ∧ w = u then some l else c.l2[j][u] := by
  simp only [Caches.setL2, Fin.getElem_fin, Vector.getElem_set, Fin.ext_iff]
  by_cases h : (i : Nat) = j
  · simp only [h, if_true, true_and, Vector.getElem_set]
  · simp [h]

@[simp] theorem Caches.setL1_l2 (c : Caches) (i : Fin l1Lines) (l : Line 24) : (c.setL1 i l).l2 = c.l2 := rfl

@[simp] theorem Caches.setL1_lru (c : Caches) (i : Fin l1Lines) (l : Line 24) : (c.setL1 i l).lru = c.lru := rfl

@[simp] theorem Caches.setL2_l1 (c : Caches) (i : Fin l2Sets) (w : Fin l2Ways) (l : Line 23) :
    (c.setL2 i w l).l1 = c.l1 := rfl

@[simp] theorem Caches.setL2_lru (c : Caches) (i : Fin l2Sets) (w : Fin l2Ways) (l : Line 23) :
    (c.setL2 i w l).lru = c.lru := rfl

@[simp] theorem Caches.touch_l1 (c : Caches) (i : Fin l2Sets) (w : Fin l2Ways) : (c.touch i w).l1 = c.l1 := rfl

@[simp] theorem Caches.touch_l2 (c : Caches) (i : Fin l2Sets) (w : Fin l2Ways) : (c.touch i w).l2 = c.l2 := rfl

end Sys2Proof.Machine
end

