-- ==== Sys2Proof/Laws/HostOps.lean ====
section
/-!
SUPPORT. What the loader of `reset` does to memory: it keeps the canonical form, and outside the program's words the
program leaves the image alone (70_reset_and_hazards.md R250, R251).
-/
namespace Sys2Proof.Machine

theorem foldl_write_wf (l : List Host.Cell) (m : Memory) (h : m.wf = true) :
    (l.foldl (fun m cell => m.write cell.1 cell.2) m).wf = true := by
  induction l generalizing m with
  | nil => exact h
  | cons c l ih => exact ih _ (Memory.write_wf h)

/-- An initial image is in canonical form. -/
theorem loadImage_wf (l : List Host.Cell) : (loadImage l).wf = true := foldl_write_wf l _ rfl

/-- Writing the program keeps the canonical form. -/
theorem loadProgram_wf (l : List Word) (a : Nat) (m : Memory) (h : m.wf = true) : (loadProgram l a m).wf = true := by
  induction l generalizing a m with
  | nil => exact h
  | cons w l ih => exact ih _ _ (Memory.writeWord_wf h)

/-- The program changes no byte outside its words. -/
theorem read_loadProgram_other (l : List Word) (a b : Nat) (m : Memory) (h : b < a ∨ a + 4 * l.length ≤ b) :
    (loadProgram l a m).read b = m.read b := by
  induction l generalizing a m with
  | nil => rfl
  | cons w l ih =>
    simp only [List.length_cons] at h
    rw [loadProgram, ih _ _ (by omega)]
    exact Memory.read_writeWidth_other m a b .word w (by simp only [Width.bytes]; omega)

end Sys2Proof.Machine
end

