-- ==== Sys2Proof/Laws/PerInstr.lean ====
section
/-!
SUPPORT. Laws stated once per instruction. The family `EncodedClass`: the word of an instruction carries its class
in bits 31:30 (30_encoding.md R101), whatever its operands.
-/
namespace Sys2Proof.Laws

/-- The class number of R101. -/
def classNumber : InstrClass → Nat
  | .a => 0
  | .m => 1
  | .c => 2

/-- Bits 31:30 of the instruction's word are its class number. -/
def EncodedClass.Statement (i : Instr) : Prop := bits (encode i) 31 30 = classNumber i.cls

theorem EncodedClass.add (rd : Reg) (rs1 : Reg) (rs2 : Reg) : EncodedClass.Statement (.add rd rs1 rs2) :=
  encodeR_class (op4 := 1) (by decide) rd rs1 rs2

theorem EncodedClass.addi (rd : Reg) (rs1 : Reg) (imm : Int) : EncodedClass.Statement (.addi rd rs1 imm) :=
  encodeI_class (op4 := 1) (by decide) rd rs1 imm

theorem EncodedClass.sub (rd : Reg) (rs1 : Reg) (rs2 : Reg) : EncodedClass.Statement (.sub rd rs1 rs2) :=
  encodeR_class (op4 := 2) (by decide) rd rs1 rs2

theorem EncodedClass.subi (rd : Reg) (rs1 : Reg) (imm : Int) : EncodedClass.Statement (.subi rd rs1 imm) :=
  encodeI_class (op4 := 2) (by decide) rd rs1 imm

theorem EncodedClass.mul (rd : Reg) (rs1 : Reg) (rs2 : Reg) : EncodedClass.Statement (.mul rd rs1 rs2) :=
  encodeR_class (op4 := 3) (by decide) rd rs1 rs2

theorem EncodedClass.muli (rd : Reg) (rs1 : Reg) (imm : Int) : EncodedClass.Statement (.muli rd rs1 imm) :=
  encodeI_class (op4 := 3) (by decide) rd rs1 imm

theorem EncodedClass.div (rd : Reg) (rs1 : Reg) (rs2 : Reg) : EncodedClass.Statement (.div rd rs1 rs2) :=
  encodeR_class (op4 := 4) (by decide) rd rs1 rs2

theorem EncodedClass.divi (rd : Reg) (rs1 : Reg) (imm : Int) : EncodedClass.Statement (.divi rd rs1 imm) :=
  encodeI_class (op4 := 4) (by decide) rd rs1 imm

theorem EncodedClass.mod (rd : Reg) (rs1 : Reg) (rs2 : Reg) : EncodedClass.Statement (.mod rd rs1 rs2) :=
  encodeR_class (op4 := 5) (by decide) rd rs1 rs2

theorem EncodedClass.modi (rd : Reg) (rs1 : Reg) (imm : Int) : EncodedClass.Statement (.modi rd rs1 imm) :=
  encodeI_class (op4 := 5) (by decide) rd rs1 imm

theorem EncodedClass.and (rd : Reg) (rs1 : Reg) (rs2 : Reg) : EncodedClass.Statement (.and rd rs1 rs2) :=
  encodeR_class (op4 := 6) (by decide) rd rs1 rs2

theorem EncodedClass.andi (rd : Reg) (rs1 : Reg) (imm : Int) : EncodedClass.Statement (.andi rd rs1 imm) :=
  encodeI_class (op4 := 6) (by decide) rd rs1 imm

theorem EncodedClass.or (rd : Reg) (rs1 : Reg) (rs2 : Reg) : EncodedClass.Statement (.or rd rs1 rs2) :=
  encodeR_class (op4 := 7) (by decide) rd rs1 rs2

theorem EncodedClass.ori (rd : Reg) (rs1 : Reg) (imm : Int) : EncodedClass.Statement (.ori rd rs1 imm) :=
  encodeI_class (op4 := 7) (by decide) rd rs1 imm

theorem EncodedClass.xor (rd : Reg) (rs1 : Reg) (rs2 : Reg) : EncodedClass.Statement (.xor rd rs1 rs2) :=
  encodeR_class (op4 := 8) (by decide) rd rs1 rs2

theorem EncodedClass.xori (rd : Reg) (rs1 : Reg) (imm : Int) : EncodedClass.Statement (.xori rd rs1 imm) :=
  encodeI_class (op4 := 8) (by decide) rd rs1 imm

theorem EncodedClass.shl (rd : Reg) (rs1 : Reg) (rs2 : Reg) : EncodedClass.Statement (.shl rd rs1 rs2) :=
  encodeR_class (op4 := 9) (by decide) rd rs1 rs2

theorem EncodedClass.shli (rd : Reg) (rs1 : Reg) (imm : Int) : EncodedClass.Statement (.shli rd rs1 imm) :=
  encodeI_class (op4 := 9) (by decide) rd rs1 imm

theorem EncodedClass.shr (rd : Reg) (rs1 : Reg) (rs2 : Reg) : EncodedClass.Statement (.shr rd rs1 rs2) :=
  encodeR_class (op4 := 10) (by decide) rd rs1 rs2

theorem EncodedClass.shri (rd : Reg) (rs1 : Reg) (imm : Int) : EncodedClass.Statement (.shri rd rs1 imm) :=
  encodeI_class (op4 := 10) (by decide) rd rs1 imm

theorem EncodedClass.sar (rd : Reg) (rs1 : Reg) (rs2 : Reg) : EncodedClass.Statement (.sar rd rs1 rs2) :=
  encodeR_class (op4 := 11) (by decide) rd rs1 rs2

theorem EncodedClass.sari (rd : Reg) (rs1 : Reg) (imm : Int) : EncodedClass.Statement (.sari rd rs1 imm) :=
  encodeI_class (op4 := 11) (by decide) rd rs1 imm

theorem EncodedClass.cmp (rs1 : Reg) (rs2 : Reg) : EncodedClass.Statement (.cmp rs1 rs2) :=
  encodeR_class (op4 := 12) (by decide) 0 rs1 rs2

theorem EncodedClass.cmpi (rs1 : Reg) (imm : Int) : EncodedClass.Statement (.cmpi rs1 imm) :=
  encodeI_class (op4 := 12) (by decide) 0 rs1 imm

theorem EncodedClass.ldr (rt : Reg) (rb : Reg) (off : Int) : EncodedClass.Statement (.ldr rt rb off) :=
  encodeM_class (op4 := 0) (by decide) rt rb off

theorem EncodedClass.str (rt : Reg) (rb : Reg) (off : Int) : EncodedClass.Statement (.str rt rb off) :=
  encodeM_class (op4 := 1) (by decide) rt rb off

theorem EncodedClass.ldrb (rt : Reg) (rb : Reg) (off : Int) : EncodedClass.Statement (.ldrb rt rb off) :=
  encodeM_class (op4 := 2) (by decide) rt rb off

theorem EncodedClass.strb (rt : Reg) (rb : Reg) (off : Int) : EncodedClass.Statement (.strb rt rb off) :=
  encodeM_class (op4 := 3) (by decide) rt rb off

theorem EncodedClass.b (off : Int) : EncodedClass.Statement (.b off) :=
  encodeB_class (op4 := 0) (cond := 0) (by decide) (by decide) off

theorem EncodedClass.beq (off : Int) : EncodedClass.Statement (.beq off) :=
  encodeB_class (op4 := 0) (cond := 1) (by decide) (by decide) off

theorem EncodedClass.bne (off : Int) : EncodedClass.Statement (.bne off) :=
  encodeB_class (op4 := 0) (cond := 2) (by decide) (by decide) off

theorem EncodedClass.blt (off : Int) : EncodedClass.Statement (.blt off) :=
  encodeB_class (op4 := 0) (cond := 3) (by decide) (by decide) off

theorem EncodedClass.bge (off : Int) : EncodedClass.Statement (.bge off) :=
  encodeB_class (op4 := 0) (cond := 4) (by decide) (by decide) off

theorem EncodedClass.bgt (off : Int) : EncodedClass.Statement (.bgt off) :=
  encodeB_class (op4 := 0) (cond := 5) (by decide) (by decide) off

theorem EncodedClass.ble (off : Int) : EncodedClass.Statement (.ble off) :=
  encodeB_class (op4 := 0) (cond := 6) (by decide) (by decide) off

theorem EncodedClass.blo (off : Int) : EncodedClass.Statement (.blo off) :=
  encodeB_class (op4 := 0) (cond := 7) (by decide) (by decide) off

theorem EncodedClass.bhs (off : Int) : EncodedClass.Statement (.bhs off) :=
  encodeB_class (op4 := 0) (cond := 8) (by decide) (by decide) off

theorem EncodedClass.bhi (off : Int) : EncodedClass.Statement (.bhi off) :=
  encodeB_class (op4 := 0) (cond := 9) (by decide) (by decide) off

theorem EncodedClass.bls (off : Int) : EncodedClass.Statement (.bls off) :=
  encodeB_class (op4 := 0) (cond := 10) (by decide) (by decide) off

theorem EncodedClass.bmi (off : Int) : EncodedClass.Statement (.bmi off) :=
  encodeB_class (op4 := 0) (cond := 11) (by decide) (by decide) off

theorem EncodedClass.bpl (off : Int) : EncodedClass.Statement (.bpl off) :=
  encodeB_class (op4 := 0) (cond := 12) (by decide) (by decide) off

theorem EncodedClass.bvs (off : Int) : EncodedClass.Statement (.bvs off) :=
  encodeB_class (op4 := 0) (cond := 13) (by decide) (by decide) off

theorem EncodedClass.bvc (off : Int) : EncodedClass.Statement (.bvc off) :=
  encodeB_class (op4 := 0) (cond := 14) (by decide) (by decide) off

theorem EncodedClass.bl (off : Int) : EncodedClass.Statement (.bl off) :=
  encodeB_class (op4 := 1) (cond := 0) (by decide) (by decide) off

theorem EncodedClass.jr (rs : Reg) : EncodedClass.Statement (.jr rs) := (encodeJ_fields rs).1

theorem EncodedClass.nop : EncodedClass.Statement .nop := (encodeZ_fields (op4 := 3) (by decide)).1

theorem EncodedClass.halt : EncodedClass.Statement .halt := (encodeZ_fields (op4 := 15) (by decide)).1

end Sys2Proof.Laws
end

