-- ==== Sys2Proof/Laws/Pipeline.lean ====
section
/-!
SUPPORT. What the pipeline's stages can do, one lemma per stage, and the field lemmas of their updates.
-/
namespace Sys2Proof.Machine

/-! ## Cache ports: only memory, the output log and the caches can change -/

@[simp] theorem State.dataLoad_cfg (s : State) (a : Word) (n : Width) : (s.dataLoad a n).2.cfg = s.cfg := by
  unfold State.dataLoad; split <;> rfl

@[simp] theorem State.dataLoad_regs (s : State) (a : Word) (n : Width) : (s.dataLoad a n).2.regs = s.regs := by
  unfold State.dataLoad; split <;> rfl

@[simp] theorem State.dataLoad_flags (s : State) (a : Word) (n : Width) : (s.dataLoad a n).2.flags = s.flags := by
  unfold State.dataLoad; split <;> rfl

@[simp] theorem State.dataLoad_pc (s : State) (a : Word) (n : Width) : (s.dataLoad a n).2.pc = s.pc := by
  unfold State.dataLoad; split <;> rfl

@[simp] theorem State.dataLoad_mem (s : State) (a : Word) (n : Width) : (s.dataLoad a n).2.mem = s.mem := by
  unfold State.dataLoad; split <;> rfl

@[simp] theorem State.dataLoad_out (s : State) (a : Word) (n : Width) : (s.dataLoad a n).2.out = s.out := by
  unfold State.dataLoad; split <;> rfl

@[simp] theorem State.dataLoad_status (s : State) (a : Word) (n : Width) : (s.dataLoad a n).2.status = s.status := by
  unfold State.dataLoad; split <;> rfl

@[simp] theorem State.dataLoad_pipe (s : State) (a : Word) (n : Width) : (s.dataLoad a n).2.pipe = s.pipe := by
  unfold State.dataLoad; split <;> rfl

@[simp] theorem State.dataStore_cfg (s : State) (a : Word) (n : Width) (v : Word) :
    (s.dataStore a n v).cfg = s.cfg := rfl

@[simp] theorem State.dataStore_regs (s : State) (a : Word) (n : Width) (v : Word) :
    (s.dataStore a n v).regs = s.regs := rfl

@[simp] theorem State.dataStore_flags (s : State) (a : Word) (n : Width) (v : Word) :
    (s.dataStore a n v).flags = s.flags := rfl

@[simp] theorem State.dataStore_pc (s : State) (a : Word) (n : Width) (v : Word) :
    (s.dataStore a n v).pc = s.pc := rfl

@[simp] theorem State.dataStore_status (s : State) (a : Word) (n : Width) (v : Word) :
    (s.dataStore a n v).status = s.status := rfl

@[simp] theorem State.dataStore_pipe (s : State) (a : Word) (n : Width) (v : Word) :
    (s.dataStore a n v).pipe = s.pipe := rfl

@[simp] theorem State.dataStore_mem (s : State) (a : Word) (n : Width) (v : Word) :
    (s.dataStore a n v).mem = s.mem.writeWidth a.toNat n v := rfl

@[simp] theorem State.dataStore_out (s : State) (a : Word) (n : Width) (v : Word) :
    (s.dataStore a n v).out = if s.cfg.inOut a then s.out ++ [outRecord a n v] else s.out := rfl

@[simp] theorem State.dataStore_reg (s : State) (a : Word) (n : Width) (v : Word) (r : Reg) :
    (s.dataStore a n v).reg r = s.reg r := rfl

@[simp] theorem State.dataLoad_reg (s : State) (a : Word) (n : Width) (r : Reg) :
    (s.dataLoad a n).2.reg r = s.reg r := by
  unfold State.dataLoad; split <;> rfl

/-! ## WriteBack (R257) -/

@[simp] theorem State.commitReg_cfg (s : State) (d : Option Reg) (v : Word) : (s.commitReg d v).cfg = s.cfg := by
  cases d <;> simp [State.commitReg]

@[simp] theorem State.commitReg_flags (s : State) (d : Option Reg) (v : Word) : (s.commitReg d v).flags = s.flags := by
  cases d <;> simp [State.commitReg]

@[simp] theorem State.commitReg_pc (s : State) (d : Option Reg) (v : Word) : (s.commitReg d v).pc = s.pc := by
  cases d <;> simp [State.commitReg]

@[simp] theorem State.commitReg_mem (s : State) (d : Option Reg) (v : Word) : (s.commitReg d v).mem = s.mem := by
  cases d <;> simp [State.commitReg]

@[simp] theorem State.commitReg_out (s : State) (d : Option Reg) (v : Word) : (s.commitReg d v).out = s.out := by
  cases d <;> simp [State.commitReg]

@[simp] theorem State.commitReg_status (s : State) (d : Option Reg) (v : Word) : (s.commitReg d v).status = s.status := by
  cases d <;> simp [State.commitReg]

@[simp] theorem State.commitReg_pipe (s : State) (d : Option Reg) (v : Word) : (s.commitReg d v).pipe = s.pipe := by
  cases d <;> simp [State.commitReg]

@[simp] theorem State.commitReg_caches (s : State) (d : Option Reg) (v : Word) : (s.commitReg d v).caches = s.caches := by
  cases d <;> simp [State.commitReg]

@[simp] theorem State.commitFlags_cfg (s : State) (f : Option Flags) : (s.commitFlags f).cfg = s.cfg := by
  cases f <;> rfl

@[simp] theorem State.commitFlags_regs (s : State) (f : Option Flags) : (s.commitFlags f).regs = s.regs := by
  cases f <;> rfl

@[simp] theorem State.commitFlags_pc (s : State) (f : Option Flags) : (s.commitFlags f).pc = s.pc := by
  cases f <;> rfl

@[simp] theorem State.commitFlags_mem (s : State) (f : Option Flags) : (s.commitFlags f).mem = s.mem := by
  cases f <;> rfl

@[simp] theorem State.commitFlags_out (s : State) (f : Option Flags) : (s.commitFlags f).out = s.out := by
  cases f <;> rfl

@[simp] theorem State.commitFlags_status (s : State) (f : Option Flags) : (s.commitFlags f).status = s.status := by
  cases f <;> rfl

@[simp] theorem State.commitFlags_pipe (s : State) (f : Option Flags) : (s.commitFlags f).pipe = s.pipe := by
  cases f <;> rfl

@[simp] theorem State.commitFlags_caches (s : State) (f : Option Flags) : (s.commitFlags f).caches = s.caches := by
  cases f <;> rfl

@[simp] theorem State.commitFlags_flags (s : State) (f : Option Flags) :
    (s.commitFlags f).flags = f.getD s.flags := by
  cases f <;> rfl

@[simp] theorem State.writeBack_cfg (s : State) : s.writeBack.cfg = s.cfg := by
  unfold State.writeBack; split
  · rfl
  · dsimp only; split <;> simp

@[simp] theorem State.writeBack_pc (s : State) : s.writeBack.pc = s.pc := by
  unfold State.writeBack; split
  · rfl
  · dsimp only; split <;> simp

@[simp] theorem State.writeBack_mem (s : State) : s.writeBack.mem = s.mem := by
  unfold State.writeBack; split
  · rfl
  · dsimp only; split <;> simp

@[simp] theorem State.writeBack_out (s : State) : s.writeBack.out = s.out := by
  unfold State.writeBack; split
  · rfl
  · dsimp only; split <;> simp

@[simp] theorem State.writeBack_pipe (s : State) : s.writeBack.pipe = s.pipe := by
  unfold State.writeBack; split
  · rfl
  · dsimp only; split <;> simp

@[simp] theorem State.writeBack_caches (s : State) : s.writeBack.caches = s.caches := by
  unfold State.writeBack; split
  · rfl
  · dsimp only; split <;> simp

/-- The status after WriteBack: halted if a `HALT` commits (R268). -/
theorem State.writeBack_status (s : State) :
    s.writeBack.status = if s.pipe.mw.any MW.halt then .halted else s.status := by
  unfold State.writeBack
  cases s.pipe.mw with
  | none => rfl
  | some m => cases h : m.halt <;> simp [h]

/-- The flags after WriteBack (R257). -/
theorem State.writeBack_flags (s : State) : s.writeBack.flags = (s.pipe.mw.bind MW.flags).getD s.flags := by
  unfold State.writeBack
  cases s.pipe.mw with
  | none => rfl
  | some m => cases h : m.halt <;> simp [h]

/-- The registers after WriteBack (R257). -/
theorem State.writeBack_reg (s : State) (r : Reg) :
    s.writeBack.reg r = if r ≠ 0 ∧ s.pipe.mw.bind MW.dest = some r
      then ((s.pipe.mw.map MW.value).getD 0) else s.reg r := by
  unfold State.writeBack
  cases s.pipe.mw with
  | none => simp
  | some m =>
    have key : ∀ t : State, (if m.halt then t.halt else t).reg r = t.reg r := by
      intro t; split <;> simp
    have kf : ∀ (t : State) (f : Option Flags), (t.commitFlags f).reg r = t.reg r := by
      intro t f; cases f <;> rfl
    simp only [key, kf, Option.bind_some, Option.map_some, Option.getD_some]
    cases hd : m.dest with
    | none => simp [State.commitReg]
    | some q =>
      simp only [State.commitReg, State.reg_setReg, Option.some.injEq]
      by_cases h : r = q
      · subst h; simp
      · have h' : q ≠ r := fun e => h e.symm
        simp [h, h']

theorem State.writeBack_slot_zero (s : State) : s.writeBack.regs[0] = s.regs[0] := by
  unfold State.writeBack
  cases s.pipe.mw with
  | none => rfl
  | some m =>
    have kf : ∀ (t : State) (f : Option Flags), (t.commitFlags f).regs = t.regs := by
      intro t f; cases f <;> rfl
    dsimp only
    split <;> simp only [State.halt_regs, kf] <;> cases m.dest <;>
      simp [State.commitReg, State.setReg_slot_zero]

/-! ## Memory (R258) -/

/-- Everything the Memory stage can do. -/
theorem State.memStage_cases (s : State) :
    (s.pipe.xm = none ∧ s.memStage = { next := s, mw := none, fault := none })
    ∨ (∃ x, s.pipe.xm = some x ∧ memOp x.d = none
      ∧ s.memStage = { next := s, mw := some (x.toMW x.result x.dest x.flags x.halt), fault := none })
    ∨ (∃ x k n f, s.pipe.xm = some x ∧ memOp x.d = some (k, n) ∧ accessFault s.cfg x.result n = some f
      ∧ s.memStage = { next := s, mw := none,
                       fault := some { kind := f, pc := x.pc, word := some x.word, addr := some x.result } })
    ∨ (∃ x n, s.pipe.xm = some x ∧ memOp x.d = some (.load, n) ∧ accessFault s.cfg x.result n = none
      ∧ s.memStage = { next := (s.dataLoad x.result n).2,
                       mw := some (x.toMW (s.dataLoad x.result n).1 x.dest none false), fault := none })
    ∨ (∃ x n, s.pipe.xm = some x ∧ memOp x.d = some (.store, n) ∧ accessFault s.cfg x.result n = none
      ∧ s.memStage = { next := s.dataStore x.result n x.sdata, mw := some (x.toMW 0 none none false),
                       fault := none }) := by
  unfold State.memStage
  cases hx : s.pipe.xm with
  | none => exact .inl ⟨rfl, rfl⟩
  | some x =>
    cases hm : memOp x.d with
    | none => exact .inr (.inl ⟨x, rfl, hm, by simp [hm]⟩)
    | some p =>
      obtain ⟨k, n⟩ := p
      cases hf : accessFault s.cfg x.result n with
      | some f => exact .inr (.inr (.inl ⟨x, k, n, f, rfl, hm, hf, by simp [hm, hf]⟩))
      | none =>
        cases k with
        | load => exact .inr (.inr (.inr (.inl ⟨x, n, rfl, hm, hf, by simp [hm, hf]⟩)))
        | store => exact .inr (.inr (.inr (.inr ⟨x, n, rfl, hm, hf, by simp [hm, hf]⟩)))

/-! ## Decode and Fetch (R263 to R266) -/

/-- Everything Decode can do with a valid entry. -/
theorem State.decodeEntry_cases (s : State) (p : Pipe) (f : FD) :
    (∃ k a, f.ffault = some (k, a) ∧ s.decodeEntry p f
      = { DecodeOut.idle with fault := some { kind := k, pc := f.pc, word := none, addr := some a } })
    ∨ (f.ffault = none ∧ decode f.word = none ∧ s.decodeEntry p f
      = { DecodeOut.idle with
          fault := some { kind := .invalidOpcode, pc := f.pc, word := some f.word, addr := none } })
    ∨ (∃ d, f.ffault = none ∧ decode f.word = some d ∧ loadUse p.dx d = true
      ∧ s.decodeEntry p f = { DecodeOut.idle with stall := true })
    ∨ (∃ d, f.ffault = none ∧ decode f.word = some d ∧ loadUse p.dx d = false ∧ s.decodeEntry p f
      = { DecodeOut.idle with
          dx := some { pc := f.pc, word := f.word, d := d, va := s.readSrc d.srcA, vb := s.readSrc d.srcB } }) := by
  unfold State.decodeEntry
  rcases hf : f.ffault with _ | ⟨k, a⟩
  · cases hd : decode f.word with
    | none => exact .inr (.inl ⟨rfl, rfl, rfl⟩)
    | some d =>
      cases hl : loadUse p.dx d
      · exact .inr (.inr (.inr ⟨d, rfl, rfl, hl, by simp [hl]⟩))
      · exact .inr (.inr (.inl ⟨d, rfl, rfl, hl, by simp [hl]⟩))
  · exact .inl ⟨k, a, rfl, rfl⟩

/-- Everything a fetch can do. -/
theorem State.fetchEntry_cases (s : State) (pc : Word) :
    (∃ f, accessFault s.cfg pc .word = some f ∧ s.fetchEntry pc
      = { next := s, fd := some { pc := pc, word := 0, ffault := some (f, pc) }, fpc := pc + 4 })
    ∨ (accessFault s.cfg pc .word = none ∧ s.fetchEntry pc
      = { next := (s.dataLoad pc .word).2,
          fd := some { pc := pc, word := (s.dataLoad pc .word).1, ffault := none }, fpc := pc + 4 }) := by
  unfold State.fetchEntry
  cases h : accessFault s.cfg pc .word <;> simp

/-! ## Execute (R260) -/

/-- `ALU` answers none exactly for a division with a zero divisor. -/
theorem alu_eq_none {i : Instr} {a b : Word} (h : alu i a b = none) :
    b = 0 ∧ (∃ rd rs1 rs2, i = .div rd rs1 rs2) ∨ b = 0 ∧ (∃ rd rs1 imm, i = .divi rd rs1 imm)
    ∨ b = 0 ∧ (∃ rd rs1 rs2, i = .mod rd rs1 rs2) ∨ b = 0 ∧ (∃ rd rs1 imm, i = .modi rd rs1 imm) := by
  cases i <;> simp_all [alu, divFlags_eq_none, modFlags_eq_none]

/-- A class A instruction's result carries flags exactly when it writes flags (R260). -/
theorem alu_flags {i : Instr} {a b : Word} {r : Word × Option Flags} (h : alu i a b = some r) :
    r.2.isSome = i.writesFlags := by
  cases i <;> simp only [alu, Option.some.injEq, Option.map_eq_some_iff, withFlags] at h <;>
    obtain ⟨x, -, rfl⟩ := h <;> rfl

/-- An instruction of class A or C makes no memory access; one of class M does. -/
theorem memOp_isSome (i : Instr) : (memOp i).isSome = true ↔ i.cls = .m := by
  cases i <;> simp [memOp, Instr.cls]

/-- What the next `XM` tells about the `DX` it came from. -/
structure XM.From (x : XM) (y : DX) : Prop where
  pc    : x.pc = y.pc
  word  : x.word = y.word
  d     : x.d = y.d
  dest  : x.dest = y.d.dest
  flags : x.flags.isSome = y.d.writesFlags
  halt  : x.halt = (y.d == .halt)

/-- Everything Execute can do with a valid `DX`: the fault of a zero divisor, or an `XM` entry. -/
theorem Pipe.execute_cases (p : Pipe) (flags0 : Flags) (y : DX) :
    (y.d.cls = .a ∧ alu y.d (p.fwd y.d.srcA y.va) (if y.d.srcB.isSome then p.fwd y.d.srcB y.vb else y.d.immWord.getD 0)
        = none
      ∧ p.execute flags0 y = { ExecOut.idle with
          fault := some { kind := .arithmeticFault, pc := y.pc, word := some y.word, addr := none } })
    ∨ (∃ x, x.From y ∧ p.execute flags0 y =
        { xm := some x, redirect := redirect y.d y.pc (p.fwd y.d.srcA y.va) (p.fwdFlags flags0),
          stop := y.d == .halt, fault := none }) := by
  unfold Pipe.execute
  cases hc : y.d.cls with
  | a =>
    dsimp only
    cases ha : alu y.d (p.fwd y.d.srcA y.va) (if y.d.srcB.isSome then p.fwd y.d.srcB y.vb else y.d.immWord.getD 0) with
    | none => exact .inl ⟨rfl, rfl, rfl⟩
    | some r =>
      obtain ⟨r, f⟩ := r
      refine .inr ⟨{ y.toXM with result := r, flags := f, dest := y.d.dest },
        ⟨rfl, rfl, rfl, rfl, alu_flags ha, ?_⟩, ?_⟩ <;>
        (cases hd : y.d <;> simp_all [Instr.cls, redirect, ExecOut.idle, DX.toXM])
  | m =>
    refine .inr ⟨{ y.toXM with
        result := p.fwd y.d.srcA y.va + y.d.immWord.getD 0
        sdata := if isStore y.d then p.fwd y.d.srcB y.vb else 0
        dest := y.d.dest }, ⟨rfl, rfl, rfl, rfl, ?_, ?_⟩, ?_⟩ <;>
      (cases hd : y.d <;> simp_all [Instr.cls, Instr.writesFlags, DX.toXM, redirect, ExecOut.idle])
  | c =>
    refine .inr ⟨{ y.toXM with
        result := if y.d.dest.isSome then y.pc + 4 else 0
        dest := y.d.dest
        halt := y.d == .halt }, ⟨rfl, rfl, rfl, rfl, ?_, rfl⟩, rfl⟩
    cases hd : y.d <;> simp_all [Instr.cls, Instr.writesFlags, DX.toXM]

/-- Everything the Execute stage can do: nothing, or what Execute does with the `DX` entry. -/
theorem Pipe.execStage_cases (p : Pipe) (flags0 : Flags) (killed : Bool) :
    ((p.dx = none ∨ killed = true) ∧ p.execStage flags0 killed = ExecOut.idle)
    ∨ (∃ y, p.dx = some y ∧ killed = false ∧ p.execStage flags0 killed = p.execute flags0 y) := by
  unfold Pipe.execStage
  cases p.dx with
  | none => exact .inl ⟨.inl rfl, rfl⟩
  | some y => cases killed <;> simp

/-- Everything the Decode stage can do: nothing, or what Decode does with the `FD` entry. -/
theorem State.decodeStage_cases (s : State) (p : Pipe) (squashed : Bool) :
    ((p.fd = none ∨ squashed = true) ∧ s.decodeStage p squashed = DecodeOut.idle)
    ∨ (∃ f, p.fd = some f ∧ squashed = false ∧ s.decodeStage p squashed = s.decodeEntry p f) := by
  unfold State.decodeStage
  cases p.fd with
  | none => exact .inl ⟨.inl rfl, rfl⟩
  | some y => cases squashed <;> simp

/-- Everything the Fetch stage can do (R266). -/
theorem State.fetchStage_cases (s : State) (p : Pipe) (squash : Bool) (redirect : Option Word) (stall : Bool) :
    (squash = true ∧ s.fetchStage p squash redirect stall = { next := s, fd := none, fpc := redirect.getD p.fpc })
    ∨ (squash = false ∧ stall = true
      ∧ s.fetchStage p squash redirect stall = { next := s, fd := p.fd, fpc := p.fpc })
    ∨ (squash = false ∧ stall = false ∧ p.fetchEnable = true
      ∧ s.fetchStage p squash redirect stall = s.fetchEntry p.fpc)
    ∨ (squash = false ∧ stall = false ∧ p.fetchEnable = false
      ∧ s.fetchStage p squash redirect stall = { next := s, fd := none, fpc := p.fpc }) := by
  unfold State.fetchStage
  cases squash <;> cases stall <;> cases p.fetchEnable <;> simp

/-! ## What the stages leave alone, and the report of a fault -/

/-- The Memory stage writes no register, no parameter and no status. -/
theorem State.memStage_next (s : State) :
    s.memStage.next.cfg = s.cfg ∧ s.memStage.next.status = s.status ∧ s.memStage.next.flags = s.flags
    ∧ s.memStage.next.pc = s.pc ∧ s.memStage.next.regs = s.regs := by
  rcases s.memStage_cases with ⟨_, e⟩ | ⟨_, _, _, e⟩ | ⟨_, _, _, _, _, _, _, e⟩ | ⟨_, _, _, _, _, e⟩ |
    ⟨_, _, _, _, _, e⟩ <;> rw [e] <;> simp

/-- The Fetch stage changes nothing but the caches. -/
theorem State.fetchStage_next (s : State) (p : Pipe) (squash : Bool) (redirect : Option Word) (stall : Bool) :
    (s.fetchStage p squash redirect stall).next
      = { s with caches := (s.fetchStage p squash redirect stall).next.caches } := by
  have key : ∀ (a : Word) (n : Width), (s.dataLoad a n).2 = { s with caches := (s.dataLoad a n).2.caches } := by
    intro a n; unfold State.dataLoad; split <;> rfl
  rcases s.fetchStage_cases p squash redirect stall with ⟨_, e⟩ | ⟨_, _, e⟩ | ⟨_, _, _, e⟩ | ⟨_, _, _, e⟩ <;> rw [e]
  rcases s.fetchEntry_cases p.fpc with ⟨_, _, e⟩ | ⟨_, e⟩ <;> rw [e]
  exact key _ _

/-- Reporting a fault changes the status and nothing else: a pending fault, once every latch is empty (R267). -/
theorem State.reportFault_cases (s : State) :
    s.reportFault = s
    ∨ (∃ d, s.pipe.pendingFault = some d ∧ s.status = .running ∧ s.pipe.fd = none ∧ s.pipe.dx = none
      ∧ s.pipe.xm = none ∧ s.pipe.mw = none ∧ s.reportFault = { s with status := .faulted d }) := by
  unfold State.reportFault
  split
  · exact .inl rfl
  · split
    · rename_i d hd h
      exact .inr ⟨d, hd, h.1, h.2.1, h.2.2.1, h.2.2.2.1, h.2.2.2.2, rfl⟩
    · exact .inl rfl

/-! ## A cycle -/

/-- A cycle changes nothing, waits, or advances (R253, R256). -/
theorem clock_cases (s : State) :
    (s.status ≠ .running ∧ clock s = s)
    ∨ (s.status = .running ∧ s.waits = true ∧ clock s = s.countCycle.waitCycle)
    ∨ (s.status = .running ∧ s.waits = false ∧ clock s = s.countCycle.advance) := by
  unfold clock
  cases s.status with
  | running => cases h : s.waits <;> simp
  | halted => simp
  | faulted d => simp

end Sys2Proof.Machine
end

