-- ==== Sys2Proof/Tests/Slice0.lean ====
section
/-!
SUPPORT. Tests: ill-formed terms that the checks refuse; one word per constructor, written out from the formats and
numbers of 30_encoding.md R102 to R112, and the instruction it decodes to; small one-step tests whose results come
from the examples and corner cases of the spec's instruction rules; and for every obligation that has hypotheses a
concrete case that meets them.
-/
namespace Sys2Proof.Tests
open Sys2Proof Sys2Proof.Machine

/-! ## What the checks refuse -/

theorem test_wf_imm_below : (Instr.addi 1 2 (-16385)).wf = false := by decide

theorem test_wf_imm_above : (Instr.cmpi 1 16384).wf = false := by decide

theorem test_wf_off_below : (Instr.ldr 1 2 (-16385)).wf = false := by decide

theorem test_wf_off_above : (Instr.strb 1 2 16384).wf = false := by decide

theorem test_wf_branch_below : (Instr.beq (-2097153)).wf = false := by decide

theorem test_wf_branch_above : (Instr.bl 2097152).wf = false := by decide

theorem test_config_mem_block : Config.wf { Config.default with memSize := 0x1000F } = false := by decide

theorem test_config_mem_small : Config.wf { Config.default with memSize := 0, mmioBase := 0, mmioSize := 0 } = false := by decide

theorem test_config_mem_large : Config.wf { Config.default with memSize := 2 ^ 32 + 16 } = false := by decide

theorem test_config_mmio_base : Config.wf { Config.default with mmioBase := 0xE008 } = false := by decide

theorem test_config_mmio_size : Config.wf { Config.default with mmioSize := 8 } = false := by decide

theorem test_config_mmio_end : Config.wf { Config.default with mmioSize := 0x1010 } = false := by decide

theorem test_config_prog_base : Config.wf { Config.default with progBase := 2 } = false := by decide

theorem test_config_entry : Config.wf { Config.default with entry := 6 } = false := by decide

theorem test_config_l1 : Config.wf { Config.default with l1Lat := 0 } = false := by decide

theorem test_config_l2 : Config.wf { Config.default with l2Lat := 0 } = false := by decide

theorem test_config_mem_lat : Config.wf { Config.default with memLat := 0 } = false := by decide

theorem test_config_default : Config.default.wf = true := by decide

theorem test_memory_order : Memory.wf { cells := [(4, 1), (3, 1)] } = false := by decide

theorem test_memory_twice : Memory.wf { cells := [(4, 1), (4, 2)] } = false := by decide

theorem test_memory_zero : Memory.wf { cells := [(4, 0)] } = false := by decide

theorem test_reset_program_too_long :
    ResetInput.ok { Config.default with memSize := 16, mmioBase := 0, mmioSize := 0 }
      { ResetInput.empty with program := [0, 0, 0, 0, 0] } = false := by decide

theorem test_reset_memory_outside :
    ResetInput.ok Config.default { ResetInput.empty with initMem := [(0x10000, 1)] } = false := by decide

theorem test_reset_register_outside :
    ResetInput.ok Config.default { ResetInput.empty with initRegs := [(32, 1)] } = false := by decide

theorem test_reset_register_twice :
    ResetInput.ok Config.default { ResetInput.empty with initRegs := [(3, 1), (3, 1)] } = false := by decide

theorem test_reset_memory_twice :
    ResetInput.ok Config.default { ResetInput.empty with initMem := [(3, 1), (3, 2)] } = false := by decide

/-! ## Decoding

Each word is written bit by bit: class, op4, then the fields of its format. -/

theorem test_decode_add : decode 0b00000100001000111111100000000000 = some (.add 2 7 30) := by decide

theorem test_decode_addi : decode 0b00000110001000111011111111111111 = some (.addi 2 7 16383) := by decide

theorem test_decode_sub : decode 0b00001000001101001111010000000000 = some (.sub 3 9 29) := by decide

theorem test_decode_subi : decode 0b00001010001101001000000000000111 = some (.subi 3 9 7) := by decide

theorem test_decode_mul : decode 0b00001100010001011111000000000000 = some (.mul 4 11 28) := by decide

theorem test_decode_muli : decode 0b00001110010001011100000000000000 = some (.muli 4 11 (-16384)) := by decide

theorem test_decode_div : decode 0b00010000010101101110110000000000 = some (.div 5 13 27) := by decide

theorem test_decode_divi : decode 0b00010010010101101000000100000000 = some (.divi 5 13 256) := by decide

theorem test_decode_mod : decode 0b00010100011001111110100000000000 = some (.mod 6 15 26) := by decide

theorem test_decode_modi : decode 0b00010110011001111111111100000000 = some (.modi 6 15 (-256)) := by decide

theorem test_decode_and : decode 0b00011000011110001110010000000000 = some (.and 7 17 25) := by decide

theorem test_decode_andi : decode 0b00011010011110001111111111111111 = some (.andi 7 17 (-1)) := by decide

theorem test_decode_or : decode 0b00011100100010011110000000000000 = some (.or 8 19 24) := by decide

theorem test_decode_ori : decode 0b00011110100010011011111111111111 = some (.ori 8 19 16383) := by decide

theorem test_decode_xor : decode 0b00100000100110101101110000000000 = some (.xor 9 21 23) := by decide

theorem test_decode_xori : decode 0b00100010100110101000000000000111 = some (.xori 9 21 7) := by decide

theorem test_decode_shl : decode 0b00100100101010111101100000000000 = some (.shl 10 23 22) := by decide

theorem test_decode_shli : decode 0b00100110101010111100000000000000 = some (.shli 10 23 (-16384)) := by decide

theorem test_decode_shr : decode 0b00101000101111001101010000000000 = some (.shr 11 25 21) := by decide

theorem test_decode_shri : decode 0b00101010101111001000000100000000 = some (.shri 11 25 256) := by decide

theorem test_decode_sar : decode 0b00101100110011011101000000000000 = some (.sar 12 27 20) := by decide

theorem test_decode_sari : decode 0b00101110110011011111111100000000 = some (.sari 12 27 (-256)) := by decide

theorem test_decode_cmp : decode 0b00110000000011101100110000000000 = some (.cmp 29 19) := by decide

theorem test_decode_cmpi : decode 0b00110010000011101100000000000000 = some (.cmpi 29 (-16384)) := by decide

theorem test_decode_ldr : decode 0b01000000001111100000000000000100 = some (.ldr 3 28 4) := by decide

theorem test_decode_str : decode 0b01000100010011011111111111111100 = some (.str 4 27 (-4)) := by decide

theorem test_decode_ldrb : decode 0b01001000010111010100000000000000 = some (.ldrb 5 26 (-16384)) := by decide

theorem test_decode_strb : decode 0b01001100011011001011111111111111 = some (.strb 6 25 16383) := by decide

theorem test_decode_b : decode 0b10000000000000000000000000000011 = some (.b 3) := by decide

theorem test_decode_beq : decode 0b10000000011111111111111111111110 = some (.beq (-2)) := by decide

theorem test_decode_bne : decode 0b10000000100111111111111111111111 = some (.bne 2097151) := by decide

theorem test_decode_blt : decode 0b10000000111000000000000000000000 = some (.blt (-2097152)) := by decide

theorem test_decode_bge : decode 0b10000001000000000000000000000011 = some (.bge 3) := by decide

theorem test_decode_bgt : decode 0b10000001011111111111111111111110 = some (.bgt (-2)) := by decide

theorem test_decode_ble : decode 0b10000001100111111111111111111111 = some (.ble 2097151) := by decide

theorem test_decode_blo : decode 0b10000001111000000000000000000000 = some (.blo (-2097152)) := by decide

theorem test_decode_bhs : decode 0b10000010000000000000000000000011 = some (.bhs 3) := by decide

theorem test_decode_bhi : decode 0b10000010011111111111111111111110 = some (.bhi (-2)) := by decide

theorem test_decode_bls : decode 0b10000010100111111111111111111111 = some (.bls 2097151) := by decide

theorem test_decode_bmi : decode 0b10000010111000000000000000000000 = some (.bmi (-2097152)) := by decide

theorem test_decode_bpl : decode 0b10000011000000000000000000000011 = some (.bpl 3) := by decide

theorem test_decode_bvs : decode 0b10000011011111111111111111111110 = some (.bvs (-2)) := by decide

theorem test_decode_bvc : decode 0b10000011100111111111111111111111 = some (.bvc 2097151) := by decide

theorem test_decode_bl : decode 0b10000100001111111111111111111111 = some (.bl (-1)) := by decide

theorem test_decode_jr : decode 0b10001000000011110000000000000000 = some (.jr 30) := by decide

theorem test_decode_nop : decode 0b10001100000000000000000000000000 = some (.nop) := by decide

theorem test_decode_halt : decode 0b10111100000000000000000000000000 = some (.halt) := by decide

theorem test_decode_reserved_register_form : decode 0x04208401 = none := by decide

theorem test_decode_reserved_compare : decode 0x30108800 = none := by decide

theorem test_decode_reserved_nop : decode 0x8C000001 = none := by decide

theorem test_table_word : decodeTableWord 32 0x0610000A = some (.addi 1 0 10) := by decide

/-! ## One-step tests -/

/-- The reset state with some registers set. -/
def withRegs (l : List (Nat × Word)) : State := { State.reset with regs := loadRegs l }

/-- The flags of a tuple written `NZCV`. -/
def nzcv (n z c v : Bool) : Flags := { n := n, z := z, c := c, v := v }

/-- The reset state with the given flags, at address 0x20. -/
def withFlags4 (n z c v : Bool) : State := { State.reset with flags := nzcv n z c v, pc := 0x20 }

/-- A register and the flags after an instruction. -/
def regFlags (r : Result) (q : Reg) : Option (Word × Flags) :=
  match r with
  | .next t => some (t.reg q, t.flags)
  | .fault _ => none
  | .refused _ => none

/-- A register and the `pc` after an instruction. -/
def regPc (r : Result) (q : Reg) : Option (Word × Word) :=
  match r with
  | .next t => some (t.reg q, t.pc)
  | .fault _ => none
  | .refused _ => none

/-- The status after an instruction. -/
def statusOf (r : Result) : Option Status :=
  match r with
  | .next t => some t.status
  | .fault _ => none
  | .refused _ => none

/-- A byte of memory and the output log after an instruction. -/
def byteOut (r : Result) (a : Nat) : Option (Byte × List OutRec) :=
  match r with
  | .next t => some (t.mem.read a, t.out)
  | .fault _ => none
  | .refused _ => none

/-- The machine after a step or an instruction that answers a next state, else the given one. -/
def nextOr (r : Result) (s : State) : State :=
  match r with
  | .next t => t
  | .fault _ => s
  | .refused _ => s

theorem test_add_overflow : regFlags (exec (.add 3 1 2) (withRegs [(1, 0x7FFFFFFF), (2, 1)])) 3
    = some (0x80000000, nzcv true false false true) := by decide

theorem test_addi_carry : regFlags (exec (.addi 1 1 (-1)) (withRegs [(1, 1)])) 1
    = some (0, nzcv false true true false) := by decide

theorem test_sub : regFlags (exec (.sub 3 1 2) (withRegs [(1, 10), (2, 30)])) 3
    = some (0xFFFFFFEC, nzcv true false false false) := by decide

theorem test_sub_overflow : regFlags (exec (.sub 3 1 2) (withRegs [(1, 0x80000000), (2, 1)])) 3
    = some (0x7FFFFFFF, nzcv false false true true) := by decide

theorem test_subi : regFlags (exec (.subi 1 1 5) (withRegs [(1, 5)])) 1
    = some (0, nzcv false true true false) := by decide

theorem test_mul : regFlags (exec (.mul 3 1 2) (withRegs [(1, 0x10000), (2, 0x10000)])) 3
    = some (0, nzcv false true true true) := by decide

theorem test_mul_signed : regFlags (exec (.mul 3 1 2) (withRegs [(1, 0x7FFFFFFF), (2, 2)])) 3
    = some (0xFFFFFFFE, nzcv true false false true) := by decide

theorem test_muli : regFlags (exec (.muli 3 1 (-1)) (withRegs [(1, 5)])) 3
    = some (0xFFFFFFFB, nzcv true false true false) := by decide

theorem test_div : regFlags (exec (.div 3 1 2) (withRegs [(1, 0xFFFFFFF9), (2, 2)])) 3
    = some (0xFFFFFFFD, nzcv true false false false) := by decide

theorem test_div_overflow : regFlags (exec (.div 3 1 2) (withRegs [(1, 0x80000000), (2, 0xFFFFFFFF)])) 3
    = some (0x80000000, nzcv true false false true) := by decide

theorem test_divi : regFlags (exec (.divi 3 1 2) (withRegs [(1, 0xFFFFFFF9)])) 3
    = some (0xFFFFFFFD, nzcv true false false false) := by decide

theorem test_mod : regFlags (exec (.mod 3 1 2) (withRegs [(1, 7), (2, 0xFFFFFFFE)])) 3
    = some (1, nzcv false false false false) := by decide

theorem test_mod_minimum : regFlags (exec (.mod 3 1 2) (withRegs [(1, 0x80000000), (2, 0xFFFFFFFF)])) 3
    = some (0, nzcv false true false false) := by decide

theorem test_modi : regFlags (exec (.modi 3 1 2) (withRegs [(1, 0xFFFFFFF9)])) 3
    = some (0xFFFFFFFF, nzcv true false false false) := by decide

theorem test_cmp : regFlags (exec (.cmp 1 2) (withRegs [(1, 0x80000000), (2, 0x7FFFFFFF)])) 1
    = some (0x80000000, nzcv false false true true) := by decide

theorem test_cmpi : regFlags (exec (.cmpi 1 5) (withRegs [(1, 5)])) 1
    = some (5, nzcv false true true false) := by decide

theorem test_and : regFlags (exec (.and 3 1 2) (withRegs [(1, 0xF0F0F0F0), (2, 0xFF00FF00)])) 3
    = some (0xF000F000, nzcv false false false false) := by decide

theorem test_andi : regFlags (exec (.andi 3 1 (-256)) (withRegs [(1, 0x12345678)])) 3
    = some (0x12345600, nzcv false false false false) := by decide

theorem test_or : regFlags (exec (.or 3 1 2) (withRegs [(1, 0xF0F0F0F0), (2, 0xFF00FF00)])) 3
    = some (0xFFF0FFF0, nzcv false false false false) := by decide

theorem test_ori : regFlags (exec (.ori 3 1 (-1)) (withRegs [(1, 0x12345678)])) 3
    = some (0xFFFFFFFF, nzcv false false false false) := by decide

theorem test_xor : regFlags (exec (.xor 3 1 2) (withRegs [(1, 0xF0F0F0F0), (2, 0xFF00FF00)])) 3
    = some (0x0FF00FF0, nzcv false false false false) := by decide

theorem test_xori : regFlags (exec (.xori 3 1 (-1)) (withRegs [(1, 0x0F0F0F0F)])) 3
    = some (0xF0F0F0F0, nzcv false false false false) := by decide

theorem test_shl : regFlags (exec (.shl 3 1 2) (withRegs [(1, 1), (2, 32)])) 3
    = some (1, nzcv false false false false) := by decide

theorem test_shli : regFlags (exec (.shli 5 5 40) (withRegs [(5, 0xF0)])) 5
    = some (0xF000, nzcv false false false false) := by decide

theorem test_shr : regFlags (exec (.shr 3 1 2) (withRegs [(1, 16), (2, 36)])) 3
    = some (1, nzcv false false false false) := by decide

theorem test_shri : regFlags (exec (.shri 3 1 1) (withRegs [(1, 0x80000000)])) 3
    = some (0x40000000, nzcv false false false false) := by decide

theorem test_sar : regFlags (exec (.sar 3 1 2) (withRegs [(1, 0x80000000), (2, 63)])) 3
    = some (0xFFFFFFFF, nzcv false false false false) := by decide

theorem test_sari : regFlags (exec (.sari 3 1 1) (withRegs [(1, 0x80000000)])) 3
    = some (0xC0000000, nzcv false false false false) := by decide

theorem test_zero_destination : regFlags (exec (.add 0 1 1) (withRegs [(1, 0xFFFFFFFF)])) 0
    = some (0, nzcv true false true false) := by decide

theorem test_divi_zero : statusOf (exec (.divi 0 1 0) (withRegs [(1, 7)]))
    = some (.faulted { kind := .arithmeticFault, pc := 0, word := some 0x12008000, addr := none }) := by decide

/-- The reset state with some bytes of memory and some registers set. -/
def withMem (m : List Host.Cell) (l : List (Nat × Word)) : State := { withRegs l with mem := loadImage m }

theorem test_ldr : regFlags (exec (.ldr 6 5 0) (withMem [(0x100, 0x1E), (0x103, 0x80)] [(5, 0x100)])) 6
    = some (0x8000001E, nzcv false false false false) := by decide

theorem test_ldr_misaligned : statusOf (exec (.ldr 6 5 2) (withRegs [(5, 0x100)]))
    = some (.faulted { kind := .misalignedAccess, pc := 0, word := some 0x40628002, addr := some 0x102 }) := by decide

theorem test_ldrb : regFlags (exec (.ldrb 2 6 (-1)) (withMem [(0x100, 0xFB)] [(6, 0x101)])) 2
    = some (0xFB, nzcv false false false false) := by decide

theorem test_str : byteOut (exec (.str 3 5 0) (withRegs [(3, 0x1234ABCD), (5, 0x100)])) 0x101
    = some (0xAB, []) := by decide

theorem test_str_unmapped : statusOf (exec (.str 3 5 0) (withRegs [(5, 0x10000)]))
    = some (.faulted { kind := .unmappedAddress, pc := 0, word := some 0x44328000, addr := some 0x10000 }) := by
  decide

theorem test_strb : byteOut (exec (.strb 1 6 3) (withRegs [(1, 0x1234ABCD), (6, 0xF000)])) 0xF003
    = some (0xCD, [.byte 0xF003 0xCD]) := by decide

theorem test_b_taken : regPc (exec (.b 3) (withFlags4 false false false false)) 31 = some (0, 0x2C) := by decide

theorem test_beq_taken : regPc (exec (.beq 3) (withFlags4 false true false false)) 31 = some (0, 0x2C) := by decide

theorem test_beq_untaken : regPc (exec (.beq 3) (withFlags4 true false true true)) 31 = some (0, 0x24) := by decide

theorem test_bne_taken : regPc (exec (.bne 3) (withFlags4 true false true true)) 31 = some (0, 0x2C) := by decide

theorem test_bne_untaken : regPc (exec (.bne 3) (withFlags4 false true false false)) 31 = some (0, 0x24) := by decide

theorem test_blt_taken : regPc (exec (.blt 3) (withFlags4 true false true false)) 31 = some (0, 0x2C) := by decide

theorem test_blt_untaken : regPc (exec (.blt 3) (withFlags4 true true true true)) 31 = some (0, 0x24) := by decide

theorem test_bge_taken : regPc (exec (.bge 3) (withFlags4 true true true true)) 31 = some (0, 0x2C) := by decide

theorem test_bge_untaken : regPc (exec (.bge 3) (withFlags4 false false false true)) 31 = some (0, 0x24) := by decide

theorem test_bgt_taken : regPc (exec (.bgt 3) (withFlags4 true false false true)) 31 = some (0, 0x2C) := by decide

theorem test_bgt_untaken : regPc (exec (.bgt 3) (withFlags4 true true false true)) 31 = some (0, 0x24) := by decide

theorem test_ble_taken : regPc (exec (.ble 3) (withFlags4 false true false true)) 31 = some (0, 0x2C) := by decide

theorem test_ble_untaken : regPc (exec (.ble 3) (withFlags4 true false false true)) 31 = some (0, 0x24) := by decide

theorem test_blo_taken : regPc (exec (.blo 3) (withFlags4 true true false true)) 31 = some (0, 0x2C) := by decide

theorem test_blo_untaken : regPc (exec (.blo 3) (withFlags4 false false true false)) 31 = some (0, 0x24) := by decide

theorem test_bhs_taken : regPc (exec (.bhs 3) (withFlags4 false false true false)) 31 = some (0, 0x2C) := by decide

theorem test_bhs_untaken : regPc (exec (.bhs 3) (withFlags4 true true false true)) 31 = some (0, 0x24) := by decide

theorem test_bhi_taken : regPc (exec (.bhi 3) (withFlags4 false false true false)) 31 = some (0, 0x2C) := by decide

theorem test_bhi_untaken : regPc (exec (.bhi 3) (withFlags4 false true true false)) 31 = some (0, 0x24) := by decide

theorem test_bls_taken : regPc (exec (.bls 3) (withFlags4 false true true false)) 31 = some (0, 0x2C) := by decide

theorem test_bls_untaken : regPc (exec (.bls 3) (withFlags4 false false true false)) 31 = some (0, 0x24) := by decide

theorem test_bmi_taken : regPc (exec (.bmi 3) (withFlags4 true false false false)) 31 = some (0, 0x2C) := by decide

theorem test_bmi_untaken : regPc (exec (.bmi 3) (withFlags4 false true true true)) 31 = some (0, 0x24) := by decide

theorem test_bpl_taken : regPc (exec (.bpl 3) (withFlags4 false true true true)) 31 = some (0, 0x2C) := by decide

theorem test_bpl_untaken : regPc (exec (.bpl 3) (withFlags4 true false false false)) 31 = some (0, 0x24) := by decide

theorem test_bvs_taken : regPc (exec (.bvs 3) (withFlags4 false false false true)) 31 = some (0, 0x2C) := by decide

theorem test_bvs_untaken : regPc (exec (.bvs 3) (withFlags4 true true true false)) 31 = some (0, 0x24) := by decide

theorem test_bvc_taken : regPc (exec (.bvc 3) (withFlags4 true true true false)) 31 = some (0, 0x2C) := by decide

theorem test_bvc_untaken : regPc (exec (.bvc 3) (withFlags4 false false false true)) 31 = some (0, 0x24) := by decide

theorem test_b_backwards : regPc (exec (.b (-2)) (withFlags4 false false false false)) 31 = some (0, 0x18) := by
  decide

theorem test_bl : regPc (exec (.bl 4) { State.reset with pc := 8 }) 31 = some (0xC, 0x18) := by decide

theorem test_jr : regPc (exec (.jr 31) (withRegs [(31, 0xE)])) 31 = some (0xE, 0xE) := by decide

theorem test_nop : regPc (exec .nop { State.reset with pc := 0xFFFFFFFC }) 1 = some (0, 0) := by decide

theorem test_halt : statusOf (exec .halt State.reset) = some .halted := by decide

theorem test_step_runs_placed_word : regFlags (step (State.reset.withFetchWord 32 0x0610000A)) 1
    = some (10, nzcv false false false false) := by decide

/-! ## Witnesses: a case that meets the hypotheses of each statement that has some

The name says the statement; each clause of a statement over one input has its own case, at a boundary where it has
one. -/

theorem witness_DecodeOfEncode : (Instr.addi 31 0 (-16384)).wf = true ∧ (Instr.bvc 2097151).wf = true := by decide

theorem witness_EncodeOfDecode : decode 0xBC000000 = some .halt ∧ decode 0x4DFFFFFF = some (.strb 31 31 (-1)) := by
  decide

theorem witness_LegalWordsMatchOneRow :
    ∃ r ∈ opcodeRows, r.matchesWord 0x0610000A = true ∧ decode 0x0610000A = some (.addi 1 0 10) :=
  ⟨⟨"ADDI", 0x06000000, 0xFE000000⟩, by decide, by decide, by decide⟩

theorem witness_DescriptorFieldsAreTheSlices :
    decode 0x33F7FFFF = none ∧ decode 0x3207FFFF = some (.cmpi 15 (-1)) ∧ (Instr.cmpi 15 (-1)).cls = .a
    ∧ decode 0x44328000 = some (.str 3 5 0) ∧ (Instr.str 3 5 0).cls = .m
    ∧ decode 0x84200000 = some (.bl (-2097152)) ∧ (Instr.bl (-2097152)).cls = .c := by decide

/-- A running machine with the word of `addi r1, r0, 10` at the last word of memory. -/
def atLastWord : State :=
  { State.reset with pc := 0xFFFC, mem := loadImage [(0xFFFC, 0x0A), (0xFFFE, 0x10), (0xFFFF, 0x06)] }

theorem witness_StepRunsTheDecodedInstruction :
    atLastWord.status = .running ∧ atLastWord.pc.toNat % 4 = 0 ∧ atLastWord.pc.toNat + 4 ≤ atLastWord.cfg.memSize
    ∧ decode (atLastWord.mem.read (atLastWord.pc.toNat + 3) ++ atLastWord.mem.read (atLastWord.pc.toNat + 2)
        ++ atLastWord.mem.read (atLastWord.pc.toNat + 1) ++ atLastWord.mem.read atLastWord.pc.toNat)
      = some (.addi 1 0 10) := by decide

theorem witness_FetchAndDecodeFaults_misaligned :
    ({ State.reset with pc := 0x10001 } : State).status = .running
    ∧ ({ State.reset with pc := 0x10001 } : State).pc.toNat % 4 ≠ 0 := by decide

theorem witness_FetchAndDecodeFaults_unmapped :
    ({ State.reset with pc := 0x10000 } : State).status = .running
    ∧ ({ State.reset with pc := 0x10000 } : State).pc.toNat % 4 = 0
    ∧ ({ State.reset with pc := 0x10000 } : State).cfg.memSize
      < ({ State.reset with pc := 0x10000 } : State).pc.toNat + 4 := by decide

theorem witness_FetchAndDecodeFaults_illegal :
    ({ State.reset with pc := 0xFFFC } : State).status = .running
    ∧ ({ State.reset with pc := 0xFFFC } : State).pc.toNat % 4 = 0
    ∧ ({ State.reset with pc := 0xFFFC } : State).pc.toNat + 4
      ≤ ({ State.reset with pc := 0xFFFC } : State).cfg.memSize
    ∧ ({ State.reset with pc := 0xFFFC } : State).mem.readWord
        ({ State.reset with pc := 0xFFFC } : State).pc.toNat = 0
    ∧ decode 0 = none := by decide

theorem witness_TerminalStatusIsFinal : State.reset.halt.status ≠ .running
    ∧ (State.reset.raise .invalidOpcode (some 0) none).status ≠ .running := by decide

theorem witness_DivisionRoundsTowardZero_register :
    (withRegs [(1, 0x80000000), (2, 0xFFFFFFFF)]).reg 2 ≠ 0 := by decide

theorem witness_DivisionRoundsTowardZero_immediate : imm15Ok (-16384) = true ∧ (-16384 : Int) ≠ 0 := by decide

theorem witness_ZeroDivisorFaults : (withRegs [(1, 7)]).reg 2 = 0 := by decide

theorem witness_QuotientAndRemainderIdentity : (3 : Reg) ≠ 0 ∧ (withRegs [(1, 7), (2, 2)]).reg 2 ≠ 0 := by decide

theorem witness_ConditionsAfterCompareMeanComparisons :
    exec (.cmp 1 2) (withRegs [(1, 0x80000000), (2, 1)])
      = .next (nextOr (exec (.cmp 1 2) (withRegs [(1, 0x80000000), (2, 1)])) State.reset)
    ∧ exec (.cmpi 1 5) (withRegs [(1, 5)]) = .next (nextOr (exec (.cmpi 1 5) (withRegs [(1, 5)])) State.reset) :=
  ⟨rfl, rfl⟩

theorem witness_LoadsReadMemory_word :
    (effectiveAddress ((withRegs [(5, 0x10000)]).reg 5) (-4)).toNat % 4 = 0
    ∧ (effectiveAddress ((withRegs [(5, 0x10000)]).reg 5) (-4)).toNat + 4 ≤ (withRegs [(5, 0x10000)]).cfg.memSize := by
  decide

theorem witness_LoadsReadMemory_byte :
    (effectiveAddress ((withRegs [(5, 0x10000)]).reg 5) (-1)).toNat + 1 ≤ (withRegs [(5, 0x10000)]).cfg.memSize := by
  decide

theorem witness_StoresWriteMemory_word :
    (withRegs [(5, 0x10000)]).mem.wf = true
    ∧ (effectiveAddress ((withRegs [(5, 0x10000)]).reg 5) (-4)).toNat % 4 = 0
    ∧ (effectiveAddress ((withRegs [(5, 0x10000)]).reg 5) (-4)).toNat + 4 ≤ (withRegs [(5, 0x10000)]).cfg.memSize := by
  decide

theorem witness_StoresWriteMemory_byte :
    (withRegs [(5, 0x10000)]).mem.wf = true
    ∧ (effectiveAddress ((withRegs [(5, 0x10000)]).reg 5) (-1)).toNat + 1 ≤ (withRegs [(5, 0x10000)]).cfg.memSize := by
  decide

theorem witness_BadDataAddressFaults_misaligned :
    (effectiveAddress ((withRegs [(5, 0x10000)]).reg 5) 1).toNat % 4 ≠ 0 := by decide

theorem witness_BadDataAddressFaults_unmapped :
    (effectiveAddress ((withRegs [(5, 0x10000)]).reg 5) 0).toNat % 4 = 0
    ∧ (withRegs [(5, 0x10000)]).cfg.memSize < (effectiveAddress ((withRegs [(5, 0x10000)]).reg 5) 0).toNat + 4 := by
  decide

theorem witness_BadDataAddressFaults_byte :
    (withRegs [(5, 0x10000)]).cfg.memSize < (effectiveAddress ((withRegs [(5, 0x10000)]).reg 5) 0).toNat + 1 := by
  decide

theorem witness_AlignmentIsCheckedFirst :
    (0x10001 : Word).toNat % 4 ≠ 0 ∧ Config.default.memSize < (0x10001 : Word).toNat + 4 := by decide

theorem witness_WordStoreIsLittleEndian : State.reset.mem.wf = true
    ∧ State.reset.memWrite 0xFFFC .word 0x12345678 = .ok (State.reset.store 0xFFFC .word 0x12345678) := by
  exact ⟨rfl, rfl⟩

theorem witness_BranchesGoWhereTheConditionSays :
    Taken .le (withFlags4 true false false false).flags ∧ ¬ Taken .le (withFlags4 true false false true).flags := by
  constructor
  · exact .inr (by decide)
  · rintro (h | h)
    · exact absurd h (by decide)
    · exact h rfl

theorem witness_JumpToMisalignedFaultsAtTheFetch :
    (withRegs [(31, 0xE)]).status = .running ∧ ((withRegs [(31, 0xE)]).reg 31).toNat % 4 ≠ 0 := by decide

theorem witness_OnlyJrMisalignsThePc : (∀ rs, Instr.nop ≠ .jr rs)
    ∧ ({ State.reset with pc := 0xFFFFFFFC } : State).pc.toNat % 4 = 0
    ∧ exec .nop { State.reset with pc := 0xFFFFFFFC } = .next { State.reset with pc := 0 } :=
  ⟨(fun _ h => by cases h), by decide, rfl⟩

theorem witness_OnlyTheListedWrites : exec .halt State.reset = .next State.reset.halt := rfl

theorem witness_OnlyTheListedReads :
    (withRegs [(1, 5), (7, 1)]).status = .running ∧ (withRegs [(1, 5), (7, 2)]).status = .running
    ∧ (withRegs [(1, 5), (7, 1)]).mem = (withRegs [(1, 5), (7, 2)]).mem
    ∧ (∀ q, (Instr.addi 3 1 4).srcA = some q ∨ (Instr.addi 3 1 4).srcB = some q →
        (withRegs [(1, 5), (7, 1)]).reg q = (withRegs [(1, 5), (7, 2)]).reg q)
    ∧ (withRegs [(1, 5), (7, 1)]).reg 7 ≠ (withRegs [(1, 5), (7, 2)]).reg 7
    ∧ (∃ t, exec (.addi 3 1 4) (withRegs [(1, 5), (7, 1)]) = .next t)
    ∧ ∃ t, exec (.addi 3 1 4) (withRegs [(1, 5), (7, 2)]) = .next t := by
  refine ⟨rfl, rfl, rfl, ?_, by decide, ⟨_, rfl⟩, ⟨_, rfl⟩⟩
  rintro q (h | h)
  · cases h; decide
  · cases h

theorem witness_OnlyTheListedFaults :
    (withRegs [(5, 2)]).status = .running
    ∧ statusOf (exec (.div 3 5 0) (withRegs [(5, 2)]))
      = some (.faulted { kind := .arithmeticFault, pc := 0, word := some 0x10328000, addr := none })
    ∧ statusOf (exec (.ldr 3 5 0) (withRegs [(5, 2)]))
      = some (.faulted { kind := .misalignedAccess, pc := 0, word := some 0x40328000, addr := some 2 }) := by decide

theorem witness_HiddenStateIsInvisible :
    step State.reset = .next (State.reset.raise .invalidOpcode (some 0) none) := rfl

theorem witness_OutputLogOnlyGrows :
    step State.reset = .next (State.reset.raise .invalidOpcode (some 0) none) := rfl

/-! ### States that meet the invariants -/

/-- The reset state one word further on, with a byte of memory, an output record and a register. -/
def archState : State :=
  { withMem [(0xF000, 7)] [(3, 9)] with pc := 4, out := [.byte 0xF000 7] }

theorem archState_inv : ArchInv archState where
  cfgOk := by decide
  memOk := by decide
  memIn := by
    show ∀ c ∈ [((0xF000 : Nat), (7 : Byte))], c.1 < 0x10000
    decide
  zeroSlot := by decide
  outOk := by
    intro r hr
    obtain rfl : r = .byte 0xF000 7 := by simpa [archState] using hr
    show Config.default.inOut 0xF000 = true
    decide
  detailOk := by
    intro d h
    have h0 : archState.status = .running := rfl
    rw [h0] at h
    cases h

theorem witness_StepKeepsTheInvariant :
    ArchInv archState ∧ step archState = .next (archState.raise .invalidOpcode (some 0) none) :=
  ⟨archState_inv, rfl⟩

/-- Inputs of a reset that use every input: a program, a byte of memory, a register and flags. -/
def someInput : ResetInput where
  program := [0xBC000000]
  initMem := [(0xFFFF, 5)]
  initRegs := [(0, 9), (31, 6)]
  initFlags := some (nzcv true false true false)

theorem witness_ResetGivesTheTable : ∃ s, reset Config.default someInput = .ok s := ⟨_, rfl⟩

theorem witness_EveryResetMeetsTheInvariants : ∃ s, reset Config.default someInput = .ok s := ⟨_, rfl⟩

theorem witness_InspectionReadsCommittedState :
    0xFFFF + 1 ≤ State.reset.cfg.memSize ∧ State.reset.cfg.memSize < 0x10000 + 1 ∧ 32 < 33 := by decide

theorem witness_RunIsRepeatedCycles : State.reset.status = .running := rfl

/-- A block of zeros, what reset memory holds everywhere. -/
def zeroBlock : Vector Byte blockBytes := Vector.replicate blockBytes 0

/-- The reset state whose L1 and whose L2, in the given ways of set 0, hold blocks of memory. -/
def withLines (l1 : Option (Line 24)) (w0 w1 : Option (Line 23)) (lru : Fin l2Ways) : State :=
  { State.reset with caches :=
    { Caches.reset with
      l1 := Caches.reset.l1.set 0 l1
      l2 := Caches.reset.l2.set 0 #v[w0, w1]
      lru := Caches.reset.lru.set 0 lru } }

/-- A cached state: block 0 in L1 line 0, and in way 0 of L2 set 0. -/
def cachedState : State := withLines (some ⟨0, zeroBlock⟩) (some ⟨0, zeroBlock⟩) none 1

theorem zeroBlock_coherent : BlockCoherent State.reset.cfg State.reset.mem 0 zeroBlock :=
  ⟨fun k => by simp [zeroBlock, State.reset, Memory.read, readCells], by decide⟩

theorem cachedState_inv : CacheInv cachedState where
  cfgOk := by decide
  memOk := by decide
  l1Ok := by
    intro i l h
    have h' : i = 0 ∧ l = ⟨0, zeroBlock⟩ := by
      revert h
      simp only [cachedState, withLines, Caches.reset, Fin.getElem_fin, Vector.getElem_set, Vector.getElem_replicate]
      split
      · rename_i hi
        intro h
        exact ⟨Fin.ext hi.symm, (Option.some.inj h).symm⟩
      · intro h; cases h
    obtain ⟨rfl, rfl⟩ := h'
    exact zeroBlock_coherent
  l2Ok := by
    intro i w l h
    have h' : i = 0 ∧ l = ⟨0, zeroBlock⟩ := by
      revert h
      simp only [cachedState, withLines, Caches.reset, Fin.getElem_fin, Vector.getElem_set, Vector.getElem_replicate]
      split
      · rename_i hi
        match w with
        | 0 => intro h; exact ⟨Fin.ext hi.symm, (Option.some.inj h).symm⟩
        | 1 => intro h; cases h
      · simp
    obtain ⟨rfl, rfl⟩ := h'
    exact zeroBlock_coherent
  l2One := by
    intro i l l' _ h
    revert h
    simp only [cachedState, withLines, Caches.reset, Fin.getElem_fin, Vector.getElem_set, Vector.getElem_replicate]
    split
    · intro h; cases h
    · simp

theorem witness_CachedAccessesAreCoherent : CacheInv cachedState ∧ accessFault cachedState.cfg 0xFFFC .word = none :=
  ⟨cachedState_inv, by decide⟩

theorem witness_ClockKeepsCacheCoherence : CacheInv cachedState := cachedState_inv

theorem witness_LoadedBlockThenHits : State.reset.cfg.inOut 0xEFFF = false := by decide

theorem witness_ReplacementFollowsLru_hit :
    (withLines none (some ⟨0, zeroBlock⟩) none 1).cfg.inOut 8 = false
    ∧ (withLines none (some ⟨0, zeroBlock⟩) none 1).caches.l1Hit 8 = false
    ∧ (withLines none (some ⟨0, zeroBlock⟩) none 1).caches.l2Way 8 = some 0 := by decide

theorem witness_ReplacementFollowsLru_empty :
    State.reset.cfg.inOut 8 = false ∧ State.reset.caches.l1Hit 8 = false ∧ State.reset.caches.l2Way 8 = none
    ∧ State.reset.caches.l2[l2Index 8][(0 : Fin l2Ways)] = none := by decide

theorem witness_ReplacementFollowsLru_half :
    cachedState.cfg.inOut 0x208 = false ∧ cachedState.caches.l1Hit 0x208 = false
    ∧ cachedState.caches.l2Way 0x208 = none ∧ cachedState.caches.l2[l2Index 0x208][(0 : Fin l2Ways)] ≠ none
    ∧ cachedState.caches.l2[l2Index 0x208][(1 : Fin l2Ways)] = none := by decide

theorem witness_ReplacementFollowsLru_full :
    (withLines none (some ⟨0, zeroBlock⟩) (some ⟨1, zeroBlock⟩) 0).cfg.inOut 0x408 = false
    ∧ (withLines none (some ⟨0, zeroBlock⟩) (some ⟨1, zeroBlock⟩) 0).caches.l1Hit 0x408 = false
    ∧ (withLines none (some ⟨0, zeroBlock⟩) (some ⟨1, zeroBlock⟩) 0).caches.l2Way 0x408 = none
    ∧ (withLines none (some ⟨0, zeroBlock⟩) (some ⟨1, zeroBlock⟩) 0).caches.l2[l2Index 0x408][(0 : Fin l2Ways)] ≠ none
    ∧ (withLines none (some ⟨0, zeroBlock⟩) (some ⟨1, zeroBlock⟩) 0).caches.l2[l2Index 0x408][(1 : Fin l2Ways)]
      ≠ none := by decide

theorem witness_OutputRegionIsUncached :
    State.reset.cfg.mmioBase ≤ (0xFFFF : Word).toNat
    ∧ (0xFFFF : Word).toNat < State.reset.cfg.mmioBase + State.reset.cfg.mmioSize
    ∧ State.reset.cfg.mmioBase ≤ (0xF000 : Word).toNat := by decide

/-! ### States with instructions in flight -/

/-- The reset state with the given latches. -/
def withLatches (fd : Option FD) (dx : Option DX) (xm : Option XM) (mw : Option MW) : State :=
  { State.reset with pipe := { Pipe.reset 12 with fd := fd, dx := dx, xm := xm, mw := mw } }

/-- `nop` at address 12, just fetched. -/
def fdNop : FD := { pc := 12, word := 0x8C000000, ffault := none }

/-- `add r2, r1, r1` at address 12, just fetched. -/
def fdAdd : FD := { pc := 12, word := 0x04208400, ffault := none }

/-- `b +3` at address 8, decoded. -/
def dxB : DX := { pc := 8, word := 0x80000003, d := .b 3, va := 0, vb := 0 }

/-- `ldr r1, [r5, 0]` at address 8, decoded. -/
def dxLdr : DX := { pc := 8, word := 0x40128000, d := .ldr 1 5 0, va := 0x100, vb := 0 }

/-- `ldr r1, [r5, 0]` at address 4, executed with the given effective address. -/
def xmLdr (ea : Word) : XM :=
  { pc := 4, word := 0x40128000, d := .ldr 1 5 0, result := ea, sdata := 0, dest := some 1, flags := none,
    halt := false }

/-- `addi r1, r0, 10` at address 0, about to commit. -/
def mwAddi : MW :=
  { pc := 0, word := 0x0610000A, d := .addi 1 0 10, value := 10, dest := some 1,
    flags := some (nzcv false false false false), halt := false }

/-- `nop` at address 0, about to leave. -/
def mwNop : MW :=
  { pc := 0, word := 0x8C000000, d := .nop, value := 0, dest := none, flags := none, halt := false }

/-- `halt` at address 0, about to leave. -/
def mwHalt : MW :=
  { pc := 0, word := 0xBC000000, d := .halt, value := 0, dest := none, flags := none, halt := true }

/-- A word just fetched behind a load, whose base an `addi` is about to commit. -/
def flightState : State := withLatches (some fdNop) none (some (xmLdr 0x10000)) (some mwAddi)

theorem flightState_inv : PipeInv flightState where
  fdFault := by intro f k a h h'; cases h; cases h'
  dxWord := by intro x h; cases h
  xmWord := by intro x h; cases h; decide
  xmDest := by intro x h; cases h; decide
  xmFlags := by intro x h; cases h; decide
  xmHalt := by intro x h; cases h; decide
  mwWord := by intro m h; cases h; decide
  mwDest := by intro m h; cases h; decide
  mwFlags := by intro m h; cases h; decide
  mwHalt := by intro m h; cases h; decide
  elapsed := by intro h; exact absurd rfl h
  noLoadUse := by intro x y r _ _ _ h; cases h
  stopped := by intro h; cases h
  pending := by intro d h; cases h
  haltInXM := by intro x h hd; cases h; cases hd
  haltInMW := by intro m h hd; cases h; cases hd
  drained := by intro h; exact absurd rfl h

theorem witness_ClockKeepsThePipelineInvariant : PipeInv flightState := flightState_inv

theorem witness_ClockKeepsTheInvariant : ArchInv flightState ∧ PipeInv flightState := by
  refine ⟨⟨by decide, by decide, ?_, by decide, ?_, ?_⟩, flightState_inv⟩
  · intro c hc; cases hc
  · intro r hr; cases hr
  · intro d h; cases h

theorem witness_AccessWaitsItsLatency :
    (withLatches none none (some (xmLdr 0x100)) none).status = .running
    ∧ (withLatches none none (some (xmLdr 0x100)) none).pipe.xm = some (xmLdr 0x100)
    ∧ memOp (xmLdr 0x100).d = some (.load, .word)
    ∧ accessFault (withLatches none none (some (xmLdr 0x100)) none).cfg (xmLdr 0x100).result .word = none
    ∧ (withLatches none none (some (xmLdr 0x100)) none).pipe.memElapsed = 0
    ∧ (withLatches none none (some (xmLdr 0x100)) none).latency (xmLdr 0x100).result .load = 15 := by decide

theorem witness_RegistersChangeOnlyInWriteBack_wait :
    (withLatches none none (some (xmLdr 0x100)) (some mwAddi)).status = .running
    ∧ (withLatches none none (some (xmLdr 0x100)) (some mwAddi)).waits = true := by decide

theorem witness_RegistersChangeOnlyInWriteBack_commit :
    flightState.status = .running ∧ flightState.waits = false ∧ flightState.pipe.mw = some mwAddi
    ∧ mwAddi.dest = some 1 ∧ (1 : Reg) ≠ 0 ∧ mwAddi.flags = some (nzcv false false false false)
    ∧ (∀ m, flightState.pipe.mw = some m → m.dest ≠ some 2) := by
  refine ⟨rfl, by decide, rfl, rfl, by decide, rfl, ?_⟩
  intro m h; cases h; decide

theorem witness_RegistersChangeOnlyInWriteBack_none :
    (withLatches none none none (some mwNop)).status = .running
    ∧ (withLatches none none none (some mwNop)).waits = false
    ∧ (∀ m, (withLatches none none none (some mwNop)).pipe.mw = some m → m.flags = none) := by
  refine ⟨rfl, by decide, ?_⟩
  intro m h; cases h; rfl

theorem witness_TakenTransferFlushes :
    (withLatches (some fdAdd) (some dxB) none (some mwNop)).status = .running
    ∧ (withLatches (some fdAdd) (some dxB) none (some mwNop)).waits = false
    ∧ MemoryStageClean (withLatches (some fdAdd) (some dxB) none (some mwNop))
    ∧ (withLatches (some fdAdd) (some dxB) none (some mwNop)).pipe.dx = some dxB
    ∧ redirect dxB.d dxB.pc ((withLatches (some fdAdd) (some dxB) none (some mwNop)).pipe.fwd dxB.d.srcA dxB.va)
        ((withLatches (some fdAdd) (some dxB) none (some mwNop)).pipe.fwdFlags
          (withLatches (some fdAdd) (some dxB) none (some mwNop)).flags) = some 20 := by
  refine ⟨rfl, by decide, ?_, rfl, by decide⟩
  intro x k n h; cases h

theorem witness_LoadUseStalls :
    (withLatches (some fdAdd) (some dxLdr) none none).status = .running
    ∧ (withLatches (some fdAdd) (some dxLdr) none none).waits = false
    ∧ MemoryStageClean (withLatches (some fdAdd) (some dxLdr) none none)
    ∧ isLoad dxLdr.d = true ∧ dxLdr.d.dest = some 1 ∧ fdAdd.ffault = none
    ∧ decode fdAdd.word = some (.add 2 1 1) ∧ (Instr.add 2 1 1).srcA = some 1 := by
  refine ⟨rfl, by decide, ?_, by decide, by decide, rfl, by decide, by decide⟩
  intro x k n h; cases h

/-- A machine whose `halt` is about to leave. -/
def haltingState : State :=
  { withLatches none none none (some mwHalt) with
    pipe := { Pipe.reset 12 with mw := some mwHalt, fetchEnable := false } }

theorem haltingState_inv : PipeInv haltingState where
  fdFault := by intro f k a h; cases h
  dxWord := by intro x h; cases h
  xmWord := by intro x h; cases h
  xmDest := by intro x h; cases h
  xmFlags := by intro x h; cases h
  xmHalt := by intro x h; cases h
  mwWord := by intro m h; cases h; decide
  mwDest := by intro m h; cases h; decide
  mwFlags := by intro m h; cases h; decide
  mwHalt := by intro m h; cases h; decide
  elapsed := by intro h; exact absurd rfl h
  noLoadUse := by intro x y r h; cases h
  stopped := by intro _; exact ⟨rfl, rfl⟩
  pending := by intro d h; cases h
  haltInXM := by intro x h; cases h
  haltInMW := by intro m _ _; exact ⟨rfl, rfl, rfl⟩
  drained := by intro h; exact absurd rfl h

theorem witness_HaltInWriteBackEndsTheRun :
    PipeInv haltingState ∧ haltingState.status = .running ∧ haltingState.pipe.mw = some mwHalt ∧ mwHalt.d = .halt :=
  ⟨haltingState_inv, rfl, rfl, rfl⟩

theorem witness_MemoryFaultIsReportedAtOnce :
    PipeInv flightState ∧ flightState.status = .running ∧ flightState.pipe.xm = some (xmLdr 0x10000)
    ∧ memOp (xmLdr 0x10000).d = some (.load, .word)
    ∧ accessFault flightState.cfg (xmLdr 0x10000).result .word = some .unmappedAddress
    ∧ flightState.pipe.mw = some mwAddi ∧ mwAddi.dest = some 1 :=
  ⟨flightState_inv, rfl, rfl, by decide, by decide, rfl, rfl⟩

/-- The machine after the reset of `someInput`: the one-word program `halt`. -/
def haltProgram : State :=
  match reset Config.default someInput with
  | .ok s => s
  | .error _ => State.reset

theorem haltProgram_step : step haltProgram = .next haltProgram.halt := rfl

theorem haltProgram_halted : step haltProgram.halt = .next haltProgram.halt := rfl

theorem stepN_halted (k : Nat) : stepN k haltProgram.halt = haltProgram.halt := by
  induction k with
  | zero => rfl
  | succ k ih => simp only [stepN, haltProgram_halted, ih]

theorem witness_PipelineEndsLikeTheSequentialMachine :
    reset Config.default someInput = .ok haltProgram ∧ NoStoreIntoNextCode haltProgram := by
  refine ⟨rfl, ?_⟩
  intro k span hr hs
  cases k with
  | zero =>
    have h : storeSpan haltProgram = none := by decide
    rw [stepN, h] at hs
    cases hs
  | succ k =>
    simp only [stepN, haltProgram_step, stepN_halted] at hr
    cases hr

end Sys2Proof.Tests
end

section
/-!
PROOFS. When `reset` is accepted (00_scope.md R6, 60_exceptions.md R237, 70_reset_and_hazards.md R250): the Boolean
checks of the loader as propositions.
-/
namespace Sys2Proof.Machine

theorem keysDistinct_iff_nodup (keys : List Nat) : keysDistinct keys = true ↔ keys.Nodup := by
  induction keys with
  | nil => simp [keysDistinct]
  | cons k rest ih => simp [keysDistinct, ih]

/-- The loader's bound on the keys of a partial map, for bytes of memory and for registers alike. -/
theorem all_keys_lt_iff {α : Type} (entries : List (Nat × α)) (n : Nat) :
    entries.all (fun e => decide (e.1 < n)) = true ↔ ∀ k v, (k, v) ∈ entries → k < n := by
  simp only [List.all_eq_true, decide_eq_true_eq, Prod.forall]

theorem ResetInput.ok_iff (c : Config) (i : ResetInput) :
    i.ok c = true ↔
      c.wf = true ∧ c.progBase + 4 * i.program.length ≤ c.memSize
      ∧ (∀ a v, (a, v) ∈ i.initMem → a < c.memSize) ∧ (i.initMem.map Prod.fst).Nodup
      ∧ (∀ r v, (r, v) ∈ i.initRegs → r < 32) ∧ (i.initRegs.map Prod.fst).Nodup := by
  simp only [ResetInput.ok, Bool.and_eq_true, decide_eq_true_eq, all_keys_lt_iff, keysDistinct_iff_nodup, and_assoc]

/-- `reset` refuses for no other reason than its check of the inputs (R237). -/
theorem exists_reset_eq_ok_iff (c : Config) (i : ResetInput) : (∃ s, reset c i = .ok s) ↔ i.ok c = true := by
  unfold reset
  split
  case isTrue hok => exact iff_of_true ⟨_, rfl⟩ hok
  case isFalse hbad => exact iff_of_false (fun ⟨_, h⟩ => nomatch h) hbad

/-- Settles O40: `reset` is accepted exactly if its check passes, and the check says the bounds of R6 and R250. -/
theorem resetAcceptsExactlyTheBounds : Obligations.ResetAcceptsExactlyTheBounds :=
  fun c i => (exists_reset_eq_ok_iff c i).trans (ResetInput.ok_iff c i)

end Sys2Proof.Machine
end

section
/-!
PROOFS. What one instruction does, said once: `exec` computes an `Effect` from the operands, the memory, the `pc` and
the flags, and applies it to the state (00_scope.md R7, 10_state.md R23, 30_encoding.md R118). The frames and the
dependences of the ISA level follow from that one equation.
-/
namespace Sys2Proof.Machine

/-! ## The effect of an instruction -/

/-- The ways an instruction can end. -/
inductive Effect where
  /-- it completes: a value for its destination, the flags it writes, and where control goes -/
  | complete (v : Word) (f : Option Flags) (target : Word)
  /-- it stores, its checks passed -/
  | store (a : Word) (n : Width) (v : Word)
  /-- it raises a fault with this offending address -/
  | fault (k : Fault) (addr : Option Word)
  /-- it halts -/
  | halt

/-- An effect of instruction `i` on the machine. -/
def Effect.apply (e : Effect) (i : Instr) (s : State) : State :=
  match e with
  | .complete v f target => ((s.commitReg i.rd v).commitFlags f).setPc target
  | .store a n v => (s.store a n v).nextPc
  | .fault k addr => s.raise k (some (encode i)) addr
  | .halt => s.halt

/-- The effect of an access of class M at `ea`; `v` is the value to store. -/
def State.memEffect (s : State) (k : MemKind) (n : Width) (ea v : Word) : Effect :=
  match accessFault s.cfg ea n with
  | some f => .fault f (some ea)
  | none =>
    match k with
    | .load => .complete (s.mem.readWidth ea.toNat n) none (s.pc + 4)
    | .store => .store ea n v

/-- The effect of an `ALU` result, `none` a zero divisor; class C puts the return address in its place. -/
def State.aluEffect (s : State) (i : Instr) (r : Option (Word × Option Flags)) (target : Word) : Effect :=
  match r with
  | none => .fault .arithmeticFault none
  | some (v, f) => .complete (if i.cls = .c then s.pc + 4 else v) f target

/-- The effect of an instruction, in the terms of the pipeline's stages: its access, or its `ALU` result and its
control transfer. -/
def State.effect (s : State) (i : Instr) : Effect :=
  match memOp i with
  | some (k, n) => s.memEffect k n (s.readSrc i.srcA + i.immWord.getD 0) (s.readSrc i.srcB)
  | none =>
    if i = .halt then .halt
    else
      s.aluEffect i (alu i (s.readSrc i.srcA) (if i.srcB.isSome then s.readSrc i.srcB else i.immWord.getD 0))
        ((redirect i s.pc (s.readSrc i.srcA) s.flags).getD (s.pc + 4))

/-! ## How instructions complete, as effects -/

section
variable (s : State) (i : Instr) {rd : Reg}

theorem State.writeArith_eq_apply (h : i.rd = some rd) (r : Word × Flags) :
    s.writeArith rd r = (Effect.complete r.1 (some r.2) (s.pc + 4)).apply i s := by
  simp [State.writeArith, Effect.apply, h, State.commitReg, State.commitFlags, State.nextPc]

theorem State.writeDivision_eq_apply (h : i.rd = some rd) (hc : i.cls = .a) (r : Option (Word × Flags)) :
    s.writeDivision i rd r = (s.aluEffect i (r.map withFlags) (s.pc + 4)).apply i s := by
  cases r with
  | none => rfl
  | some r => simp [State.writeDivision, State.aluEffect, withFlags, hc, s.writeArith_eq_apply i h]

theorem State.writeCompare_eq_apply (h : i.rd = none) (r : Word × Flags) :
    s.writeCompare r = (Effect.complete r.1 (some r.2) (s.pc + 4)).apply i s := by
  simp [State.writeCompare, Effect.apply, h, State.commitReg, State.commitFlags, State.nextPc]

theorem State.writeLogic_eq_apply (h : i.rd = some rd) (r : Word) :
    s.writeLogic rd r = (Effect.complete r none (s.pc + 4)).apply i s := by
  simp [State.writeLogic, Effect.apply, h, State.commitReg, State.commitFlags, State.nextPc]

theorem State.setPc_eq_apply (h : i.rd = none) (v target : Word) :
    s.setPc target = (Effect.complete v none target).apply i s := by
  simp [Effect.apply, h, State.commitReg, State.commitFlags]

theorem State.branchIf_eq_apply (h : i.rd = none) (c : Cond) (off : Int) (v : Word) :
    s.branchIf c off = (Effect.complete v none
      ((if condTrue c s.flags then some (branchTarget s.pc off) else none).getD (s.pc + 4))).apply i s := by
  rw [State.branchIf_eq, ← s.setPc_eq_apply i h]
  split <;> rfl

theorem State.load_eq_apply (h : i.rd = some rd) (ea : Word) (n : Width) (v : Word) :
    s.load i rd ea n = (s.memEffect .load n ea v).apply i s := by
  rcases s.load_cases i rd ea n with ⟨f, hf, e⟩ | ⟨hf, e⟩ <;> rw [e]
  · simp [State.memEffect, hf, Effect.apply]
  · simp [State.memEffect, hf, Effect.apply, h, State.commitReg, State.commitFlags, State.nextPc]

theorem State.storeAt_eq_apply (ea : Word) (n : Width) (v : Word) :
    s.storeAt i ea n v = (s.memEffect .store n ea v).apply i s := by
  rcases s.storeAt_cases i ea n v with ⟨f, hf, e⟩ | ⟨hf, e⟩ <;> rw [e] <;> simp [State.memEffect, hf, Effect.apply]

end

/-- An instruction does its effect and nothing else. -/
theorem exec_eq_effect (i : Instr) (s : State) : exec i s = .next ((s.effect i).apply i s) := by
  cases i
  case add | addi | sub | subi | mul | muli => exact congrArg Host.Outcome.next (s.writeArith_eq_apply _ rfl _)
  case div | divi | mod | modi => exact congrArg Host.Outcome.next (s.writeDivision_eq_apply _ rfl rfl _)
  case cmp | cmpi => exact congrArg Host.Outcome.next (s.writeCompare_eq_apply _ rfl _)
  case and | andi | or | ori | xor | xori | shl | shli | shr | shri | sar | sari =>
    exact congrArg Host.Outcome.next (s.writeLogic_eq_apply _ rfl _)
  case ldr | ldrb => exact congrArg Host.Outcome.next (s.load_eq_apply _ rfl _ _ 0)
  case str | strb => exact congrArg Host.Outcome.next (s.storeAt_eq_apply _ _ _ _)
  case b | beq | bne | blt | bge | bgt | ble | blo | bhs | bhi | bls | bmi | bpl | bvs | bvc =>
    exact congrArg Host.Outcome.next (s.branchIf_eq_apply _ rfl _ _ _)
  case bl => rfl
  case jr | nop => exact congrArg Host.Outcome.next (s.setPc_eq_apply _ rfl _ _)
  case halt => rfl

theorem exec_eq_next_iff {i : Instr} {s t : State} : exec i s = .next t ↔ t = (s.effect i).apply i s := by
  rw [exec_eq_effect, Host.Outcome.next.injEq, eq_comm]

/-! ## What an effect leaves unchanged -/

@[simp] theorem State.commitFlags_reg (s : State) (f : Option Flags) (r : Reg) :
    (s.commitFlags f).reg r = s.reg r := by
  cases f <;> rfl

theorem State.commitReg_reg (s : State) (d : Option Reg) (v : Word) (q : Reg) :
    (s.commitReg d v).reg q = if q ≠ 0 ∧ d = some q then v else s.reg q := by
  cases d with
  | none => simp [State.commitReg]
  | some r =>
    simp only [State.commitReg, State.reg_setReg, Option.some.injEq]
    by_cases h : q = r
    · subst h; simp
    · simp [h, Ne.symm h]

/-- The destination of R118 is the descriptor's, unless that is register 0. -/
theorem Instr.dest_eq_some {i : Instr} {q : Reg} : i.dest = some q ↔ q ≠ 0 ∧ i.rd = some q := by
  simp [Instr.dest, Option.filter_eq_some_iff, and_comm]

section
variable (e : Effect) (i : Instr) (s : State)

theorem Effect.apply_hidden : SameHidden s (e.apply i s) := by
  cases e <;> simp [SameHidden, Effect.apply]

theorem Effect.apply_slot_zero : (e.apply i s).regs[0] = s.regs[0] := by
  cases e with
  | complete v f target =>
    cases h : i.rd <;> simp [Effect.apply, h, State.commitReg, State.setReg_slot_zero]
  | store | fault | halt => rfl

/-- Only the destination is written. -/
theorem Effect.apply_reg {q : Reg} (h : i.dest ≠ some q) : (e.apply i s).reg q = s.reg q := by
  cases e with
  | complete v f target =>
    rw [Ne, Instr.dest_eq_some] at h
    simp [Effect.apply, State.commitReg_reg, h]
  | store | fault | halt => rfl

/-- Pipeline and caches pass through an effect. -/
theorem Effect.apply_withHidden (p : Pipe) (c : Caches) :
    e.apply i { s with pipe := p, caches := c } = { e.apply i s with pipe := p, caches := c } := by
  cases e with
  | complete v f target =>
    have hset (r : Reg) : ({ s with pipe := p, caches := c } : State).setReg r v
        = { s.setReg r v with pipe := p, caches := c } := by
      unfold State.setReg; split <;> rfl
    cases h : i.rd <;> cases f <;> simp [Effect.apply, h, State.commitReg, State.commitFlags, State.setFlags,
      State.setPc, hset]
  | store | fault | halt => rfl

end

/-! ## Which effect an instruction has -/

theorem State.memEffect_cases (s : State) (k : MemKind) (n : Width) (ea v : Word) :
    (∃ f, accessFault s.cfg ea n = some f ∧ s.memEffect k n ea v = .fault f (some ea))
    ∨ (accessFault s.cfg ea n = none ∧ k = .load
      ∧ s.memEffect k n ea v = .complete (s.mem.readWidth ea.toNat n) none (s.pc + 4))
    ∨ (accessFault s.cfg ea n = none ∧ k = .store ∧ s.memEffect k n ea v = .store ea n v) := by
  unfold State.memEffect
  cases accessFault s.cfg ea n <;> cases k <;> simp

/-- An instruction of class M writes no flag, is no `JR` and does not halt. -/
theorem memOp_eq_some {i : Instr} {k : MemKind} {n : Width} (h : memOp i = some (k, n)) :
    i.writesFlags = false ∧ (∀ rs, i ≠ .jr rs) ∧ i ≠ .halt ∧ (isStore i = true ↔ k = .store) := by
  cases i
  case ldr | ldrb | str | strb => cases h; exact ⟨rfl, nofun, nofun, by simp [isStore, memOp]⟩
  all_goals cases h

/-- A store writes no register and no flag (R118). -/
theorem isStore_writes_nothing {i : Instr} (h : isStore i = true) : i.dest = none ∧ i.writesFlags = false := by
  cases i
  case str | strb => exact ⟨rfl, rfl⟩
  all_goals cases h

/-- `ALU` answers none only for a division. -/
theorem isDivision_of_alu_eq_none {i : Instr} {a b : Word} (h : alu i a b = none) : isDivision i = true := by
  rcases alu_eq_none h with ⟨-, _, _, _, rfl⟩ | ⟨-, _, _, _, rfl⟩ | ⟨-, _, _, _, rfl⟩ | ⟨-, _, _, _, rfl⟩ <;> rfl

/-- Control goes to a branch target or to the register of `JR` (R262). -/
theorem redirect_eq_some {i : Instr} {pc a target : Word} {fl : Flags} (h : redirect i pc a fl = some target) :
    (∃ off, target = branchTarget pc off) ∨ ∃ rs, i = .jr rs := by
  cases i
  case beq | bne | blt | bge | bgt | ble | blo | bhs | bhi | bls | bmi | bpl | bvs | bvc =>
    obtain ⟨-, htarget⟩ := Option.ite_none_right_eq_some.1 h
    cases htarget
    exact .inl ⟨_, rfl⟩
  case b | bl => cases h; exact .inl ⟨_, rfl⟩
  case jr => exact .inr ⟨_, rfl⟩
  all_goals cases h

/-- Only a conditional branch looks at the flags (R118). -/
theorem redirect_congr {i : Instr} {f f' : Flags} (pc a : Word) (h : i.readsFlags = true → f = f') :
    redirect i pc a f = redirect i pc a f' := by
  cases i
  case beq | bne | blt | bge | bgt | ble | blo | bhs | bhi | bls | bmi | bpl | bvs | bvc => rw [h rfl]
  all_goals rfl

/-- Where an instruction that completes can send control: on, to a branch target, or anywhere if it is `JR`. -/
def Successor (i : Instr) (pc target : Word) : Prop :=
  target = pc + 4 ∨ (∃ off, target = branchTarget pc off) ∨ ∃ rs, i = .jr rs

/-- Everything the effect of an instruction can be. -/
theorem State.effect_cases (s : State) (i : Instr) :
    (∃ v f target, s.effect i = .complete v f target ∧ f.isSome = i.writesFlags ∧ Successor i s.pc target)
    ∨ (∃ a n v, s.effect i = .store a n v ∧ isStore i = true ∧ accessFault s.cfg a n = none)
    ∨ (∃ k a n, s.effect i = .fault k (some a) ∧ accessFault s.cfg a n = some k)
    ∨ (s.effect i = .fault .arithmeticFault none ∧ isDivision i = true)
    ∨ (s.effect i = .halt ∧ i = .halt) := by
  unfold State.effect
  rcases hm : memOp i with _ | ⟨k, n⟩
  · dsimp only
    by_cases hh : i = .halt
    · simp [hh]
    · rw [if_neg hh]
      cases ha : alu i (s.readSrc i.srcA) (if i.srcB.isSome then s.readSrc i.srcB else i.immWord.getD 0) with
      | none =>
        exact .inr (.inr (.inr (.inl ⟨rfl, isDivision_of_alu_eq_none ha⟩)))
      | some r =>
        refine .inl ⟨_, _, _, rfl, alu_flags ha, ?_⟩
        cases hr : redirect i s.pc (s.readSrc i.srcA) s.flags with
        | none => exact .inl rfl
        | some target => exact .inr (redirect_eq_some hr)
  · obtain ⟨hflags, -, -, hstore⟩ := memOp_eq_some hm
    rcases s.memEffect_cases k n (s.readSrc i.srcA + i.immWord.getD 0) (s.readSrc i.srcB) with
      ⟨f, hf, e⟩ | ⟨-, -, e⟩ | ⟨hf, hk, e⟩ <;> simp only [e]
    · exact .inr (.inr (.inl ⟨f, _, n, rfl, hf⟩))
    · exact .inl ⟨_, _, _, rfl, by rw [hflags]; rfl, .inl rfl⟩
    · exact .inr (.inl ⟨_, _, _, rfl, hstore.2 hk, hf⟩)

/-! ## The frame of an instruction -/

theorem Effect.complete_apply_flags (v : Word) (f : Option Flags) (target : Word) (i : Instr) (s : State) :
    ((Effect.complete v f target).apply i s).flags = f.getD s.flags := by
  simp [Effect.apply]

theorem Effect.complete_apply_status (v : Word) (f : Option Flags) (target : Word) (i : Instr) (s : State) :
    ((Effect.complete v f target).apply i s).status = s.status := by
  simp [Effect.apply]

theorem Effect.complete_apply_memory (v : Word) (f : Option Flags) (target : Word) (i : Instr) (s : State) :
    ((Effect.complete v f target).apply i s).mem = s.mem ∧ ((Effect.complete v f target).apply i s).out = s.out := by
  simp [Effect.apply]

theorem Effect.complete_apply_dest {v : Word} {f : Option Flags} {target : Word} {i : Instr} {s : State} {q : Reg}
    (h : i.dest = some q) : ((Effect.complete v f target).apply i s).reg q = v := by
  simp [Effect.apply, State.commitReg_reg, Instr.dest_eq_some.1 h]

/-- Settles O33: the frame of each effect an instruction can have. -/
theorem onlyTheListedWrites : Obligations.OnlyTheListedWrites := by
  intro i s t h
  obtain rfl := exec_eq_next_iff.1 h
  refine ⟨fun q hq => Effect.apply_reg _ _ _ hq, ?_⟩
  rcases s.effect_cases i with ⟨v, f, target, e, hf, -⟩ | ⟨a, n, v, e, hs, -⟩ | ⟨k, a, n, e, -⟩ | ⟨e, -⟩ | ⟨e, hh⟩ <;>
    rw [e]
  · obtain ⟨hm, ho⟩ := Effect.complete_apply_memory v f target i s
    refine ⟨fun hw => ?_, fun _ => ⟨fun a => by rw [hm], ho⟩, Effect.apply_hidden _ _ _,
      .inl (Effect.complete_apply_status ..)⟩
    obtain rfl : f = none := by rwa [hw, Option.isSome_eq_false_iff, Option.isNone_iff_eq_none] at hf
    exact Effect.complete_apply_flags ..
  · exact ⟨fun _ => rfl, fun hn => absurd hs (by simp [hn]), Effect.apply_hidden _ _ _, .inl rfl⟩
  · exact ⟨fun _ => rfl, fun _ => ⟨fun _ => rfl, rfl⟩, Effect.apply_hidden _ _ _, .inr (.inr ⟨_, rfl, rfl⟩)⟩
  · exact ⟨fun _ => rfl, fun _ => ⟨fun _ => rfl, rfl⟩, Effect.apply_hidden _ _ _, .inr (.inr ⟨_, rfl, rfl⟩)⟩
  · exact ⟨fun _ => rfl, fun _ => ⟨fun _ => rfl, rfl⟩, Effect.apply_hidden _ _ _, .inr (.inl ⟨hh, rfl⟩)⟩

/-! ## What an instruction depends on -/

/-- The effect is a function of the parameters, the memory, the `pc`, the source operands and, for a conditional
branch, the flags. -/
theorem State.effect_congr {s s' : State} {i : Instr} (hcfg : s.cfg = s'.cfg) (hpc : s.pc = s'.pc)
    (hmem : s.mem = s'.mem) (ha : s.readSrc i.srcA = s'.readSrc i.srcA) (hb : s.readSrc i.srcB = s'.readSrc i.srcB)
    (hfl : i.readsFlags = true → s.flags = s'.flags) : s.effect i = s'.effect i := by
  simp only [State.effect, State.memEffect, State.aluEffect, hcfg, hpc, hmem, ha, hb, redirect_congr _ _ hfl]

theorem State.readSrc_congr {s s' : State} {r : Option Reg} (h : ∀ q, r = some q → s.reg q = s'.reg q) :
    s.readSrc r = s'.readSrc r := by
  cases r with
  | none => rfl
  | some q => exact h q rfl

/-- Settles O34: both machines have the same effect, and an effect says what it writes. -/
theorem onlyTheListedReads : Obligations.OnlyTheListedReads := by
  intro i s s' t t' hs hs' hcfg hpc hmem hout hsrc hfl ht ht'
  obtain rfl := exec_eq_next_iff.1 ht
  obtain rfl := exec_eq_next_iff.1 ht'
  have he : s.effect i = s'.effect i := State.effect_congr hcfg hpc hmem
    (State.readSrc_congr fun q hq => hsrc q (.inl hq)) (State.readSrc_congr fun q hq => hsrc q (.inr hq)) hfl
  rw [← he]
  rcases s.effect_cases i with ⟨v, f, target, e, hf, -⟩ | ⟨a, n, v, e, hst, -⟩ | ⟨k, a, n, e, -⟩ | ⟨e, -⟩ | ⟨e, -⟩ <;>
    rw [e]
  · obtain ⟨hm, ho⟩ := Effect.complete_apply_memory v f target i s
    obtain ⟨hm', ho'⟩ := Effect.complete_apply_memory v f target i s'
    rw [hm, hm', ho, ho', Effect.complete_apply_status, Effect.complete_apply_status, hs, hs']
    refine ⟨rfl, rfl, hmem, hout, fun _ => ⟨fun q hq => ?_, fun hw => ?_⟩⟩
    · rw [Effect.complete_apply_dest hq, Effect.complete_apply_dest hq]
    · obtain ⟨g, rfl⟩ := Option.isSome_iff_exists.1 (hf.trans hw)
      rw [Effect.complete_apply_flags, Effect.complete_apply_flags]
      rfl
  · obtain ⟨hdest, hw⟩ := isStore_writes_nothing hst
    simp [Effect.apply, hs, hs', hcfg, hpc, hmem, hout, hdest, hw]
  · simp [Effect.apply, hpc, hmem, hout]
  · simp [Effect.apply, hpc, hmem, hout]
  · simp [Effect.apply, hpc, hmem, hout]

/-! ## Aligned program counters -/

theorem branchTarget_aligned {pc : Word} (off : Int) (h : pc.toNat % 4 = 0) : (branchTarget pc off).toNat % 4 = 0 := by
  simp only [branchTarget, branchDisp, BitVec.toNat_add, BitVec.toNat_ofInt]
  omega

/-- Every successor of an aligned `pc` but that of `JR` is aligned, also where `pc + 4` wraps (R24, R191). -/
theorem Successor.aligned {i : Instr} {pc target : Word} (h : Successor i pc target) (hjr : ∀ rs, i ≠ .jr rs)
    (hpc : pc.toNat % 4 = 0) : target.toNat % 4 = 0 := by
  rcases h with rfl | ⟨off, rfl⟩ | ⟨rs, hi⟩
  · rw [BitVec.toNat_add, show (4 : Word).toNat = 4 from rfl]; omega
  · exact branchTarget_aligned off hpc
  · exact absurd hi (hjr rs)

/-- Settles O32: the successor of an instruction that completes is aligned, and no other effect but a store moves the
`pc`. -/
theorem onlyJrMisalignsThePc : Obligations.OnlyJrMisalignsThePc := by
  intro i s t hjr hpc h
  obtain rfl := exec_eq_next_iff.1 h
  rcases s.effect_cases i with ⟨v, f, target, e, -, hsucc⟩ | ⟨a, n, v, e, -⟩ | ⟨k, a, n, e, -⟩ | ⟨e, -⟩ | ⟨e, -⟩ <;>
    rw [e]
  · exact hsucc.aligned hjr hpc
  · exact Successor.aligned (.inl rfl) hjr hpc
  · exact hpc
  · exact hpc
  · exact hpc

end Sys2Proof.Machine
end

section
/-!
PROOFS. One step of the ISA level: its four cases (10_state.md R24, 60_exceptions.md R221 to R228), that a decoded
instruction is well-formed, and what a fault detail holds.
-/
namespace Sys2Proof

/-! ## A decoded instruction is well-formed (R103 to R105) -/

theorem imm15Ok_signedField (w : Word) : imm15Ok (signedField w 15) = true := by
  have := Nat.mod_lt w.toNat (show 0 < 2 ^ 15 by decide)
  unfold signedField
  split <;> simp only [imm15Ok, Bool.and_eq_true, decide_eq_true_eq] <;> omega

theorem off22Ok_signedField (w : Word) : off22Ok (signedField w 22) = true := by
  have := Nat.mod_lt w.toNat (show 0 < 2 ^ 22 by decide)
  unfold signedField
  split <;> simp only [off22Ok, Bool.and_eq_true, decide_eq_true_eq] <;> omega

section
variable {w : Word} {i : Instr}

theorem decodeR_wf (h : decodeR w = some i) : i.wf = true := by
  unfold decodeR at h
  split at h
  · split at h
    case h_12 =>
      obtain ⟨-, h⟩ := Option.ite_none_right_eq_some.1 h
      cases h; rfl
    all_goals cases h
    all_goals rfl
  · cases h

theorem decodeI_wf (h : decodeI w = some i) : i.wf = true := by
  unfold decodeI at h
  split at h
  case h_12 =>
    obtain ⟨-, h⟩ := Option.ite_none_right_eq_some.1 h
    cases h; exact imm15Ok_signedField w
  all_goals cases h
  all_goals exact imm15Ok_signedField w

theorem decodeM_wf (h : decodeM w = some i) : i.wf = true := by
  unfold decodeM at h
  split at h
  · split at h
    all_goals cases h
    all_goals exact imm15Ok_signedField w
  · cases h

theorem decodeBranch_wf (h : decodeBranch w = some i) : i.wf = true := by
  unfold decodeBranch at h
  split at h
  all_goals cases h
  all_goals exact off22Ok_signedField w

theorem decodeC_wf (h : decodeC w = some i) : i.wf = true := by
  unfold decodeC at h
  split at h
  case h_1 => exact decodeBranch_wf h
  case h_6 => cases h
  all_goals
    obtain ⟨-, h⟩ := Option.ite_none_right_eq_some.1 h
    cases h
  case h_2 => exact off22Ok_signedField w
  all_goals rfl

/-- Every decoded instruction is well-formed: its immediate is a field read back. -/
theorem decode_wf (h : decode w = some i) : i.wf = true := by
  unfold decode at h
  split at h
  · split at h
    · exact decodeR_wf h
    · exact decodeI_wf h
  · exact decodeM_wf h
  · exact decodeC_wf h
  · cases h

end

/-! ## The word of a division decodes to it (R109) -/

theorem decode_encodeR {op4 : Nat} (h : op4 < 16) (rd rs1 rs2 : Reg) :
    decode (encodeR op4 rd rs1 rs2) = decodeR (encodeR op4 rd rs1 rs2) := by
  simp [decode, encodeR_class h, encodeR_bit25 h]

theorem decode_encodeI {op4 : Nat} (h : op4 < 16) (rd rs1 : Reg) (imm : Int) :
    decode (encodeI op4 rd rs1 imm) = decodeI (encodeI op4 rd rs1 imm) := by
  simp [decode, encodeI_class h, encodeI_bit25 h]

theorem decode_encode_division {i : Instr} (hwf : i.wf = true) (hdiv : Machine.isDivision i = true) :
    decode (encode i) = some i := by
  cases i
  case div rd rs1 rs2 =>
    rw [encode, decode_encodeR (by decide)]
    simp [decodeR, encodeR_low, encodeR_op4, encodeR_rd, encodeR_rs1, encodeR_rs2]
  case mod rd rs1 rs2 =>
    rw [encode, decode_encodeR (by decide)]
    simp [decodeR, encodeR_low, encodeR_op4, encodeR_rd, encodeR_rs1, encodeR_rs2]
  case divi rd rs1 imm =>
    rw [encode, decode_encodeI (by decide)]
    simp [decodeI, encodeI_op4, encodeI_rd, encodeI_rs1, signedField_unsignedField15 (encodeI_imm _ _ _ _) hwf]
  case modi rd rs1 imm =>
    rw [encode, decode_encodeI (by decide)]
    simp [decodeI, encodeI_op4, encodeI_rd, encodeI_rs1, signedField_unsignedField15 (encodeI_imm _ _ _ _) hwf]
  all_goals cases hdiv

end Sys2Proof

namespace Sys2Proof.Machine

/-! ## The cases of a step -/

section
variable {s : State}

theorem step_of_terminal (h : s.status ≠ .running) : step s = .next s := by
  unfold step
  cases hs : s.status with
  | running => exact absurd hs h
  | halted | faulted => rfl

theorem step_of_fetchFault {f : Fault} (h : s.status = .running) (hf : accessFault s.cfg s.pc .word = some f) :
    step s = .next (s.raise f none (some s.pc)) := by
  simp [step, h, State.fetch, State.memRead, hf]

theorem step_of_illegal (h : s.status = .running) (ha : accessFault s.cfg s.pc .word = none)
    (hd : decode (s.mem.readWord s.pc.toNat) = none) :
    step s = .next (s.raise .invalidOpcode (some (s.mem.readWord s.pc.toNat)) none) := by
  simp [step, h, State.fetch, State.memRead, ha, Memory.readWidth, hd]

theorem step_of_decode {i : Instr} (h : s.status = .running) (ha : accessFault s.cfg s.pc .word = none)
    (hd : decode (s.mem.readWord s.pc.toNat) = some i) : step s = exec i s := by
  simp [step, h, State.fetch, State.memRead, ha, Memory.readWidth, hd]

end

/-- Everything a step can do (R226, R228). -/
theorem step_cases (s : State) :
    (s.status ≠ .running ∧ step s = .next s)
    ∨ (∃ f, s.status = .running ∧ accessFault s.cfg s.pc .word = some f
      ∧ step s = .next (s.raise f none (some s.pc)))
    ∨ (s.status = .running ∧ accessFault s.cfg s.pc .word = none ∧ decode (s.mem.readWord s.pc.toNat) = none
      ∧ step s = .next (s.raise .invalidOpcode (some (s.mem.readWord s.pc.toNat)) none))
    ∨ (∃ i, s.status = .running ∧ accessFault s.cfg s.pc .word = none
      ∧ decode (s.mem.readWord s.pc.toNat) = some i ∧ step s = .next ((s.effect i).apply i s)) := by
  by_cases h : s.status = .running
  · cases ha : accessFault s.cfg s.pc .word with
    | some f => exact .inr (.inl ⟨f, h, rfl, step_of_fetchFault h ha⟩)
    | none =>
      cases hd : decode (s.mem.readWord s.pc.toNat) with
      | none => exact .inr (.inr (.inl ⟨h, rfl, rfl, step_of_illegal h ha hd⟩))
      | some i => exact .inr (.inr (.inr ⟨i, h, rfl, rfl, (step_of_decode h ha hd).trans (exec_eq_effect i s)⟩))
  · exact .inl ⟨h, step_of_terminal h⟩

theorem State.raise_faultTaken (s : State) (k : Fault) (word addr : Option Word) :
    FaultTaken s (s.raise k word addr) { kind := k, pc := s.pc, word := word, addr := addr } where
  status := rfl
  pc := rfl
  regs := fun _ => rfl
  flags := rfl
  memory := ⟨fun _ => rfl, rfl⟩
  hidden := ⟨rfl, rfl, rfl⟩

/-- An aligned word inside memory can be fetched (R54 to R56). -/
theorem fetch_allowed {s : State} (halign : s.pc.toNat % 4 = 0) (hin : s.pc.toNat + 4 ≤ s.cfg.memSize) :
    accessFault s.cfg s.pc .word = none :=
  accessFault_eq_none.2 ⟨fun _ => halign, hin⟩

/-- Settles O7: the step's last case, with `decode_wf`. -/
theorem stepRunsTheDecodedInstruction : Obligations.StepRunsTheDecodedInstruction :=
  fun _ _ hrun halign hin hd => ⟨step_of_decode hrun (fetch_allowed halign hin) hd, decode_wf hd⟩

/-- Settles O8: the step's two fault cases. -/
theorem fetchAndDecodeFaults : Obligations.FetchAndDecodeFaults := by
  refine fun s hrun => ⟨fun hmis => ?_, fun halign hout => ?_, fun w halign hin hw hd => ?_⟩
  · exact ⟨_, step_of_fetchFault hrun (accessFault_eq_some.2 (.inl ⟨rfl, hmis, rfl⟩)), s.raise_faultTaken ..⟩
  · exact ⟨_, step_of_fetchFault hrun (accessFault_eq_some.2 (.inr ⟨fun h => h.2 halign, hout, rfl⟩)),
      s.raise_faultTaken ..⟩
  · subst hw
    exact ⟨_, step_of_illegal hrun (fetch_allowed halign hin) hd, s.raise_faultTaken ..⟩

/-- Settles O36: each case of a step has the same premises and the same effect whatever pipeline and caches hold. -/
theorem hiddenStateIsInvisible : Obligations.HiddenStateIsInvisible := by
  intro s t p c h
  rcases step_cases s with ⟨hr, e⟩ | ⟨f, hr, ha, e⟩ | ⟨hr, ha, hd, e⟩ | ⟨i, hr, ha, hd, e⟩ <;> cases e.symm.trans h
  · exact step_of_terminal hr
  · exact step_of_fetchFault hr ha
  · exact step_of_illegal hr ha hd
  · refine (step_of_decode (s := { s with pipe := p, caches := c }) hr ha hd).trans ((exec_eq_effect i _).trans ?_)
    exact congrArg Host.Outcome.next (Effect.apply_withHidden (s.effect i) i s p c)

/-! ## Terminal statuses (R228, R253) -/

section
variable {s : State} (h : s.status ≠ .running)
include h

theorem clock_of_terminal : clock s = s := by
  rcases clock_cases s with ⟨-, e⟩ | ⟨hrun, -⟩ | ⟨hrun, -⟩
  · exact e
  · exact absurd hrun h
  · exact absurd hrun h

theorem hostRun_of_terminal (k : Nat) : hostRun k s = (s, s.status) := by
  cases k with
  | zero => rfl
  | succ k =>
    unfold hostRun
    cases hs : s.status with
    | running => exact absurd hs h
    | halted | faulted => rfl

end

/-- Settles O9: each of the three looks at the status first. -/
theorem terminalStatusIsFinal : Obligations.TerminalStatusIsFinal :=
  fun _ h => ⟨step_of_terminal h, clock_of_terminal h, hostRun_of_terminal h⟩

end Sys2Proof.Machine
end

section
/-!
PROOFS. One cycle of the pipeline keeps `PipeInv` (70_reset_and_hazards.md R270): the outputs of the stages of an
advance cycle under names of their own, what the invariant makes of each output, and the cycle put together.
-/
namespace Sys2Proof.Machine

/-! ## Fault details (60_exceptions.md R220, R225) -/

/-- A failed access check makes a sound detail; without a word it is a fetch, whose address is the `pc`. -/
theorem accessFault_sound {c : Config} {a pc : Word} {n : Width} {k : Fault} {word : Option Word}
    (h : accessFault c a n = some k) (hw : word = none → a = pc) :
    FaultDetail.sound c { kind := k, pc := pc, word := word, addr := some a } := by
  rcases accessFault_eq_some.1 h with ⟨-, hmis, rfl⟩ | ⟨-, hout, rfl⟩
  · exact ⟨a, rfl, hmis, hw⟩
  · refine ⟨a, rfl, ?_, hw⟩
    cases n <;> simp only [Width.bytes] at hout <;> omega

/-! ## The stages of an advance cycle, by name -/

section
variable (s : State)

/-- What the Memory stage produces in this cycle. -/
def State.memOut : MemOut := s.writeBack.memStage

/-- What Execute produces in this cycle. -/
def State.execOut : ExecOut := s.pipe.execStage s.flags s.memOut.fault.isSome

/-- Memory or Execute squashes the younger stages in this cycle. -/
def State.squashes : Bool :=
  s.memOut.fault.isSome || s.execOut.fault.isSome || s.execOut.redirect.isSome || s.execOut.stop

/-- What Decode produces in this cycle. -/
def State.decodeOut : DecodeOut := s.writeBack.decodeStage s.pipe s.squashes

/-- The fault of the oldest stage that finds one in this cycle. -/
def State.newFault : Option FaultDetail := s.memOut.fault.or (s.execOut.fault.or s.decodeOut.fault)

/-- What Fetch produces in this cycle. -/
def State.fetchOut : FetchOut :=
  s.memOut.next.fetchStage s.pipe (s.squashes || s.decodeOut.fault.isSome) s.execOut.redirect s.decodeOut.stall

/-- The latches and control fields after the stages of this cycle. -/
def State.nextPipe : Pipe where
  fpc := s.fetchOut.fpc
  fd := s.fetchOut.fd
  dx := s.decodeOut.dx
  xm := s.execOut.xm
  mw := s.memOut.mw
  fetchEnable := s.pipe.fetchEnable && !(s.execOut.stop || s.newFault.isSome)
  memElapsed := s.pipe.elapsedAfter
  pendingFault := s.newFault.or s.pipe.pendingFault
  cycle := s.pipe.cycle

/-- The machine after the stages of this cycle, before a fault is reported. -/
def State.advanced : State := { s.fetchOut.next with pipe := s.nextPipe }

theorem State.advance_eq : s.advance = s.advanced.reportFault := rfl

/-! ## What the stages leave alone -/

/-- Fetch changes nothing but the caches, so the cycle leaves the rest as the Memory stage made it. -/
theorem State.advanced_eq :
    s.advanced = { s.memOut.next with caches := s.fetchOut.next.caches, pipe := s.nextPipe } := by
  have h : s.fetchOut.next = { s.memOut.next with caches := s.fetchOut.next.caches } :=
    s.memOut.next.fetchStage_next _ _ _ _
  unfold State.advanced
  rw [h]

theorem State.advanced_cfg : s.advanced.cfg = s.cfg := by
  rw [s.advanced_eq]
  exact s.writeBack.memStage_next.1.trans s.writeBack_cfg

theorem State.advanced_status : s.advanced.status = if s.pipe.mw.any MW.halt then .halted else s.status := by
  obtain ⟨-, hstatus, -⟩ := s.writeBack.memStage_next
  rw [s.advanced_eq]
  exact hstatus.trans s.writeBack_status

/-- A fault report changes the status only. -/
theorem State.reportFault_eq : s.reportFault = { s with status := s.reportFault.status } := by
  rcases s.reportFault_cases with e | ⟨d, -, -, -, -, -, -, e⟩ <;> rw [e]

end

/-! ## What the invariant says of one latch -/

/-- An `XM` entry holds what Execute makes of its own word (R32, R268). -/
structure XM.Sound (x : XM) : Prop where
  word  : decode x.word = some x.d
  dest  : x.dest = x.d.dest
  flags : x.flags.isSome = x.d.writesFlags
  halt  : x.halt = true ↔ x.d = .halt

/-- An `MW` entry holds what the Memory stage makes of its own word (R32, R257, R268). -/
structure MW.Sound (m : MW) : Prop where
  word  : decode m.word = some m.d
  dest  : m.dest = m.d.dest
  flags : m.flags.isSome = m.d.writesFlags
  halt  : m.halt = true ↔ m.d = .halt

section
variable {s : State}

theorem PipeInv.xmSound (h : PipeInv s) {x : XM} (hx : s.pipe.xm = some x) : x.Sound :=
  ⟨h.xmWord x hx, h.xmDest x hx, h.xmFlags x hx, h.xmHalt x hx⟩

theorem PipeInv.mwSound (h : PipeInv s) {m : MW} (hm : s.pipe.mw = some m) : m.Sound :=
  ⟨h.mwWord m hm, h.mwDest m hm, h.mwFlags m hm, h.mwHalt m hm⟩

/-- While a valid entry stands in `DX` no fault is pending (R267). -/
theorem PipeInv.pending_eq_none (h : PipeInv s) {y : DX} (hy : s.pipe.dx = some y) : s.pipe.pendingFault = none := by
  cases hp : s.pipe.pendingFault with
  | none => rfl
  | some d =>
    have hdx := (h.stopped (h.pending d hp).1).2
    rw [hy] at hdx
    cases hdx

theorem XM.From.sound {x : XM} {y : DX} (h : x.From y) (hy : decode y.word = some y.d) : x.Sound where
  word := by rw [h.word, h.d, hy]
  dest := by rw [h.dest, h.d]
  flags := by rw [h.flags, h.d]
  halt := by rw [h.halt, h.d, beq_iff_eq]

/-- The Memory stage hands on an entry that makes no access as it is. -/
theorem XM.Sound.toMW {x : XM} (h : x.Sound) : (x.toMW x.result x.dest x.flags x.halt).Sound :=
  ⟨h.word, h.dest, h.flags, h.halt⟩

/-- A load or store leaves the Memory stage without flags and without the halt bit, a store without destination. -/
theorem XM.Sound.toMW_of_memOp {x : XM} (h : x.Sound) {k : MemKind} {n : Width} (hop : memOp x.d = some (k, n))
    (v : Word) {dest : Option Reg} (hdest : dest = x.d.dest) : (x.toMW v dest none false).Sound := by
  obtain ⟨hflags, -, hhalt, -⟩ := memOp_eq_some hop
  exact ⟨h.word, hdest, hflags.symm, iff_of_false Bool.false_ne_true hhalt⟩

/-! ## What each stage produces -/

/-- Everything the Memory stage can do with its entry in this cycle. -/
theorem State.memOut_cases (hinv : PipeInv s) :
    (s.pipe.xm = none ∧ s.memOut.mw = none ∧ s.memOut.fault = none)
    ∨ (∃ x m, s.pipe.xm = some x ∧ s.memOut.mw = some m ∧ m.d = x.d ∧ m.Sound ∧ s.memOut.fault = none)
    ∨ (∃ d, s.memOut.mw = none ∧ s.memOut.fault = some d ∧ d.sound s.cfg) := by
  unfold State.memOut
  have hpipe := s.writeBack_pipe
  rcases s.writeBack.memStage_cases with ⟨hx, e⟩ | ⟨x, hx, -, e⟩ | ⟨x, k, n, f, hx, -, hf, e⟩ | ⟨x, n, hx, hop, -, e⟩ |
    ⟨x, n, hx, hop, -, e⟩ <;> rw [hpipe] at hx <;> rw [e]
  · exact .inl ⟨hx, rfl, rfl⟩
  · exact .inr (.inl ⟨x, _, hx, rfl, rfl, (hinv.xmSound hx).toMW, rfl⟩)
  · rw [s.writeBack_cfg] at hf
    exact .inr (.inr ⟨_, rfl, rfl, accessFault_sound hf nofun⟩)
  · have hx' := hinv.xmSound hx
    exact .inr (.inl ⟨x, _, hx, rfl, rfl, hx'.toMW_of_memOp hop _ hx'.dest, rfl⟩)
  · have hst : isStore x.d = true := by simp [isStore, hop]
    exact .inr (.inl ⟨x, _, hx, rfl, rfl,
      (hinv.xmSound hx).toMW_of_memOp hop _ (isStore_writes_nothing hst).1.symm, rfl⟩)

/-- Everything Execute can do in this cycle. -/
theorem State.execOut_cases (hinv : PipeInv s) :
    s.execOut = ExecOut.idle
    ∨ (∃ d, s.execOut = { ExecOut.idle with fault := some d } ∧ d.sound s.cfg)
    ∨ (∃ x y, s.pipe.dx = some y ∧ s.memOut.fault = none ∧ x.From y ∧ s.execOut.xm = some x
      ∧ s.execOut.stop = (y.d == .halt) ∧ s.execOut.fault = none) := by
  unfold State.execOut
  rcases s.pipe.execStage_cases s.flags s.memOut.fault.isSome with ⟨-, e⟩ | ⟨y, hy, hme, e⟩ <;> rw [e]
  · exact .inl rfl
  · rcases s.pipe.execute_cases s.flags y with ⟨-, halu, e⟩ | ⟨x, hx, e⟩ <;> rw [e]
    · exact .inr (.inl ⟨_, rfl, rfl, y.word, y.d, rfl, hinv.dxWord y hy, isDivision_of_alu_eq_none halu⟩)
    · exact .inr (.inr ⟨x, y, hy, by simpa using hme, hx, rfl, rfl, rfl⟩)

/-- Everything Decode can do in this cycle. -/
theorem State.decodeOut_cases (hinv : PipeInv s) :
    s.decodeOut = DecodeOut.idle
    ∨ (s.squashes = false ∧ ∃ d, s.decodeOut = { DecodeOut.idle with fault := some d } ∧ d.sound s.cfg)
    ∨ (s.squashes = false ∧ s.decodeOut = { DecodeOut.idle with stall := true })
    ∨ (s.squashes = false ∧ ∃ y, s.decodeOut = { DecodeOut.idle with dx := some y } ∧ decode y.word = some y.d
      ∧ loadUse s.pipe.dx y.d = false) := by
  unfold State.decodeOut
  rcases s.writeBack.decodeStage_cases s.pipe s.squashes with ⟨-, e⟩ | ⟨f, hf, hsq, e⟩ <;> rw [e]
  · exact .inl rfl
  · refine .inr ?_
    rcases s.writeBack.decodeEntry_cases s.pipe f with ⟨k, a, hff, e⟩ | ⟨-, hd, e⟩ | ⟨d, -, -, -, e⟩ |
      ⟨d, -, hd, hl, e⟩ <;> rw [e]
    · obtain ⟨rfl, hacc⟩ := hinv.fdFault f k a hf hff
      exact .inl ⟨hsq, _, rfl, accessFault_sound hacc fun _ => rfl⟩
    · exact .inl ⟨hsq, _, rfl, rfl, f.word, rfl, hd⟩
    · exact .inr (.inl ⟨hsq, rfl⟩)
    · exact .inr (.inr ⟨hsq, _, rfl, hd, hl⟩)

/-- A squashed Decode stage does nothing. -/
theorem State.decodeOut_of_squashes (h : s.squashes = true) : s.decodeOut = DecodeOut.idle := by
  rcases s.writeBack.decodeStage_cases s.pipe s.squashes with ⟨-, e⟩ | ⟨f, -, hsq, -⟩
  · exact e
  · rw [h] at hsq; cases hsq

/-- Decode does nothing with a bubble. -/
theorem State.decodeOut_of_bubble (h : s.pipe.fd = none) : s.decodeOut = DecodeOut.idle := by
  rcases s.writeBack.decodeStage_cases s.pipe s.squashes with ⟨-, e⟩ | ⟨f, hf, -⟩
  · exact e
  · rw [h] at hf; cases hf

/-- A fetched entry tells about itself what `PipeInv` asks of `FD`. -/
theorem State.fetchOut_fault (hinv : PipeInv s) {f : FD} {k : Fault} {a : Word} (hf : s.fetchOut.fd = some f)
    (hk : f.ffault = some (k, a)) : a = f.pc ∧ accessFault s.cfg f.pc .word = some k := by
  have hcfg : s.memOut.next.cfg = s.cfg := s.writeBack.memStage_next.1.trans s.writeBack_cfg
  unfold State.fetchOut at hf
  rcases s.memOut.next.fetchStage_cases s.pipe (s.squashes || s.decodeOut.fault.isSome) s.execOut.redirect
    s.decodeOut.stall with ⟨-, e⟩ | ⟨-, -, e⟩ | ⟨-, -, -, e⟩ | ⟨-, -, -, e⟩ <;> rw [e] at hf
  · cases hf
  · exact hinv.fdFault f k a hf hk
  · rcases s.memOut.next.fetchEntry_cases s.pipe.fpc with ⟨g, hg, e⟩ | ⟨-, e⟩ <;> rw [e] at hf <;> cases hf <;> cases hk
    exact ⟨rfl, hcfg ▸ hg⟩
  · cases hf

/-- Nothing is fetched past a squash or a fault found in Decode. -/
theorem State.fetchOut_of_squashed (h : s.squashes = true ∨ s.decodeOut.fault.isSome = true) :
    s.fetchOut.fd = none := by
  simp only [State.fetchOut, State.fetchStage, Bool.or_eq_true, if_pos h]

/-- Nothing is fetched while fetching is switched off and Decode does not stall. -/
theorem State.fetchOut_of_disabled (h : s.pipe.fetchEnable = false) (hst : s.decodeOut.stall = false) :
    s.fetchOut.fd = none := by
  unfold State.fetchOut
  rcases s.memOut.next.fetchStage_cases s.pipe (s.squashes || s.decodeOut.fault.isSome) s.execOut.redirect
    s.decodeOut.stall with ⟨-, e⟩ | ⟨-, hs, -⟩ | ⟨-, -, hen, -⟩ | ⟨-, -, -, e⟩
  · rw [e]
  · rw [hst] at hs; cases hs
  · rw [h] at hen; cases hen
  · rw [e]

/-! ## The next latches -/

/-- Fetching is off after a cycle if it was off before, a `HALT` is in Execute, or a fault was found. -/
theorem State.nextPipe_fetchEnable_eq_false :
    s.nextPipe.fetchEnable = false
      ↔ s.pipe.fetchEnable = false ∨ s.execOut.stop = true ∨ s.newFault.isSome = true := by
  cases hf : s.pipe.fetchEnable <;> simp [State.nextPipe, hf, or_iff_not_imp_left]

theorem State.newFault_isSome (h : s.newFault.isSome = true) :
    s.squashes = true ∨ s.decodeOut.fault.isSome = true := by
  simp only [State.newFault, Option.isSome_or, Bool.or_eq_true] at h
  simp only [State.squashes, Bool.or_eq_true]
  tauto

/-- A fault found in Decode leaves a bubble in `DX`. -/
theorem State.decodeOut_dx_of_fault (hinv : PipeInv s) (h : s.decodeOut.fault.isSome = true) :
    s.decodeOut.dx = none := by
  rcases State.decodeOut_cases hinv with e | ⟨-, d, e, -⟩ | ⟨-, e⟩ | ⟨-, y, e, -⟩
  · rw [e]; rfl
  · rw [e]; rfl
  · rw [e]; rfl
  · rw [e] at h; cases h

theorem State.nextPipe_stopped (hinv : PipeInv s) (h : s.nextPipe.fetchEnable = false) :
    s.nextPipe.fd = none ∧ s.nextPipe.dx = none := by
  have squashed (hsq : s.squashes = true ∨ s.decodeOut.fault.isSome = true) :
      s.nextPipe.fd = none ∧ s.nextPipe.dx = none := by
    refine ⟨State.fetchOut_of_squashed hsq, ?_⟩
    rcases hsq with hsq | hf
    · exact congrArg DecodeOut.dx (State.decodeOut_of_squashes hsq)
    · exact State.decodeOut_dx_of_fault hinv hf
  rcases State.nextPipe_fetchEnable_eq_false.1 h with hoff | hstop | hfault
  · have hidle := State.decodeOut_of_bubble (hinv.stopped hoff).1
    exact ⟨State.fetchOut_of_disabled hoff (by rw [hidle]; rfl), congrArg DecodeOut.dx hidle⟩
  · exact squashed (.inl (by simp [State.squashes, hstop]))
  · exact squashed (State.newFault_isSome hfault)

theorem State.newFault_sound (hinv : PipeInv s) {d : FaultDetail} (h : s.newFault = some d) : d.sound s.cfg := by
  simp only [State.newFault, Option.or_eq_some_iff] at h
  rcases h with hm | ⟨-, hx | ⟨-, hd⟩⟩
  · rcases State.memOut_cases hinv with ⟨-, -, e⟩ | ⟨_, _, -, -, -, -, e⟩ | ⟨d', -, e, hsound⟩ <;> cases e.symm.trans hm
    exact hsound
  · rcases State.execOut_cases hinv with e | ⟨d', e, hsound⟩ | ⟨_, _, -, -, -, -, -, e⟩ <;>
      rw [e] at hx <;> cases hx
    exact hsound
  · rcases State.decodeOut_cases hinv with e | ⟨-, d', e, hsound⟩ | ⟨-, e⟩ | ⟨-, _, e, -⟩ <;> rw [e] at hd <;> cases hd
    exact hsound

/-- The next `XM` entry comes from `DX`, in a cycle without an older fault. -/
theorem State.execOut_xm (hinv : PipeInv s) {x : XM} (h : s.execOut.xm = some x) :
    ∃ y, s.pipe.dx = some y ∧ x.From y ∧ s.memOut.fault = none ∧ s.execOut.stop = (y.d == .halt)
      ∧ s.execOut.fault = none := by
  rcases State.execOut_cases hinv with e | ⟨_, e, -⟩ | ⟨x', y, hy, hm, hfrom, hx, hstop, hf⟩
  · rw [e] at h; cases h
  · rw [e] at h; cases h
  · cases hx.symm.trans h
    exact ⟨y, hy, hfrom, hm, hstop, hf⟩

/-- The next `MW` entry comes from `XM`, in a cycle without a Memory-stage fault. -/
theorem State.memOut_mw (hinv : PipeInv s) {m : MW} (h : s.memOut.mw = some m) :
    ∃ x, s.pipe.xm = some x ∧ m.d = x.d ∧ m.Sound ∧ s.memOut.fault = none := by
  rcases State.memOut_cases hinv with ⟨-, e, -⟩ | ⟨x, m', hx, e, hd, hm, hf⟩ | ⟨d, e, -⟩ <;> cases e.symm.trans h
  exact ⟨x, hx, hd, hm, hf⟩

/-- The next `DX` entry is decoded from its word and reads nothing the load before it is about to write. -/
theorem State.decodeOut_dx (hinv : PipeInv s) {y : DX} (h : s.decodeOut.dx = some y) :
    decode y.word = some y.d ∧ loadUse s.pipe.dx y.d = false := by
  rcases State.decodeOut_cases hinv with e | ⟨-, d, e, -⟩ | ⟨-, e⟩ | ⟨-, y', e, hword, hload⟩ <;>
    rw [e] at h <;> cases h
  exact ⟨hword, hload⟩

theorem loadUse_eq_false {z : DX} {d : Instr} {r : Reg} (h : loadUse (some z) d = false) (hl : isLoad z.d = true)
    (hr : z.d.dest = some r) : d.srcA ≠ some r ∧ d.srcB ≠ some r := by
  simpa [loadUse, hl, hr] using h

theorem State.nextPipe_noLoadUse (hinv : PipeInv s) {x : XM} {y : DX} {r : Reg} (hx : s.nextPipe.xm = some x)
    (hl : isLoad x.d = true) (hr : x.dest = some r) (hy : s.nextPipe.dx = some y) :
    y.d.srcA ≠ some r ∧ y.d.srcB ≠ some r := by
  obtain ⟨z, hz, hfrom, -⟩ := State.execOut_xm hinv hx
  have hload := (State.decodeOut_dx hinv hy).2
  rw [hz] at hload
  exact loadUse_eq_false hload (hfrom.d ▸ hl) (hfrom.dest ▸ hr)

/-- After an advance cycle no wait cycle is counted (R256). -/
theorem State.nextPipe_memElapsed (hinv : PipeInv s) : s.nextPipe.memElapsed = 0 := by
  show s.pipe.elapsedAfter = 0
  by_cases h : s.pipe.memElapsed = 0
  · simp [Pipe.elapsedAfter, h]
  · obtain ⟨x, k, n, hx, hop, -⟩ := hinv.elapsed h
    simp [Pipe.elapsedAfter, hx, hop]

theorem State.nextPipe_pending (hinv : PipeInv s) {d : FaultDetail} (h : s.nextPipe.pendingFault = some d) :
    s.nextPipe.fetchEnable = false ∧ d.sound s.cfg := by
  rw [State.nextPipe_fetchEnable_eq_false]
  rcases Option.or_eq_some_iff.1 h with hnew | ⟨-, hold⟩
  · exact ⟨.inr (.inr (by rw [hnew]; rfl)), State.newFault_sound hinv hnew⟩
  · obtain ⟨hoff, hsound⟩ := hinv.pending d hold
    exact ⟨.inl hoff, hsound⟩

/-- A `HALT` that leaves Execute switches fetching off, and no fault is or becomes pending (R268). -/
theorem State.nextPipe_haltInXM (hinv : PipeInv s) {x : XM} (hx : s.nextPipe.xm = some x) (hd : x.d = .halt) :
    s.nextPipe.fetchEnable = false ∧ s.nextPipe.pendingFault = none := by
  obtain ⟨y, hy, hfrom, hmf, hstop, hxf⟩ := State.execOut_xm hinv hx
  have hstop : s.execOut.stop = true := by rw [hstop, ← hfrom.d, hd]; rfl
  have hidle := State.decodeOut_of_squashes (s := s) (by simp [State.squashes, hstop])
  refine ⟨State.nextPipe_fetchEnable_eq_false.2 (.inr (.inl hstop)), ?_⟩
  simp [State.nextPipe, State.newFault, hmf, hxf, hidle, DecodeOut.idle, hinv.pending_eq_none hy]

/-- With bubbles in `FD` and `DX` and no older fault, Execute and Decode do nothing. -/
theorem State.idle_of_stopped (hinv : PipeInv s) (hoff : s.pipe.fetchEnable = false) :
    s.execOut = ExecOut.idle ∧ s.decodeOut = DecodeOut.idle := by
  obtain ⟨hfd, hdx⟩ := hinv.stopped hoff
  refine ⟨?_, State.decodeOut_of_bubble hfd⟩
  rcases s.pipe.execStage_cases s.flags s.memOut.fault.isSome with ⟨-, e⟩ | ⟨y, hy, -⟩
  · exact e
  · rw [hdx] at hy; cases hy

/-- A `HALT` that leaves the Memory stage is alone in the pipeline (R268). -/
theorem State.nextPipe_haltInMW (hinv : PipeInv s) {m : MW} (hm : s.nextPipe.mw = some m) (hd : m.d = .halt) :
    s.nextPipe.xm = none ∧ s.nextPipe.fetchEnable = false ∧ s.nextPipe.pendingFault = none := by
  obtain ⟨x, hx, hdx, -, hmf⟩ := State.memOut_mw hinv hm
  obtain ⟨hoff, hnone⟩ := hinv.haltInXM x hx (hdx ▸ hd)
  obtain ⟨hex, hde⟩ := State.idle_of_stopped hinv hoff
  refine ⟨congrArg ExecOut.xm hex, State.nextPipe_fetchEnable_eq_false.2 (.inl hoff), ?_⟩
  simp [State.nextPipe, State.newFault, hmf, hex, hde, ExecOut.idle, DecodeOut.idle, hnone]

/-- A `HALT` that commits leaves every latch empty (R268). -/
theorem State.nextPipe_of_halted (hinv : PipeInv s) (hrun : s.status = .running) (h : s.advanced.status ≠ .running) :
    s.nextPipe.fd = none ∧ s.nextPipe.dx = none ∧ s.nextPipe.xm = none ∧ s.nextPipe.mw = none
      ∧ s.nextPipe.fetchEnable = false := by
  obtain ⟨m, hm, hhalt⟩ : ∃ m, s.pipe.mw = some m ∧ m.halt = true := by
    cases hm : s.pipe.mw with
    | none => simp [s.advanced_status, hm, hrun] at h
    | some m => exact ⟨m, rfl, by_contra fun hn => h (by simp [s.advanced_status, hm, hn, hrun])⟩
  obtain ⟨hxm, hoff, -⟩ := hinv.haltInMW m hm ((hinv.mwHalt m hm).1 hhalt)
  have hoff' : s.nextPipe.fetchEnable = false := State.nextPipe_fetchEnable_eq_false.2 (.inl hoff)
  obtain ⟨hfd, hdx⟩ := State.nextPipe_stopped hinv hoff'
  refine ⟨hfd, hdx, congrArg ExecOut.xm (State.idle_of_stopped hinv hoff).1, ?_, hoff'⟩
  cases hmw : s.nextPipe.mw with
  | none => rfl
  | some m' =>
    obtain ⟨x, hx, -⟩ := State.memOut_mw hinv hmw
    rw [hxm] at hx
    cases hx

end

/-! ## The invariant over a cycle -/

section
variable {s : State}

theorem PipeInv.nextXmSound (h : PipeInv s) {x : XM} (hx : s.nextPipe.xm = some x) : x.Sound := by
  obtain ⟨y, hy, hfrom, -⟩ := State.execOut_xm h hx
  exact hfrom.sound (h.dxWord y hy)

theorem PipeInv.nextMwSound (h : PipeInv s) {m : MW} (hm : s.nextPipe.mw = some m) : m.Sound := by
  obtain ⟨-, -, -, hsound, -⟩ := State.memOut_mw h hm
  exact hsound

/-- An advance cycle before its fault report keeps the invariant. -/
theorem PipeInv.advanced (h : PipeInv s) (hrun : s.status = .running) : PipeInv s.advanced where
  fdFault f k a hf hk := by rw [s.advanced_cfg]; exact State.fetchOut_fault h hf hk
  dxWord y hy := (State.decodeOut_dx h hy).1
  xmWord x hx := (h.nextXmSound hx).word
  xmDest x hx := (h.nextXmSound hx).dest
  xmFlags x hx := (h.nextXmSound hx).flags
  xmHalt x hx := (h.nextXmSound hx).halt
  mwWord m hm := (h.nextMwSound hm).word
  mwDest m hm := (h.nextMwSound hm).dest
  mwFlags m hm := (h.nextMwSound hm).flags
  mwHalt m hm := (h.nextMwSound hm).halt
  elapsed he := absurd (State.nextPipe_memElapsed h) he
  noLoadUse x y r hx hl hr hy := State.nextPipe_noLoadUse h hx hl hr hy
  stopped hoff := State.nextPipe_stopped h hoff
  pending d hd := by rw [s.advanced_cfg]; exact State.nextPipe_pending h hd
  haltInXM x hx hd := State.nextPipe_haltInXM h hx hd
  haltInMW m hm hd := State.nextPipe_haltInMW h hm hd
  drained hst := State.nextPipe_of_halted h hrun hst

/-- The invariant looks at the status only to ask that a machine that does not run has drained. -/
theorem PipeInv.withStatus (h : PipeInv s) {st : Status}
    (hdrained : st ≠ .running → s.pipe.fd = none ∧ s.pipe.dx = none ∧ s.pipe.xm = none ∧ s.pipe.mw = none
      ∧ s.pipe.fetchEnable = false) : PipeInv { s with status := st } :=
  ⟨h.fdFault, h.dxWord, h.xmWord, h.xmDest, h.xmFlags, h.xmHalt, h.mwWord, h.mwDest, h.mwFlags, h.mwHalt, h.elapsed,
    h.noLoadUse, h.stopped, h.pending, h.haltInXM, h.haltInMW, hdrained⟩

/-- A fault is reported from empty latches only. -/
theorem PipeInv.reportFault (h : PipeInv s) : PipeInv s.reportFault := by
  rcases s.reportFault_cases with e | ⟨d, hd, -, hfd, hdx, hxm, hmw, e⟩ <;> rw [e]
  · exact h
  · exact h.withStatus fun _ => ⟨hfd, hdx, hxm, hmw, (h.pending d hd).1⟩

/-- The invariant does not look at `cycle`, and at `memElapsed` only to ask for an access that waits. -/
theorem PipeInv.withCounters (h : PipeInv s) (cycle : Nat) {elapsed : Nat}
    (he : elapsed ≠ 0 → ∃ x k n, s.pipe.xm = some x ∧ memOp x.d = some (k, n) ∧ accessFault s.cfg x.result n = none) :
    PipeInv { s with pipe := { s.pipe with cycle := cycle, memElapsed := elapsed } } :=
  ⟨h.fdFault, h.dxWord, h.xmWord, h.xmDest, h.xmFlags, h.xmHalt, h.mwWord, h.mwDest, h.mwFlags, h.mwHalt, he,
    h.noLoadUse, h.stopped, h.pending, h.haltInXM, h.haltInMW, h.drained⟩

theorem PipeInv.countCycle (h : PipeInv s) : PipeInv s.countCycle := h.withCounters _ h.elapsed

/-- A machine waits for an access that passed its checks (R256). -/
theorem State.access_of_waits (h : s.waits = true) :
    ∃ x k n, s.pipe.xm = some x ∧ memOp x.d = some (k, n) ∧ accessFault s.cfg x.result n = none := by
  unfold State.waits at h
  cases hx : s.pipe.xm with
  | none => simp [hx] at h
  | some x =>
    rcases hop : memOp x.d with _ | ⟨k, n⟩
    · simp [hx, hop] at h
    · cases hf : accessFault s.cfg x.result n with
      | some f => simp [hx, hop, hf] at h
      | none => exact ⟨x, k, n, rfl, hop, hf⟩

end

/-- Settles O51: a wait cycle only counts, and an advance cycle keeps the invariant before and in its report. -/
theorem clockKeepsThePipelineInvariant : Obligations.ClockKeepsThePipelineInvariant := by
  intro s h
  rcases clock_cases s with ⟨-, e⟩ | ⟨-, hw, e⟩ | ⟨hrun, -, e⟩ <;> rw [e]
  · exact h
  · exact h.withCounters _ fun _ => State.access_of_waits hw
  · exact (h.countCycle.advanced hrun).reportFault

end Sys2Proof.Machine
end

section
/-!
PROOFS. `ArchInv` at both levels, and the growth of the output log. A step and a cycle change memory and the log in
the same way, by at most one store whose checks passed (20_memory.md R57, R58), so one frame rule serves both.
-/
namespace Sys2Proof.Machine

/-! ## Memory within its bounds -/

theorem mem_writeCells {l : List Host.Cell} {a : Nat} {v : Byte} {c : Host.Cell} (h : c ∈ writeCells l a v) :
    c ∈ l ∨ c.1 = a := by
  induction l with
  | nil =>
    unfold writeCells at h
    split at h
    · cases h
    · exact .inr (by rw [List.mem_singleton.1 h])
  | cons d l ih =>
    unfold writeCells at h
    split_ifs at h <;> simp only [List.mem_cons] at h ⊢
    · exact .inl h
    · rcases h with rfl | h
      · exact .inr rfl
      · exact .inl h
    · exact .inl (.inr h)
    · rcases h with rfl | h
      · exact .inr rfl
      · exact .inl (.inr h)
    · rcases h with rfl | h
      · exact .inl (.inl rfl)
      · exact (ih h).imp_left .inr

theorem Memory.within_write {m : Memory} {size a : Nat} {v : Byte} (h : m.within size) (ha : a < size) :
    (m.write a v).within size := fun c hc => by
  rcases mem_writeCells hc with hc | rfl
  · exact h c hc
  · exact ha

theorem Memory.within_writeWord {m : Memory} {size a : Nat} {v : Word} (h : m.within size) (ha : a + 4 ≤ size) :
    (m.writeWord a v).within size :=
  within_write (within_write (within_write (within_write h (by omega)) (by omega)) (by omega)) (by omega)

theorem Memory.within_writeWidth {m : Memory} {size a : Nat} {n : Width} {v : Word} (h : m.within size)
    (ha : a + n.bytes ≤ size) : (m.writeWidth a n v).within size := by
  cases n with
  | byte => exact within_write h ha
  | word => exact within_writeWord h ha

/-! ## At most one store -/

/-- What a step or a cycle can do to memory and the output log: nothing, or one store whose checks passed. -/
def AtMostOneStore (s t : State) : Prop :=
  (t.mem = s.mem ∧ t.out = s.out)
  ∨ ∃ a n v, accessFault s.cfg a n = none ∧ t.mem = (s.store a n v).mem ∧ t.out = (s.store a n v).out

theorem AtMostOneStore.refl (s : State) : AtMostOneStore s s := .inl ⟨rfl, rfl⟩

/-- A store appends at most one record (R58). -/
theorem AtMostOneStore.out_eq_append {s t : State} (h : AtMostOneStore s t) :
    ∃ l, l.length ≤ 1 ∧ t.out = s.out ++ l := by
  rcases h with ⟨-, ho⟩ | ⟨a, n, v, -, -, ho⟩
  · exact ⟨[], Nat.zero_le 1, by simp [ho]⟩
  · rw [ho, State.store_out]
    split
    · exact ⟨[outRecord a n v], Nat.le_refl 1, rfl⟩
    · exact ⟨[], Nat.zero_le 1, by simp⟩

theorem Effect.apply_atMostOneStore (s : State) (i : Instr) : AtMostOneStore s ((s.effect i).apply i s) := by
  rcases s.effect_cases i with ⟨v, f, target, e, -⟩ | ⟨a, n, v, e, -, ha⟩ | ⟨k, a, n, e, -⟩ | ⟨e, -⟩ | ⟨e, -⟩ <;> rw [e]
  · exact .inl (Effect.complete_apply_memory ..)
  · exact .inr ⟨a, n, v, ha, rfl, rfl⟩
  · exact .refl s
  · exact .refl s
  · exact .refl s

theorem step_atMostOneStore {s t : State} (h : step s = .next t) : AtMostOneStore s t := by
  rcases step_cases s with ⟨-, e⟩ | ⟨f, -, -, e⟩ | ⟨-, -, -, e⟩ | ⟨i, -, -, -, e⟩ <;> cases e.symm.trans h
  · exact .refl s
  · exact .refl s
  · exact .refl s
  · exact Effect.apply_atMostOneStore s i

theorem State.memStage_atMostOneStore (s : State) : AtMostOneStore s s.memStage.next := by
  rcases s.memStage_cases with ⟨_, e⟩ | ⟨_, _, _, e⟩ | ⟨_, _, _, _, _, _, _, e⟩ | ⟨x, n, _, _, _, e⟩ |
    ⟨x, n, _, _, ha, e⟩ <;> rw [e]
  · exact .refl s
  · exact .refl s
  · exact .refl s
  · exact .inl ⟨s.dataLoad_mem .., s.dataLoad_out ..⟩
  · exact .inr ⟨x.result, n, x.sdata, ha, rfl, rfl⟩

theorem State.advance_atMostOneStore (s : State) : AtMostOneStore s s.advance := by
  have h := s.writeBack.memStage_atMostOneStore
  rw [s.advance_eq, State.reportFault_eq, s.advanced_eq]
  simpa [AtMostOneStore, State.memOut] using h

theorem clock_atMostOneStore (s : State) : AtMostOneStore s (clock s) := by
  rcases clock_cases s with ⟨-, e⟩ | ⟨-, -, e⟩ | ⟨-, -, e⟩ <;> rw [e]
  · exact .refl s
  · exact .refl s
  · exact s.countCycle.advance_atMostOneStore

/-- Settles O37: at both levels memory and log change by at most one store. -/
theorem outputLogOnlyGrows : Obligations.OutputLogOnlyGrows :=
  fun s _ h => ⟨(step_atMostOneStore h).out_eq_append, (clock_atMostOneStore s).out_eq_append⟩

/-! ## The frame rule of the invariant -/

/-- The record of a checked store into the output region is sound. -/
theorem outRecord_sound {c : Config} {a : Word} {n : Width} (v : Word) (ha : accessFault c a n = none)
    (hio : c.inOut a = true) : (outRecord a n v).sound c := by
  cases n with
  | byte => exact hio
  | word => exact ⟨hio, (accessFault_eq_none.1 ha).1 rfl⟩

/-- The invariant is kept if the parameters and slot 0 stay, memory and log change by at most one checked store, and
the new status is sound. -/
theorem ArchInv.of_frame {s t : State} (h : ArchInv s) (hcfg : t.cfg = s.cfg) (hzero : t.regs[0] = s.regs[0])
    (hmem : AtMostOneStore s t) (hdetail : ∀ d, t.status = .faulted d → d.sound s.cfg) : ArchInv t := by
  have hzero' : t.regs[0] = 0 := hzero.trans h.zeroSlot
  rcases hmem with ⟨hm, ho⟩ | ⟨a, n, v, ha, hm, ho⟩
  · exact ⟨hcfg ▸ h.cfgOk, hm ▸ h.memOk, by rw [hm, hcfg]; exact h.memIn, hzero', by rw [ho, hcfg]; exact h.outOk,
      by rw [hcfg]; exact hdetail⟩
  · refine ⟨hcfg ▸ h.cfgOk, ?_, ?_, hzero', ?_, by rw [hcfg]; exact hdetail⟩
    · rw [hm]
      exact Memory.writeWidth_wf h.memOk
    · rw [hm, hcfg]
      exact Memory.within_writeWidth h.memIn (accessFault_eq_none.1 ha).2
    · intro r hr
      rw [ho, State.store_out] at hr
      rw [hcfg]
      split at hr
      · rename_i hio
        rcases List.mem_append.1 hr with hr | hr
        · exact h.outOk r hr
        · rw [List.mem_singleton.1 hr]
          exact outRecord_sound v ha hio
      · exact h.outOk r hr

/-! ## The ISA level -/

/-- The details of the faults an instruction raises in execution (R220, R224). -/
theorem Effect.apply_detail_sound {s : State} {i : Instr} (hwf : i.wf = true) (hrun : s.status = .running)
    {d : FaultDetail} (h : ((s.effect i).apply i s).status = .faulted d) : d.sound s.cfg := by
  rcases s.effect_cases i with ⟨v, f, target, e, -⟩ | ⟨a, n, v, e, -⟩ | ⟨k, a, n, e, ha⟩ | ⟨e, hdiv⟩ | ⟨e, -⟩ <;>
    rw [e] at h
  · rw [Effect.complete_apply_status, hrun] at h; cases h
  · exact nomatch hrun.symm.trans h
  · cases h
    exact accessFault_sound ha nofun
  · cases h
    exact ⟨rfl, encode i, i, rfl, decode_encode_division hwf hdiv, hdiv⟩
  · cases h

/-- Settles O39: the frame rule, case by case of a step. -/
theorem stepKeepsTheInvariant : Obligations.StepKeepsTheInvariant := by
  intro s t hinv h
  have hmem := step_atMostOneStore h
  rcases step_cases s with ⟨-, e⟩ | ⟨f, -, ha, e⟩ | ⟨-, -, hd, e⟩ | ⟨i, hrun, -, hd, e⟩ <;> cases e.symm.trans h
  · exact hinv
  · refine hinv.of_frame rfl rfl hmem fun d hd => ?_
    cases hd
    exact accessFault_sound ha fun _ => rfl
  · refine hinv.of_frame rfl rfl hmem fun d' hd' => ?_
    cases hd'
    exact ⟨rfl, _, rfl, hd⟩
  · exact hinv.of_frame (Effect.apply_hidden ..).1 (Effect.apply_slot_zero ..) hmem
      fun d => Effect.apply_detail_sound (decode_wf hd) hrun

/-! ## The pipeline level -/

theorem State.advance_cfg (s : State) : s.advance.cfg = s.cfg := by
  rw [s.advance_eq, State.reportFault_eq]
  exact s.advanced_cfg

theorem State.advance_slot_zero (s : State) : s.advance.regs[0] = s.regs[0] := by
  obtain ⟨-, -, -, -, hregs⟩ := s.writeBack.memStage_next
  rw [s.advance_eq, State.reportFault_eq, s.advanced_eq]
  exact (congrArg (·[0]) hregs).trans s.writeBack_slot_zero

/-- The only fault an advance cycle reports is the pending one (R267). -/
theorem State.advance_detail_sound {s : State} (hinv : PipeInv s) (hrun : s.status = .running) {d : FaultDetail}
    (h : s.advance.status = .faulted d) : d.sound s.cfg := by
  rw [s.advance_eq] at h
  rcases s.advanced.reportFault_cases with e | ⟨d', hd', -, -, -, -, -, e⟩ <;> rw [e] at h
  · rw [s.advanced_status, hrun] at h
    split at h <;> cases h
  · cases h
    exact s.advanced_cfg ▸ ((hinv.advanced hrun).pending d hd').2

/-- Settles O52: the frame rule; a reported fault was pending, and `PipeInv` knows its detail. -/
theorem clockKeepsTheInvariant : Obligations.ClockKeepsTheInvariant := by
  intro s hinv hpipe
  have hmem := clock_atMostOneStore s
  rcases clock_cases s with ⟨-, e⟩ | ⟨-, -, e⟩ | ⟨hrun, -, e⟩ <;> rw [e] at hmem ⊢
  · exact hinv
  · exact hinv.of_frame rfl rfl hmem hinv.detailOk
  · exact hinv.of_frame s.countCycle.advance_cfg s.countCycle.advance_slot_zero hmem
      fun d => State.advance_detail_sound hpipe.countCycle hrun

end Sys2Proof.Machine
end

section
/-!
PROOFS. What `reset` establishes (10_state.md R37, 70_reset_and_hazards.md R250, R251), the inspection calls (R254)
and `run` (R253).
-/
namespace Sys2Proof.Machine

/-! ## Loading a partial map -/

/-- Entries under other keys leave what a key reads alone. -/
theorem foldl_get_other {σ α β : Type} (get : σ → β) (put : σ → Nat × α → σ) {l : List (Nat × α)} {key : Nat}
    (hput : ∀ m, ∀ e ∈ l, e.1 ≠ key → get (put m e) = get m) (hkey : ∀ v, (key, v) ∉ l) (m : σ) :
    get (l.foldl put m) = get m := by
  induction l generalizing m with
  | nil => rfl
  | cons e l ih =>
    have hne : e.1 ≠ key := by
      rintro rfl
      exact hkey e.2 List.mem_cons_self
    rw [List.foldl_cons, ih (fun m e he => hput m e (List.mem_cons_of_mem _ he))
      (fun v hv => hkey v (List.mem_cons_of_mem _ hv)), hput m e List.mem_cons_self hne]

/-- An entry of a map with distinct keys stands alone between the entries before and after it. -/
theorem exists_split_of_nodup_keys {α : Type} {l : List (Nat × α)} (hl : (l.map Prod.fst).Nodup) {key : Nat} {v : α}
    (h : (key, v) ∈ l) : ∃ before after, l = before ++ (key, v) :: after ∧ ∀ u, (key, u) ∉ after := by
  obtain ⟨before, after, rfl⟩ := List.append_of_mem h
  refine ⟨before, after, rfl, fun u hu => ?_⟩
  rw [List.map_append, List.map_cons] at hl
  exact (List.nodup_cons.1 hl.of_append_right).1 (List.mem_map.2 ⟨(key, u), hu, rfl⟩)

/-- `INIT_MEM` leaves a byte it does not supply at 0 (R37). -/
theorem loadImage_read_other {l : List Host.Cell} {a : Nat} (h : ∀ v, (a, v) ∉ l) : (loadImage l).read a = 0 :=
  foldl_get_other (Memory.read · a) (fun m cell => m.write cell.1 cell.2)
    (fun m e _ hne => m.read_write_other e.2 hne.symm) h _

/-- `INIT_MEM` supplies its bytes (R250). -/
theorem loadImage_read {l : List Host.Cell} (hl : (l.map Prod.fst).Nodup) {a : Nat} {v : Byte} (h : (a, v) ∈ l) :
    (loadImage l).read a = v := by
  obtain ⟨before, after, rfl, hafter⟩ := exists_split_of_nodup_keys hl h
  rw [loadImage, List.foldl_append, List.foldl_cons,
    foldl_get_other (Memory.read · a) (fun m cell => m.write cell.1 cell.2)
      (fun m e _ hne => m.read_write_other e.2 hne.symm) hafter]
  exact Memory.read_write_same a v (foldl_write_wf before _ rfl)

/-- One entry of `INIT_REGS` put into a register file, as `loadRegs` does. -/
def putReg (v : Vector Word 32) (e : Nat × Word) : Vector Word 32 :=
  if e.1 = 0 then v else v.set (Fin.ofNat 32 e.1) e.2

theorem loadRegs_eq (l : List (Nat × Word)) : loadRegs l = l.foldl putReg (Vector.replicate 32 0) := rfl

theorem putReg_other (v : Vector Word 32) {e : Nat × Word} {r : Reg} (he : e.1 < 32) (hne : e.1 ≠ r.val) :
    (putReg v e)[r] = v[r] := by
  unfold putReg
  split
  · rfl
  · simp [Fin.getElem_fin, Nat.mod_eq_of_lt he, hne]

theorem putReg_same (v : Vector Word 32) {r : Reg} (hr : r ≠ 0) (x : Word) : (putReg v (r.val, x))[r] = x := by
  have hne : r.val ≠ 0 := fun h => hr (Fin.ext h)
  simp [putReg, hne, Fin.getElem_fin]

theorem putReg_slot_zero (v : Vector Word 32) {e : Nat × Word} (he : e.1 < 32) : (putReg v e)[0] = v[0] := by
  unfold putReg
  split
  · rfl
  · rename_i hne
    simp [Nat.mod_eq_of_lt he, hne]

section
variable {l : List (Nat × Word)} (hid : ∀ r v, (r, v) ∈ l → r < 32)
include hid

/-- `INIT_REGS` leaves a register it does not supply at 0 (R37). -/
theorem loadRegs_get_other {r : Reg} (h : ∀ v, (r.val, v) ∉ l) : (loadRegs l)[r] = 0 := by
  rw [loadRegs_eq, foldl_get_other (fun v : Vector Word 32 => v[r]) putReg
    (fun v e he hne => putReg_other v (hid e.1 e.2 he) hne) h]
  simp [Fin.getElem_fin]

/-- `INIT_REGS` supplies its registers, register 0 apart (R250). -/
theorem loadRegs_get (hl : (l.map Prod.fst).Nodup) {r : Reg} (hr : r ≠ 0) {v : Word} (h : (r.val, v) ∈ l) :
    (loadRegs l)[r] = v := by
  obtain ⟨before, after, rfl, hafter⟩ := exists_split_of_nodup_keys hl h
  rw [loadRegs_eq, List.foldl_append, List.foldl_cons, foldl_get_other (fun v : Vector Word 32 => v[r]) putReg
    (fun v e he hne => putReg_other v (hid e.1 e.2 (by simp [he])) hne) hafter]
  exact putReg_same _ hr v

/-- `INIT_REGS` never writes slot 0. -/
theorem loadRegs_slot_zero : (loadRegs l)[0] = 0 := by
  rw [loadRegs_eq]
  refine List.foldlRecOn l putReg (motive := fun v => v[0] = 0) (by simp) fun v hv e he => ?_
  rw [putReg_slot_zero v (hid e.1 e.2 he), hv]

end

/-! ## Loading the program -/

theorem byteOfWord_eq_extract (w : Word) (j : Nat) : byteOfWord w j = w.extractLsb' (8 * j) 8 := by
  unfold byteOfWord
  ext k hk
  simp

/-- Byte `j` of program word `k` (R251). -/
theorem read_loadProgram {l : List Word} {a k j : Nat} {w : Word} {m : Memory} (hm : m.wf = true) (hw : l[k]? = some w)
    (hj : j < 4) : (loadProgram l a m).read (a + 4 * k + j) = byteOfWord w j := by
  induction l generalizing a k m with
  | nil => cases hw
  | cons w0 l ih =>
    rw [loadProgram]
    cases k with
    | zero =>
      cases hw
      rw [read_loadProgram_other _ _ _ _ (by omega)]
      exact Memory.read_writeWord_same a j w hm hj
    | succ k =>
      rw [show a + 4 * (k + 1) + j = a + 4 + 4 * k + j by omega]
      exact ih (Memory.writeWord_wf hm) hw

theorem within_loadImage {l : List Host.Cell} {size : Nat} (h : ∀ a v, (a, v) ∈ l → a < size) :
    (loadImage l).within size :=
  List.foldlRecOn l _ (motive := fun m : Memory => m.within size) nofun
    fun _ hm e he => Memory.within_write hm (h e.1 e.2 he)

theorem within_loadProgram {l : List Word} {a size : Nat} {m : Memory} (hm : m.within size)
    (h : a + 4 * l.length ≤ size) : (loadProgram l a m).within size := by
  induction l generalizing a m with
  | nil => exact hm
  | cons w l ih =>
    rw [List.length_cons] at h
    exact ih (Memory.within_writeWord hm (by omega)) (by omega)

/-! ## Reset -/

/-- The state an accepted `reset` gives (R37). -/
def resetState (c : Config) (i : ResetInput) : State where
  cfg := c
  regs := loadRegs i.initRegs
  flags := i.initFlags.getD { n := false, z := false, c := false, v := false }
  pc := c.entry
  mem := loadProgram i.program c.progBase (loadImage i.initMem)
  out := []
  status := .running
  pipe := Pipe.reset c.entry
  caches := Caches.reset

theorem reset_eq_ok_iff {c : Config} {i : ResetInput} {s : State} :
    reset c i = .ok s ↔ i.ok c = true ∧ s = resetState c i := by
  unfold reset
  split
  · rename_i hok
    simp [hok, resetState, eq_comm]
  · rename_i hbad
    simp [hbad]

@[simp] theorem Caches.reset_l1 (k : Fin l1Lines) : Caches.reset.l1[k] = none := by
  simp [Caches.reset, Fin.getElem_fin]

@[simp] theorem Caches.reset_l2 (k : Fin l2Sets) (w : Fin l2Ways) : Caches.reset.l2[k][w] = none := by
  simp [Caches.reset, Fin.getElem_fin]

@[simp] theorem Caches.reset_lru (k : Fin l2Sets) : Caches.reset.lru[k] = 0 := by
  simp [Caches.reset, Fin.getElem_fin]

section
variable {c : Config} {i : ResetInput} (h : i.ok c = true)
include h

theorem resetState_archInv : ArchInv (resetState c i) := by
  obtain ⟨hcfg, hlen, hmem, -, hid, -⟩ := (ResetInput.ok_iff c i).1 h
  exact
    { cfgOk := hcfg
      memOk := loadProgram_wf _ _ _ (loadImage_wf _)
      memIn := within_loadProgram (within_loadImage hmem) hlen
      zeroSlot := loadRegs_slot_zero hid
      outOk := nofun
      detailOk := nofun }

theorem resetState_cacheInv : CacheInv (resetState c i) where
  cfgOk := (resetState_archInv h).cfgOk
  memOk := (resetState_archInv h).memOk
  l1Ok k _ hl := nomatch (Caches.reset_l1 k).symm.trans hl
  l2Ok k w _ hl := nomatch (Caches.reset_l2 k w).symm.trans hl
  l2One k _ _ hl := nomatch (Caches.reset_l2 k 0).symm.trans hl

end

theorem resetState_pipeInv (c : Config) (i : ResetInput) : PipeInv (resetState c i) where
  fdFault _ _ _ h := nomatch h
  dxWord _ h := nomatch h
  xmWord _ h := nomatch h
  xmDest _ h := nomatch h
  xmFlags _ h := nomatch h
  xmHalt _ h := nomatch h
  mwWord _ h := nomatch h
  mwDest _ h := nomatch h
  mwFlags _ h := nomatch h
  mwHalt _ h := nomatch h
  elapsed h := absurd rfl h
  noLoadUse _ _ _ h := nomatch h
  stopped h := nomatch h
  pending _ h := nomatch h
  haltInXM _ h := nomatch h
  haltInMW _ h := nomatch h
  drained h := absurd rfl h

/-- Settles O42: an accepted `reset` gives `resetState`, which meets each of the three. -/
theorem everyResetMeetsTheInvariants : Obligations.EveryResetMeetsTheInvariants := by
  intro c i s hs
  obtain ⟨hok, rfl⟩ := reset_eq_ok_iff.1 hs
  exact ⟨resetState_archInv hok, resetState_cacheInv hok, resetState_pipeInv c i⟩

/-- Settles O38: the reset state is what `reset` gives with the default parameters and every input omitted. -/
theorem resetStateMeetsTheInvariants : Obligations.ResetStateMeetsTheInvariants :=
  everyResetMeetsTheInvariants Config.default ResetInput.empty State.reset rfl

/-- A register other than 0 reads what `INIT_REGS` put into its slot. -/
theorem resetState_reg (c : Config) (i : ResetInput) {r : Reg} (hr : r ≠ 0) :
    (resetState c i).reg r = (loadRegs i.initRegs)[r] := if_neg hr

/-- Settles O41: the loaders give the registers and the memory, and the rest of `resetState` is the table. -/
theorem resetGivesTheTable : Obligations.ResetGivesTheTable := by
  intro c i s hs
  obtain ⟨hok, rfl⟩ := reset_eq_ok_iff.1 hs
  obtain ⟨-, -, -, hcells, hid, hkeys⟩ := (ResetInput.ok_iff c i).1 hok
  refine ⟨rfl, fun r v hr hv => ?_, fun r hv => ?_, fun f hf => ?_, fun hf => ?_, fun k j w hw hj => ?_, fun a ha => ?_,
    rfl, rfl, rfl, ⟨rfl, rfl, rfl, rfl⟩, rfl, rfl, rfl, rfl, Caches.reset_l1, Caches.reset_l2, Caches.reset_lru, rfl,
    rfl⟩
  · rw [resetState_reg c i hr]
    exact loadRegs_get hid hkeys hr hv
  · by_cases hr : r = 0
    · rw [hr, State.reg_zero]
    · rw [resetState_reg c i hr]
      exact loadRegs_get_other hid hv
  · simp [resetState, hf]
  · simp [resetState, hf]
  · rw [← byteOfWord_eq_extract]
    exact read_loadProgram (loadImage_wf _) hw hj
  · have hprog : (resetState c i).mem.read a = (loadImage i.initMem).read a := read_loadProgram_other _ _ _ _ ha
    rw [hprog]
    exact ⟨fun v hv => loadImage_read hcells hv, loadImage_read_other⟩

/-! ## The inspection calls -/

/-- The flags stand in bits 3 to 0 of their word (R26). -/
theorem Flags.toWord_bits (f : Flags) : f.toWord.getLsbD 3 = f.n ∧ f.toWord.getLsbD 2 = f.z ∧ f.toWord.getLsbD 1 = f.c
    ∧ f.toWord.getLsbD 0 = f.v ∧ f.toWord.toNat < 16 := by
  obtain ⟨n, z, c, v⟩ := f
  revert n z c v
  decide

theorem Memory.readBytes_length (m : Memory) (a n : Nat) : (m.readBytes a n).length = n := by
  induction n generalizing a with
  | zero => rfl
  | succ n ih => simp [Memory.readBytes, ih]

theorem Memory.readBytes_get (m : Memory) {a n k : Nat} (h : k < n) :
    (m.readBytes a n)[k]? = some (m.read (a + k)) := by
  induction n generalizing a k with
  | zero => omega
  | succ n ih =>
    cases k with
    | zero => rfl
    | succ k =>
      rw [Memory.readBytes, List.getElem?_cons_succ, ih (by omega), show a + 1 + k = a + (k + 1) by omega]

/-- Settles O43: one clause for each outcome of the two calls. -/
theorem inspectionReadsCommittedState : Obligations.InspectionReadsCommittedState := by
  refine fun s => ⟨fun r => ?_, ⟨s.flags.toWord, rfl, s.flags.toWord_bits⟩, fun id hid => ?_, fun a n h => ?_,
    fun a n h => ?_⟩
  · simp [readRegister, r.isLt]
  · simp [readRegister, show ¬ id < 32 by omega, show id ≠ 32 by omega]
  · exact ⟨_, if_pos h, s.mem.readBytes_length a n, fun k hk => s.mem.readBytes_get hk⟩
  · exact if_neg (by omega)

/-! ## Runs of the pipeline -/

theorem clockN_of_terminal {s : State} (h : s.status ≠ .running) (k : Nat) : clockN k s = s := by
  induction k with
  | zero => rfl
  | succ k ih => rw [clockN, clock_of_terminal h, ih]

theorem clockN_add (m n : Nat) (s : State) : clockN (m + n) s = clockN n (clockN m s) := by
  induction m generalizing s with
  | zero => rw [Nat.zero_add, clockN]
  | succ m ih => rw [Nat.succ_add, clockN, ih, clockN]

theorem hostRun_succ_of_running {s : State} (h : s.status = .running) (k : Nat) :
    hostRun (k + 1) s = hostRun k (clock s) := by
  simp [hostRun, h]

/-- `run` is cycles: after the end of a run further cycles change nothing (R253). -/
theorem hostRun_eq_clockN (m : Nat) (s : State) : hostRun m s = (clockN m s, (clockN m s).status) := by
  by_cases h : s.status = .running
  · induction m generalizing s with
    | zero => rfl
    | succ m ih =>
      rw [hostRun_succ_of_running h, clockN]
      by_cases h' : (clock s).status = .running
      · exact ih _ h'
      · rw [hostRun_of_terminal h', clockN_of_terminal h']
  · rw [hostRun_of_terminal h, clockN_of_terminal h]

/-- A cycle of a running machine is counted, whether it waits or advances (R33). -/
theorem clock_cycle {s : State} (h : s.status = .running) : (clock s).pipe.cycle = s.pipe.cycle + 1 := by
  rcases clock_cases s with ⟨hn, -⟩ | ⟨-, -, e⟩ | ⟨-, -, e⟩
  · exact absurd h hn
  · rw [e]; rfl
  · rw [e, State.advance_eq, State.reportFault_eq]; rfl

/-- Settles O44: `run` is `clockN`, which adds up. -/
theorem runIsRepeatedCycles : Obligations.RunIsRepeatedCycles := by
  refine fun m n s => ⟨hostRun_eq_clockN m s, ?_, clock_cycle⟩
  rw [hostRun_eq_clockN, hostRun_eq_clockN, hostRun_eq_clockN, clockN_add]

end Sys2Proof.Machine
end

section
/-!
PROOFS. The caches stay coherent with memory (20_memory.md R65 to R71, 70_reset_and_hazards.md R270): what a store does
to every line of both levels, what a load puts where, and `CacheInv` over each update, each access and each cycle.
-/
namespace Sys2Proof.Machine

/-! ## A store, line by line (R68) -/

theorem l1Base_eq_iff {i : Fin l1Lines} {tag : BitVec 24} {a : Word} :
    l1Base i tag = blockBase a ↔ i = l1Index a ∧ tag = l1Tag a :=
  ⟨l1Base_eq, by rintro ⟨rfl, rfl⟩; exact l1Base_self a⟩

theorem l2Base_eq_iff {i : Fin l2Sets} {tag : BitVec 23} {a : Word} :
    l2Base i tag = blockBase a ↔ i = l2Index a ∧ tag = l2Tag a :=
  ⟨l2Base_eq, by rintro ⟨rfl, rfl⟩; exact l2Base_self a⟩

/-- A line of either level after the bytes of a store into its block were put into it. -/
def Line.stored {tagBits : Nat} (l : Line tagBits) (a : Word) (n : Width) (v : Word) : Line tagBits :=
  { l with data := blockWrite l.data (blockOff a) n v }

@[simp] theorem Line.stored_tag {tagBits : Nat} (l : Line tagBits) (a : Word) (n : Width) (v : Word) :
    (l.stored a n v).tag = l.tag := rfl

section
variable (c : Caches) (a : Word) (n : Width) (v : Word)

theorem Caches.l1Store_l2 : (c.l1Store a n v).l2 = c.l2 := by
  rcases c.l1Store_cases a n v with ⟨l, -, e⟩ | ⟨-, e⟩ <;> rw [e]
  rfl

theorem Caches.l2Store_l1 : (c.l2Store a n v).l1 = c.l1 := by
  rcases c.l2Store_cases a n v with ⟨w, l, -, -, e⟩ | ⟨-, e⟩ <;> rw [e]
  rfl

/-- A store changes the L1 line that holds its block, and no other. -/
theorem Caches.l1Store_get (i : Fin l1Lines) :
    (c.l1Store a n v).l1[i]
      = c.l1[i].map fun l => if l1Base i l.tag = blockBase a then l.stored a n v else l := by
  rcases c.l1Store_cases a n v with ⟨l, hl, e⟩ | ⟨hmiss, e⟩ <;> rw [e]
  · obtain ⟨hget, htag⟩ := Caches.l1Line_eq_some.1 hl
    rw [Caches.setL1_get]
    split
    · subst i
      simp [hget, htag, l1Base_self, Line.stored]
    · rename_i hi
      simp [l1Base_eq_iff, Ne.symm hi]
  · cases hget : c.l1[i] with
    | none => rfl
    | some l =>
      have hne : ¬ l1Base i l.tag = blockBase a := by
        rw [l1Base_eq_iff]
        rintro ⟨rfl, htag⟩
        exact nomatch hmiss.symm.trans (Caches.l1Line_eq_some.2 ⟨hget, htag⟩)
      simp [hne]

/-- A store changes the L2 line that holds its block, in the way found for it, and no other. -/
theorem Caches.l2Store_get (i : Fin l2Sets) (w : Fin l2Ways) :
    (c.l2Store a n v).l2[i][w]
      = c.l2[i][w].map fun l =>
          if l2Base i l.tag = blockBase a ∧ c.l2Way a = some w then l.stored a n v else l := by
  rcases c.l2Store_cases a n v with ⟨u, l, hway, hl, e⟩ | ⟨hmiss, e⟩ <;> rw [e]
  · obtain ⟨hget, htag⟩ := Caches.l2Line_eq_some.1 hl
    rw [Caches.touch_l2, Caches.setL2_get]
    split
    · rename_i hiu
      obtain ⟨rfl, rfl⟩ := hiu
      rw [hget, Option.map_some, if_pos ⟨htag ▸ l2Base_self a, hway⟩]
      rfl
    · rename_i hiu
      have hne (l : Line 23) : ¬ (l2Base i l.tag = blockBase a ∧ c.l2Way a = some w) := by
        rw [l2Base_eq_iff, hway]
        rintro ⟨⟨rfl, -⟩, hw⟩
        exact hiu ⟨rfl, Option.some.inj hw⟩
      simp [hne]
  · simp [hmiss]

theorem Caches.l2Way_congr {c c' : Caches} (h : c.l2 = c'.l2) (a : Word) : c.l2Way a = c'.l2Way a := by
  cases c; cases c'; cases h; rfl

theorem Caches.store_l1_get (i : Fin l1Lines) :
    (c.store a n v).l1[i] = c.l1[i].map fun l => if l1Base i l.tag = blockBase a then l.stored a n v else l := by
  rw [Caches.store, Caches.l2Store_l1, Caches.l1Store_get]

theorem Caches.store_l2_get (i : Fin l2Sets) (w : Fin l2Ways) :
    (c.store a n v).l2[i][w] = c.l2[i][w].map fun l =>
      if l2Base i l.tag = blockBase a ∧ c.l2Way a = some w then l.stored a n v else l := by
  rw [Caches.store, Caches.l2Store_get, Caches.l2Way_congr (c.l1Store_l2 a n v), Caches.l1Store_l2]

end

theorem map_tag_stored_if {tagBits : Nat} (o : Option (Line tagBits)) (p : Line tagBits → Prop) [DecidablePred p]
    (a : Word) (n : Width) (v : Word) :
    (o.map fun l => if p l then l.stored a n v else l).map Line.tag = o.map Line.tag := by
  rw [Option.map_map]
  congr 1
  funext l
  simp only [Function.comp_apply]
  split <;> rfl

theorem State.dataStore_caches (s : State) (a : Word) (n : Width) (v : Word) :
    (s.dataStore a n v).caches = if s.cfg.inOut a then s.caches else s.caches.store a n v := rfl

/-- Settles O47: a store maps every line to itself or to the line with its bytes, which has the same tag. -/
theorem storesNeverAllocate : Obligations.StoresNeverAllocate := by
  intro s a n v
  rw [State.dataStore_caches]
  split
  · exact ⟨fun _ => rfl, fun _ _ => rfl⟩
  · refine ⟨fun i => ?_, fun i w => ?_⟩
    · rw [Caches.store_l1_get]
      exact map_tag_stored_if _ _ a n v
    · rw [Caches.store_l2_get]
      exact map_tag_stored_if _ _ a n v

/-! ## Blocks and memory (R71) -/

section
variable {c : Config} {m : Memory} {a : Word} {n : Width} {d : Vector Byte blockBytes}

/-- A checked access stores outside every block but its own (R54). -/
theorem BlockCoherent.write_other {base : Nat} (h : BlockCoherent c m base d) (ha : accessFault c a n = none)
    (halign : base % 16 = 0) (hne : base ≠ blockBase a) (v : Word) :
    BlockCoherent c (m.writeWidth a.toNat n v) base d := by
  obtain ⟨hbytes, hregion⟩ := h
  refine ⟨fun k => ?_, hregion⟩
  have hoff := access_in_block ha
  have hsum := blockBase_add_off a
  have hdvd := blockBase_dvd a
  have hk : k.val < 16 := k.isLt
  rw [hbytes, Memory.read_writeWidth_other]
  omega

/-- The bytes of a checked store, put into its block and into memory, agree (R68, R71). -/
theorem BlockCoherent.write_same (h : BlockCoherent c m (blockBase a) d) (hm : m.wf = true)
    (ha : accessFault c a n = none) (v : Word) :
    BlockCoherent c (m.writeWidth a.toNat n v) (blockBase a) (blockWrite d (blockOff a) n v) := by
  obtain ⟨hbytes, hregion⟩ := h
  refine ⟨fun k => ?_, hregion⟩
  have hoff := access_in_block ha
  have hsum := blockBase_add_off a
  by_cases hin : blockOff a ≤ k.val ∧ k.val < blockOff a + n.bytes
  · rw [blockWrite_same d (blockOff a) n v k (k.val - blockOff a) hoff (by omega) (by omega),
      show blockBase a + k.val = a.toNat + (k.val - blockOff a) by omega,
      Memory.read_writeWidth_same _ _ _ _ hm (by omega)]
  · rw [blockWrite_other d _ n v k hoff (by omega), hbytes, Memory.read_writeWidth_other]
    omega

/-- A block outside the output region, just read from memory, is coherent (R66, R69). -/
theorem blockCoherent_block (hc : c.wf = true) (hio : c.inOut a = false) (m : Memory) :
    BlockCoherent c m (blockBase a) (m.block (blockBase a)) :=
  ⟨m.block_get _, fun h => by rw [(inOut_iff hc a).2 h] at hio; cases hio⟩

/-- A coherent block is not the block of an address of the output region (R69). -/
theorem BlockCoherent.base_ne {base : Nat} (h : BlockCoherent c m base d) (hc : c.wf = true)
    (hio : c.inOut a = true) : base ≠ blockBase a :=
  fun e => h.2 (e ▸ (inOut_iff hc a).1 hio)

end

/-! ## The invariant over the updates of the arrays -/

section
variable {s : State}

/-- The invariant looks at the parameters, the memory and the lines only. -/
theorem CacheInv.congr {t : State} (h : CacheInv s) (hcfg : t.cfg = s.cfg) (hmem : t.mem = s.mem)
    (hl1 : t.caches.l1 = s.caches.l1) (hl2 : t.caches.l2 = s.caches.l2) : CacheInv t where
  cfgOk := hcfg ▸ h.cfgOk
  memOk := hmem ▸ h.memOk
  l1Ok i l hl := by rw [hcfg, hmem]; exact h.l1Ok i l (hl1 ▸ hl)
  l2Ok i w l hl := by rw [hcfg, hmem]; exact h.l2Ok i w l (hl2 ▸ hl)
  l2One i l l' hl hl' := h.l2One i l l' (hl2 ▸ hl) (hl2 ▸ hl')

theorem CacheInv.touch (h : CacheInv s) (i : Fin l2Sets) (w : Fin l2Ways) :
    CacheInv { s with caches := s.caches.touch i w } :=
  h.congr rfl rfl rfl rfl

theorem CacheInv.setL1 (h : CacheInv s) {i : Fin l1Lines} {l : Line 24}
    (hl : BlockCoherent s.cfg s.mem (l1Base i l.tag) l.data) :
    CacheInv { s with caches := s.caches.setL1 i l } where
  cfgOk := h.cfgOk
  memOk := h.memOk
  l1Ok j l' hj := by
    rw [Caches.setL1_get] at hj
    split at hj
    · subst j
      cases hj
      exact hl
    · exact h.l1Ok j l' hj
  l2Ok := h.l2Ok
  l2One := h.l2One

/-- No line of set `i` has the tag: putting one in keeps the tags of the set apart (R65). -/
theorem CacheInv.setL2 (h : CacheInv s) {i : Fin l2Sets} (w : Fin l2Ways) {l : Line 23}
    (hl : BlockCoherent s.cfg s.mem (l2Base i l.tag) l.data)
    (hnew : ∀ (u : Fin l2Ways) (l' : Line 23), s.caches.l2[i][u] = some l' → l'.tag ≠ l.tag) :
    CacheInv { s with caches := s.caches.setL2 i w l } where
  cfgOk := h.cfgOk
  memOk := h.memOk
  l1Ok := h.l1Ok
  l2Ok j u l' hj := by
    rw [Caches.setL2_get] at hj
    split at hj
    · rename_i hiw
      obtain ⟨rfl, rfl⟩ := hiw
      cases hj
      exact hl
    · exact h.l2Ok j u l' hj
  l2One j l0 l1 h0 h1 := by
    rw [Caches.setL2_get] at h0 h1
    split at h0 <;> split at h1
    · rename_i hw0 hw1
      exact absurd (hw0.2.symm.trans hw1.2) (by decide)
    · rename_i hw0 _
      obtain ⟨rfl, -⟩ := hw0
      cases h0
      exact (hnew _ _ h1).symm
    · rename_i _ hw1
      obtain ⟨rfl, -⟩ := hw1
      cases h1
      exact hnew _ _ h0
    · exact h.l2One j l0 l1 h0 h1

/-! ## Loads (R66) -/

theorem Caches.l2Line_of_l2Way_eq_none {c : Caches} {a : Word} (h : c.l2Way a = none) (w : Fin l2Ways) :
    c.l2Line a w = none := by
  obtain ⟨h0, h1⟩ := Caches.l2Way_eq_none.1 h
  match w with
  | 0 => exact h0
  | 1 => exact h1

theorem CacheInv.l1Line_coherent (h : CacheInv s) {a : Word} {l : Line 24} (hl : s.caches.l1Line a = some l) :
    BlockCoherent s.cfg s.mem (blockBase a) l.data := by
  obtain ⟨hget, htag⟩ := Caches.l1Line_eq_some.1 hl
  exact l1Base_self a ▸ htag ▸ h.l1Ok _ l hget

theorem CacheInv.l2Line_coherent (h : CacheInv s) {a : Word} {w : Fin l2Ways} {l : Line 23}
    (hl : s.caches.l2Line a w = some l) : BlockCoherent s.cfg s.mem (blockBase a) l.data := by
  obtain ⟨hget, htag⟩ := Caches.l2Line_eq_some.1 hl
  exact l2Base_self a ▸ htag ▸ h.l2Ok _ w l hget

/-- A coherent block can be filled into its L1 line. -/
theorem CacheInv.fillL1 (h : CacheInv s) {a : Word} {d : Vector Byte blockBytes}
    (hd : BlockCoherent s.cfg s.mem (blockBase a) d) :
    CacheInv { s with caches := s.caches.setL1 (l1Index a) { tag := l1Tag a, data := d } } :=
  h.setL1 (by rw [l1Base_self]; exact hd)

/-- A coherent block that no way holds can be filled into any way of its set. -/
theorem CacheInv.fillL2 (h : CacheInv s) {a : Word} {d : Vector Byte blockBytes}
    (hd : BlockCoherent s.cfg s.mem (blockBase a) d) (hmiss : s.caches.l2Way a = none) (w : Fin l2Ways) :
    CacheInv { s with caches := s.caches.setL2 (l2Index a) w { tag := l2Tag a, data := d } } :=
  h.setL2 w (by rw [l2Base_self]; exact hd) fun u _ hu htag =>
    nomatch (Caches.l2Line_of_l2Way_eq_none hmiss u).symm.trans (Caches.l2Line_eq_some.2 ⟨hu, htag⟩)

/-- A load gives a coherent block and keeps the invariant, wherever it is served from. -/
theorem CacheInv.load (h : CacheInv s) {a : Word} (hio : s.cfg.inOut a = false) :
    BlockCoherent s.cfg s.mem (blockBase a) (s.caches.load s.mem a).1
    ∧ CacheInv { s with caches := (s.caches.load s.mem a).2 } := by
  rcases s.caches.load_cases s.mem a with ⟨l, hl, e⟩ | ⟨w, l, -, -, hl, e⟩ | ⟨-, hmiss, e⟩ <;> rw [e]
  · exact ⟨h.l1Line_coherent hl, h⟩
  · have hd := h.l2Line_coherent hl
    exact ⟨hd, (h.touch (l2Index a) w).fillL1 hd⟩
  · have hd := blockCoherent_block h.cfgOk hio s.mem
    exact ⟨hd, ((h.fillL2 hd hmiss _).touch (l2Index a) _).fillL1 hd⟩

theorem State.dataLoad_of_inOut {a : Word} (h : s.cfg.inOut a = true) (n : Width) :
    s.dataLoad a n = (s.mem.readWidth a.toNat n, s) := if_pos h

theorem State.dataLoad_of_cached {a : Word} (h : s.cfg.inOut a = false) (n : Width) :
    s.dataLoad a n = (blockRead (s.caches.load s.mem a).1 (blockOff a) n,
      { s with caches := (s.caches.load s.mem a).2 }) := by
  simp [State.dataLoad, h]

/-- A checked load through the caches gives what memory holds (R71). -/
theorem CacheInv.dataLoad_value (h : CacheInv s) {a : Word} {n : Width} (ha : accessFault s.cfg a n = none) :
    (s.dataLoad a n).1 = s.mem.readWidth a.toNat n := by
  cases hio : s.cfg.inOut a with
  | true => rw [State.dataLoad_of_inOut hio]
  | false =>
    obtain ⟨⟨hbytes, -⟩, -⟩ := h.load hio
    rw [State.dataLoad_of_cached hio, ← blockBase_add_off a]
    exact blockRead_eq hbytes _ n (access_in_block ha)

theorem CacheInv.dataLoad (h : CacheInv s) (a : Word) (n : Width) : CacheInv (s.dataLoad a n).2 := by
  cases hio : s.cfg.inOut a with
  | true => rw [State.dataLoad_of_inOut hio]; exact h
  | false => rw [State.dataLoad_of_cached hio]; exact (h.load hio).2

/-! ## Stores (R68, R69) -/

/-- A store into the output region changes no byte that a line holds (R69). -/
theorem CacheInv.store_uncached (h : CacheInv s) {a : Word} {n : Width} (ha : accessFault s.cfg a n = none)
    (hio : s.cfg.inOut a = true) (v : Word) : CacheInv (s.store a n v) where
  cfgOk := h.cfgOk
  memOk := Memory.writeWidth_wf h.memOk
  l1Ok i l hl :=
    have hcoh := h.l1Ok i l hl
    hcoh.write_other ha (l1Base_dvd ..) (hcoh.base_ne h.cfgOk hio) v
  l2Ok i w l hl :=
    have hcoh := h.l2Ok i w l hl
    hcoh.write_other ha (l2Base_dvd ..) (hcoh.base_ne h.cfgOk hio) v
  l2One := h.l2One

/-- The way that holds the block of an address is the one found for it, as no two ways do (R65). -/
theorem CacheInv.l2Way_of_line (h : CacheInv s) {a : Word} {w : Fin l2Ways} {l : Line 23}
    (hl : s.caches.l2Line a w = some l) : s.caches.l2Way a = some w := by
  obtain ⟨hget, htag⟩ := Caches.l2Line_eq_some.1 hl
  match w with
  | 0 => simp [Caches.l2Way, hl]
  | 1 =>
    cases h0 : s.caches.l2Line a 0 with
    | none => simp [Caches.l2Way, hl, h0]
    | some l0 =>
      obtain ⟨hget0, htag0⟩ := Caches.l2Line_eq_some.1 h0
      exact absurd (htag0.trans htag.symm) (h.l2One _ l0 l hget0 hget)

/-- A store through the caches writes the same bytes to memory and to the lines that hold its block. -/
theorem CacheInv.store_cached (h : CacheInv s) {a : Word} {n : Width} (ha : accessFault s.cfg a n = none) (v : Word) :
    CacheInv { s.store a n v with caches := s.caches.store a n v } where
  cfgOk := h.cfgOk
  memOk := Memory.writeWidth_wf h.memOk
  l1Ok i l' hl' := by
    rw [Caches.store_l1_get] at hl'
    obtain ⟨l, hl, rfl⟩ := Option.map_eq_some_iff.1 hl'
    have hcoh := h.l1Ok i l hl
    split
    · rename_i hb
      rw [Line.stored_tag, hb]
      exact (hb ▸ hcoh).write_same h.memOk ha v
    · rename_i hb
      exact hcoh.write_other ha (l1Base_dvd ..) hb v
  l2Ok i w l' hl' := by
    rw [Caches.store_l2_get] at hl'
    obtain ⟨l, hl, rfl⟩ := Option.map_eq_some_iff.1 hl'
    have hcoh := h.l2Ok i w l hl
    split
    · rename_i hb
      rw [Line.stored_tag, hb.1]
      exact (hb.1 ▸ hcoh).write_same h.memOk ha v
    · rename_i hb
      refine hcoh.write_other ha (l2Base_dvd ..) (fun hbase => hb ⟨hbase, ?_⟩) v
      obtain ⟨rfl, htag⟩ := l2Base_eq hbase
      exact h.l2Way_of_line (Caches.l2Line_eq_some.2 ⟨hl, htag⟩)
  l2One i l0' l1' h0 h1 := by
    rw [Caches.store_l2_get] at h0 h1
    obtain ⟨l0, hl0, rfl⟩ := Option.map_eq_some_iff.1 h0
    obtain ⟨l1, hl1, rfl⟩ := Option.map_eq_some_iff.1 h1
    simpa only [apply_ite Line.tag, Line.stored_tag, ite_self] using h.l2One i l0 l1 hl0 hl1

theorem CacheInv.dataStore (h : CacheInv s) {a : Word} {n : Width} (ha : accessFault s.cfg a n = none) (v : Word) :
    CacheInv (s.dataStore a n v) := by
  unfold State.dataStore
  cases hio : s.cfg.inOut a with
  | true => exact h.store_uncached ha hio v
  | false => exact h.store_cached ha v

/-- Settles O45: the value of a load, and the invariant over a load and over a store. -/
theorem cachedAccessesAreCoherent : Obligations.CachedAccessesAreCoherent :=
  fun _ a n v h ha => ⟨h.dataLoad_value ha, h.dataLoad a n, h.dataStore ha v⟩

/-! ## A cycle -/

theorem CacheInv.writeBack (h : CacheInv s) : CacheInv s.writeBack :=
  h.congr s.writeBack_cfg s.writeBack_mem (by rw [s.writeBack_caches]) (by rw [s.writeBack_caches])

theorem CacheInv.memStage (h : CacheInv s) : CacheInv s.memStage.next := by
  rcases s.memStage_cases with ⟨-, e⟩ | ⟨_, -, -, e⟩ | ⟨_, _, _, _, -, -, -, e⟩ | ⟨x, n, -, -, -, e⟩ |
    ⟨x, n, -, -, ha, e⟩ <;> rw [e]
  · exact h
  · exact h
  · exact h
  · exact h.dataLoad x.result n
  · exact h.dataStore ha x.sdata

theorem CacheInv.fetchStage (h : CacheInv s) (p : Pipe) (squash : Bool) (redirect : Option Word) (stall : Bool) :
    CacheInv (s.fetchStage p squash redirect stall).next := by
  rcases s.fetchStage_cases p squash redirect stall with ⟨-, e⟩ | ⟨-, -, e⟩ | ⟨-, -, -, e⟩ | ⟨-, -, -, e⟩ <;> rw [e]
  · exact h
  · exact h
  · rcases s.fetchEntry_cases p.fpc with ⟨_, -, e⟩ | ⟨-, e⟩ <;> rw [e]
    · exact h
    · exact h.dataLoad p.fpc .word
  · exact h

theorem CacheInv.advance (h : CacheInv s) : CacheInv s.advance := by
  have hfetch : CacheInv s.fetchOut.next := (h.writeBack.memStage).fetchStage _ _ _ _
  rw [s.advance_eq, State.reportFault_eq]
  exact hfetch.congr rfl rfl rfl rfl

end

/-- Settles O50: a wait cycle touches neither memory nor caches; an advance cycle makes at most the access of the
Memory stage and the fetch. -/
theorem clockKeepsCacheCoherence : Obligations.ClockKeepsCacheCoherence := by
  intro s h
  rcases clock_cases s with ⟨-, e⟩ | ⟨-, -, e⟩ | ⟨-, -, e⟩ <;> rw [e]
  · exact h
  · exact h.congr rfl rfl rfl rfl
  · have hcount : CacheInv s.countCycle := h.congr rfl rfl rfl rfl
    exact hcount.advance

end Sys2Proof.Machine
end

section
/-!
PROOFS. What a load leaves in the caches: its block in L1 (20_memory.md R66, R70), the L2 way it used and the
least-recently-used bit (R65, R67); and that the output region goes past the caches (R69).
-/
namespace Sys2Proof.Machine

/-! ## The block in L1 (R66, R70) -/

section
variable {c : Caches} {a : Word}

theorem Caches.load_of_l1Line {l : Line 24} (h : c.l1Line a = some l) (m : Memory) : c.load m a = (l.data, c) := by
  simp [Caches.load, h]

theorem Caches.l1Line_setL1_self (c : Caches) (a : Word) (d : Vector Byte blockBytes) :
    (c.setL1 (l1Index a) { tag := l1Tag a, data := d }).l1Line a = some { tag := l1Tag a, data := d } :=
  Caches.l1Line_eq_some.2 ⟨by rw [Caches.setL1_get, if_pos rfl], rfl⟩

/-- A load leaves its block in the L1 line of its address, wherever it was served from. -/
theorem Caches.l1Line_load (c : Caches) (m : Memory) (a : Word) :
    (c.load m a).2.l1Line a = some { tag := l1Tag a, data := (c.load m a).1 } := by
  rcases c.load_cases m a with ⟨l, hl, e⟩ | ⟨w, l, -, -, -, e⟩ | ⟨-, -, e⟩ <;> rw [e]
  · rw [hl, ← (Caches.l1Line_eq_some.1 hl).2]
  · exact Caches.l1Line_setL1_self _ a _
  · exact Caches.l1Line_setL1_self _ a _

/-- The same load again is served from L1 and changes nothing. -/
theorem Caches.load_load (c : Caches) (m : Memory) (a : Word) : (c.load m a).2.load m a = c.load m a :=
  Caches.load_of_l1Line (c.l1Line_load m a) m

end

/-- Settles O46: the first load leaves the line that the second one finds. -/
theorem loadedBlockThenHits : Obligations.LoadedBlockThenHits := by
  intro s a n hio
  have hhit : (s.caches.load s.mem a).2.l1Hit a = true := by rw [Caches.l1Hit, Caches.l1Line_load]; rfl
  rw [State.dataLoad_of_cached hio]
  refine ⟨hhit, ?_, ?_⟩
  · simp [State.loadLatency, hio, hhit]
  · exact (State.dataLoad_of_cached (s := { s with caches := (s.caches.load s.mem a).2 }) hio n).trans
      (by simp only [Caches.load_load])

/-! ## The way in L2 (R65, R67) -/

/-- The way of its set that a load uses when it misses in L1: the one that holds its block, or else the victim. -/
def Caches.l2Target (c : Caches) (a : Word) : Fin l2Ways := (c.l2Way a).getD (c.l2Victim (l2Index a))

section
variable {c : Caches} {a : Word}

theorem Caches.l2Target_of_hit {w : Fin l2Ways} (h : c.l2Way a = some w) : c.l2Target a = w := by
  rw [Caches.l2Target, h, Option.getD_some]

theorem Caches.l2Target_of_miss (h : c.l2Way a = none) : c.l2Target a = c.l2Victim (l2Index a) := by
  rw [Caches.l2Target, h, Option.getD_none]

theorem Caches.l2Victim_of_way0_invalid {i : Fin l2Sets} (h0 : c.l2[i][(0 : Fin l2Ways)] = none) :
    c.l2Victim i = 0 :=
  if_pos (Option.isNone_iff_eq_none.2 h0)

theorem Caches.l2Victim_of_way1_invalid {i : Fin l2Sets} (h0 : c.l2[i][(0 : Fin l2Ways)] ≠ none)
    (h1 : c.l2[i][(1 : Fin l2Ways)] = none) : c.l2Victim i = 1 :=
  (if_neg (mt Option.isNone_iff_eq_none.1 h0)).trans (if_pos (Option.isNone_iff_eq_none.2 h1))

theorem Caches.l2Victim_of_valid {i : Fin l2Sets} (h0 : c.l2[i][(0 : Fin l2Ways)] ≠ none)
    (h1 : c.l2[i][(1 : Fin l2Ways)] ≠ none) : c.l2Victim i = c.lru[i] :=
  (if_neg (mt Option.isNone_iff_eq_none.1 h0)).trans (if_neg (mt Option.isNone_iff_eq_none.1 h1))

theorem Caches.touch_lru_self (c : Caches) (i : Fin l2Sets) (w : Fin l2Ways) : (c.touch i w).lru[i] = 1 - w := by
  simp [Caches.touch]

theorem Caches.touch_lru_other (c : Caches) {i k : Fin l2Sets} (h : k ≠ i) (w : Fin l2Ways) :
    (c.touch i w).lru[k] = c.lru[k] := by
  simp [Caches.touch, Fin.val_inj, h.symm]

theorem Caches.setL2_other (c : Caches) {i k : Fin l2Sets} (h : k ≠ i) (w : Fin l2Ways) (l : Line 23) :
    (c.setL2 i w l).l2[k] = c.l2[k] := by
  simp [Caches.setL2, Fin.val_inj, h.symm]

theorem Caches.l2Line_setL2_self (c : Caches) (a : Word) (w : Fin l2Ways) (d : Vector Byte blockBytes) :
    (c.setL2 (l2Index a) w { tag := l2Tag a, data := d }).l2Line a w = some { tag := l2Tag a, data := d } :=
  Caches.l2Line_eq_some.2 ⟨by rw [Caches.setL2_get, if_pos ⟨rfl, rfl⟩], rfl⟩

/-- `c'` has the block of `a` in way `w` of its L2 set, which was used last; its other sets are those of `c`. -/
structure Caches.UsedWay (c c' : Caches) (a : Word) (w : Fin l2Ways) : Prop where
  holds  : (c'.l2Line a w).isSome = true
  lru    : c'.lru[l2Index a] = 1 - w
  others : ∀ k : Fin l2Sets, k ≠ l2Index a → c'.l2[k] = c.l2[k] ∧ c'.lru[k] = c.lru[k]

/-- A load that misses in L1 uses its target way (R66, R67). -/
theorem Caches.load_usedWay (h : c.l1Line a = none) (m : Memory) :
    c.UsedWay (c.load m a).2 a (c.l2Target a) := by
  rcases c.load_cases m a with ⟨l, hl, -⟩ | ⟨w, l, -, hway, hl, e⟩ | ⟨-, hmiss, e⟩
  · exact nomatch h.symm.trans hl
  · rw [e, Caches.l2Target_of_hit hway]
    exact ⟨Option.isSome_iff_exists.2 ⟨l, hl⟩, c.touch_lru_self _ w, fun k hk => ⟨rfl, c.touch_lru_other hk w⟩⟩
  · rw [e, Caches.l2Target_of_miss hmiss]
    exact ⟨Option.isSome_iff_exists.2 ⟨_, c.l2Line_setL2_self a _ _⟩, Caches.touch_lru_self _ _ _,
      fun k hk => ⟨Caches.setL2_other c hk _ _, Caches.touch_lru_other _ hk _⟩⟩

end

/-- Settles O48: the way is the load's target; the four cases are those of the lookup and of the victim. -/
theorem replacementFollowsLru : Obligations.ReplacementFollowsLru := by
  intro s a n hio hl1
  have hmiss : s.caches.l1Line a = none := by simpa [Caches.l1Hit] using hl1
  have hused := Caches.load_usedWay hmiss s.mem
  rw [State.dataLoad_of_cached hio]
  refine ⟨s.caches.l2Target a, fun u hu => Caches.l2Target_of_hit hu, fun hm h0 => ?_, fun hm h0 h1 => ?_,
    fun hm h0 h1 => ?_, hused.holds, hused.lru, hused.others⟩ <;> rw [Caches.l2Target_of_miss hm]
  · exact Caches.l2Victim_of_way0_invalid h0
  · exact Caches.l2Victim_of_way1_invalid h0 h1
  · exact Caches.l2Victim_of_valid h0 h1

/-! ## The output region (R51, R69) -/

theorem inOut_eq_true_iff {c : Config} {a : Word} :
    c.inOut a = true ↔ c.mmioBase ≤ a.toNat ∧ a.toNat < c.mmioBase + c.mmioSize := by
  simp [Config.inOut]

/-- Settles O49: both ports ask first whether the address lies in the output region. -/
theorem outputRegionIsUncached : Obligations.OutputRegionIsUncached := by
  intro s a n v hlo hhi
  have hio := inOut_eq_true_iff.2 ⟨hlo, hhi⟩
  exact ⟨State.dataLoad_of_inOut hio n, (s.dataStore_caches a n v).trans (if_pos hio), rfl, if_pos hio⟩

end Sys2Proof.Machine
end

section
/-!
PROOFS. The loads and stores of the ISA level (42_load_store.md R180 to R184): what one that passes its checks does,
the fault of one that does not (20_memory.md R54 to R58, 60_exceptions.md R225, R227), and little-endian order (R52).
-/
namespace Sys2Proof.Machine

/-! ## Checked accesses -/

section
variable {s : State} {a : Word} {n : Width}

/-- A byte access is checked against the size of memory only (R54, R55). -/
theorem accessFault_byte_eq_none {c : Config} (h : a.toNat + 1 ≤ c.memSize) : accessFault c a .byte = none :=
  accessFault_eq_none.2 ⟨nofun, h⟩

theorem accessFault_word_eq_none {c : Config} (halign : a.toNat % 4 = 0) (h : a.toNat + 4 ≤ c.memSize) :
    accessFault c a .word = none :=
  accessFault_eq_none.2 ⟨fun _ => halign, h⟩

theorem accessFault_of_misaligned {c : Config} (h : a.toNat % 4 ≠ 0) :
    accessFault c a .word = some .misalignedAccess :=
  accessFault_eq_some.2 (.inl ⟨rfl, h, rfl⟩)

theorem accessFault_of_unmapped {c : Config} (halign : n = .word → a.toNat % 4 = 0)
    (h : c.memSize < a.toNat + n.bytes) : accessFault c a n = some .unmappedAddress :=
  accessFault_eq_some.2 (.inr ⟨fun hmis => hmis.2 (halign hmis.1), h, rfl⟩)

theorem State.memRead_of_access (h : accessFault s.cfg a n = none) :
    s.memRead a n = .ok (s.mem.readWidth a.toNat n) := by
  simp [State.memRead, h]

theorem State.memWrite_eq_ok {v : Word} {t : State} :
    s.memWrite a n v = .ok t ↔ accessFault s.cfg a n = none ∧ t = s.store a n v := by
  rcases s.memWrite_cases a n v with ⟨f, hf, e⟩ | ⟨hf, e⟩ <;> rw [e, hf] <;> simp [eq_comm]

theorem State.load_of_access (h : accessFault s.cfg a n = none) (i : Instr) (rt : Reg) :
    s.load i rt a n = (s.setReg rt (s.mem.readWidth a.toNat n)).nextPc := by
  simp [State.load, State.memRead, h]

theorem State.load_of_fault {f : Fault} (h : accessFault s.cfg a n = some f) (i : Instr) (rt : Reg) :
    s.load i rt a n = s.raise f (some (encode i)) (some a) := by
  simp [State.load, State.memRead, h]

theorem State.storeAt_of_access (h : accessFault s.cfg a n = none) (i : Instr) (v : Word) :
    s.storeAt i a n v = (s.store a n v).nextPc := by
  simp [State.storeAt, State.memWrite, h]

theorem State.storeAt_of_fault {f : Fault} (h : accessFault s.cfg a n = some f) (i : Instr) (v : Word) :
    s.storeAt i a n v = s.raise f (some (encode i)) (some a) := by
  simp [State.storeAt, State.memWrite, h]

/-- Settles O26: the first case of the checks. -/
theorem alignmentIsCheckedFirst : Obligations.AlignmentIsCheckedFirst :=
  fun _ _ hmis _ => accessFault_of_misaligned hmis

/-! ## Loads (R181, R183) -/

/-- A register write that goes on to the next instruction changes nothing else. -/
theorem State.setReg_nextPc_wrote (s : State) (rt : Reg) (v : Word) :
    Wrote s (s.setReg rt v).nextPc (some rt) v where
  regs q := s.commitReg_reg (some rt) v q
  pc := by simp
  memory := ⟨by simp, by simp⟩
  status := by simp
  hidden := ⟨by simp, by simp, by simp⟩

/-- A load that passes its checks writes its register and nothing else. -/
theorem State.load_wrote (h : accessFault s.cfg a n = none) (i : Instr) (rt : Reg) :
    Wrote s (s.load i rt a n) (some rt) (s.mem.readWidth a.toNat n) ∧ (s.load i rt a n).flags = s.flags := by
  rw [State.load_of_access h]
  exact ⟨s.setReg_nextPc_wrote rt _, s.setReg_flags rt _⟩

/-! ## Stores (R182, R184) -/

/-- A store that passes its checks writes its bytes and its output record and nothing else. -/
theorem State.storeAt_stored (h : accessFault s.cfg a n = none) (hm : s.mem.wf = true) (i : Instr) (v : Word) :
    Stored s (s.storeAt i a n v) a n v := by
  rw [State.storeAt_of_access h]
  exact
    { bytes := fun k hk => (Memory.read_writeWidth_same _ k n v hm hk).trans (byteOfWord_eq_extract v k)
      others := fun b hb => Memory.read_writeWidth_other _ _ b n v hb
      log := by simp [inOut_eq_true_iff]
      regs := fun _ => rfl
      flags := rfl
      pc := rfl
      status := rfl
      hidden := ⟨rfl, rfl, rfl⟩ }

/-! ## Faults (R225, R227) -/

theorem State.load_faultTaken {f : Fault} (h : accessFault s.cfg a n = some f) (i : Instr) (rt : Reg) :
    FaultTaken s (s.load i rt a n) { kind := f, pc := s.pc, word := some (encode i), addr := some a } := by
  rw [State.load_of_fault h]
  exact s.raise_faultTaken ..

theorem State.storeAt_faultTaken {f : Fault} (h : accessFault s.cfg a n = some f) (i : Instr) (v : Word) :
    FaultTaken s (s.storeAt i a n v) { kind := f, pc := s.pc, word := some (encode i), addr := some a } := by
  rw [State.storeAt_of_fault h]
  exact s.raise_faultTaken ..

end

/-- Settles O23: each of the two is `State.load` at its effective address. -/
theorem loadsReadMemory : Obligations.LoadsReadMemory := by
  refine fun rt rb off s => ⟨fun halign hin => ?_, fun hin => ?_⟩
  · exact ⟨_, rfl, State.load_wrote (accessFault_word_eq_none halign hin) ..⟩
  · rw [BitVec.ofNat_toNat]
    exact ⟨_, rfl, State.load_wrote (accessFault_byte_eq_none hin) ..⟩

/-- Settles O24: each of the two is `State.storeAt` at its effective address. -/
theorem storesWriteMemory : Obligations.StoresWriteMemory :=
  fun _ _ _ _ hm =>
    ⟨fun halign hin => ⟨_, rfl, State.storeAt_stored (accessFault_word_eq_none halign hin) hm ..⟩,
      fun hin => ⟨_, rfl, State.storeAt_stored (accessFault_byte_eq_none hin) hm ..⟩⟩

/-- Settles O25: an access that fails its checks takes their fault, alignment before mapping. -/
theorem badDataAddressFaults : Obligations.BadDataAddressFaults := by
  refine fun rt rb off s => ⟨fun hmis => ?_, fun halign hout => ?_, fun hout => ?_⟩
  · have hf := accessFault_of_misaligned (c := s.cfg) hmis
    exact ⟨⟨_, rfl, State.load_faultTaken hf ..⟩, ⟨_, rfl, State.storeAt_faultTaken hf ..⟩⟩
  · have hf := accessFault_of_unmapped (n := .word) (fun _ => halign) hout
    exact ⟨⟨_, rfl, State.load_faultTaken hf ..⟩, ⟨_, rfl, State.storeAt_faultTaken hf ..⟩⟩
  · have hf := accessFault_of_unmapped (n := .byte) nofun hout
    exact ⟨⟨_, rfl, State.load_faultTaken hf ..⟩, ⟨_, rfl, State.storeAt_faultTaken hf ..⟩⟩

/-! ## Little-endian order (R52) -/

theorem Memory.readWord_writeWord {m : Memory} (h : m.wf = true) (a : Nat) (v : Word) :
    (m.writeWord a v).readWord a = v := by
  have hbyte (k : Nat) (hk : k < 4) := Memory.read_writeWord_same a k v h hk
  have hbyte0 : (m.writeWord a v).read a = byteOfWord v 0 := hbyte 0 (by decide)
  rw [Memory.readWord, hbyte0, hbyte 1 (by decide), hbyte 2 (by decide), hbyte 3 (by decide)]
  exact wordOfBytes_bytes v

/-- Inside an aligned word addresses do not wrap. -/
theorem toNat_add_of_aligned {a : Word} (h : a.toNat % 4 = 0) {k : Nat} (hk : k < 4) :
    (a + BitVec.ofNat 32 k).toNat = a.toNat + k := by
  have := a.isLt
  rw [BitVec.toNat_add, BitVec.toNat_ofNat]
  omega

/-- Settles O27: the four bytes of the word just written, one by one and put together. -/
theorem wordStoreIsLittleEndian : Obligations.WordStoreIsLittleEndian := by
  intro s t a v hm hw
  obtain ⟨hacc, rfl⟩ := State.memWrite_eq_ok.1 hw
  obtain ⟨halign, hin⟩ := accessFault_eq_none.1 hacc
  have hword : (s.mem.writeWord a.toNat v).readWord a.toNat = v := Memory.readWord_writeWord hm _ v
  have hread : (s.store a .word v).memRead a .word = .ok v :=
    (State.memRead_of_access (s := s.store a .word v) hacc).trans (congrArg Except.ok hword)
  refine ⟨fun k hk => ?_, hread, hread, hword.symm⟩
  have haddr := toNat_add_of_aligned (halign rfl) hk
  have hbyte : accessFault s.cfg (a + BitVec.ofNat 32 k) .byte = none :=
    accessFault_byte_eq_none (by simp only [Width.bytes] at hin; omega)
  rw [State.memRead_of_access (s := s.store a .word v) hbyte, haddr, ← byteOfWord_eq_extract,
    ← Memory.read_writeWord_same a.toNat k v hm hk]
  rfl

end Sys2Proof.Machine
end

section
/-!
PROOFS. The wait cycles of an access (20_memory.md R70, 70_reset_and_hazards.md R256).
-/
namespace Sys2Proof.Machine

/-- The machine after `j` wait cycles of an access that has just entered the Memory stage. -/
def State.afterWaits (s : State) (j : Nat) : State :=
  { s with pipe := { s.pipe with memElapsed := j, cycle := s.pipe.cycle + j } }

theorem State.afterWaits_zero {s : State} (h : s.pipe.memElapsed = 0) : s.afterWaits 0 = s := by
  rw [State.afterWaits, Nat.add_zero, ← h]

section
variable {s : State} {x : XM} {k : MemKind} {n : Width} (hx : s.pipe.xm = some x) (hop : memOp x.d = some (k, n))
  (ha : accessFault s.cfg x.result n = none)
include hx hop ha

/-- A machine whose access passed its checks waits while the latency is not spent (R256). -/
theorem State.waits_iff : s.waits = true ↔ s.pipe.memElapsed + 1 < s.latency x.result k := by
  simp [State.waits, hx, hop, ha]

/-- Waiting changes neither the access nor its latency. -/
theorem State.afterWaits_waits_iff (j : Nat) : (s.afterWaits j).waits = true ↔ j + 1 < s.latency x.result k := by
  have hlat : (s.afterWaits j).latency x.result k = s.latency x.result k := by cases k <;> rfl
  rw [← hlat]
  exact State.waits_iff (s := s.afterWaits j) hx hop ha

theorem State.clock_afterWaits (hrun : s.status = .running) {j : Nat} (hj : j + 1 < s.latency x.result k) :
    clock (s.afterWaits j) = s.afterWaits (j + 1) := by
  have hwaits := (State.afterWaits_waits_iff hx hop ha j).2 hj
  rcases clock_cases (s.afterWaits j) with ⟨hn, -⟩ | ⟨-, -, e⟩ | ⟨-, hn, -⟩
  · exact absurd hrun hn
  · exact e
  · exact nomatch hwaits.symm.trans hn

theorem State.clockN_eq_afterWaits (hrun : s.status = .running) (h0 : s.pipe.memElapsed = 0) {j : Nat}
    (hj : j < s.latency x.result k) : clockN j s = s.afterWaits j := by
  induction j with
  | zero => exact (State.afterWaits_zero h0).symm
  | succ j ih =>
    rw [clockN_add j 1, ih (by omega)]
    exact State.clock_afterWaits hx hop ha hrun hj

end

/-- Settles O53: each cycle before the last of the latency counts one wait. -/
theorem accessWaitsItsLatency : Obligations.AccessWaitsItsLatency := by
  intro s x k n hrun hx hop ha h0 j hj
  have hafter := State.clockN_eq_afterWaits hx hop ha hrun h0 hj
  refine ⟨hafter, ?_⟩
  rw [hafter]
  exact State.afterWaits_waits_iff hx hop ha j

end Sys2Proof.Machine
end

section
/-!
PROOFS. Decoder and encoder are inverse to each other (30_encoding.md R100 to R114), and the illegal words are the list
of R114.
-/
namespace Sys2Proof

/-! ## The word of a well-formed instruction decodes to it (R102 to R112) -/

theorem decode_encodeM {op4 : Nat} (h : op4 < 16) (rt rb : Reg) (off : Int) :
    decode (encodeM op4 rt rb off) = decodeM (encodeM op4 rt rb off) := by
  simp [decode, encodeM_class h]

theorem decode_encodeB {op4 cond : Nat} (h : op4 < 16) (hc : cond < 16) (off : Int) :
    decode (encodeB op4 cond off) = decodeC (encodeB op4 cond off) := by
  simp [decode, encodeB_class h hc]

/-- Settles O1: format by format, every slice the decoder looks at is the one the encoder wrote. -/
theorem decodeOfEncode : Obligations.DecodeOfEncode := by
  intro i hwf
  cases i
  case add | sub | mul | div | mod | and | or | xor | shl | shr | sar | cmp =>
    rw [encode, decode_encodeR (by decide)]
    simp [decodeR, encodeR_low, encodeR_op4, encodeR_rdBits, encodeR_rd, encodeR_rs1, encodeR_rs2]
  case addi | subi | muli | divi | modi | andi | ori | xori | shli | shri | sari | cmpi =>
    rw [encode, decode_encodeI (by decide)]
    simp [decodeI, encodeI_op4, encodeI_rdBits, encodeI_rd, encodeI_rs1,
      signedField_unsignedField15 (encodeI_imm _ _ _ _) hwf]
  case ldr | str | ldrb | strb =>
    rw [encode, decode_encodeM (by decide)]
    simp [decodeM, encodeM_bit25, encodeM_op4, encodeM_rt, encodeM_rb,
      signedField_unsignedField15 (encodeM_off _ _ _ _) hwf]
  case b | beq | bne | blt | bge | bgt | ble | blo | bhs | bhi | bls | bmi | bpl | bvs | bvc | bl =>
    rw [encode, decode_encodeB (by decide) (by decide)]
    simp [decodeC, decodeBranch, encodeB_op4, encodeB_cond, signedField_unsignedField22 (encodeB_off _ _ _) hwf]
  case jr rs =>
    obtain ⟨hclass, hop, hhigh, hlow⟩ := encodeJ_fields rs
    simp [encode, decode, decodeC, hclass, hop, hhigh, hlow, encodeJ_rs]
  case nop | halt => rfl

/-! ## A word is made of its slices -/

section
variable (w : Word)

theorem bits_lt (hi lo : Nat) : bits w hi lo < 2 ^ (hi + 1 - lo) := Nat.mod_lt _ (Nat.two_pow_pos _)

/-- A register id is a slice of five bits. -/
theorem regField_val (lo : Nat) : (regField w lo).val = w.toNat / 2 ^ lo % 32 := rfl

theorem unsignedField_signedField15 : unsignedField 15 (signedField w 15) = w.toNat % 2 ^ 15 := by
  unfold unsignedField signedField
  norm_num
  split <;> omega

theorem unsignedField_signedField22 : unsignedField 22 (signedField w 22) = w.toNat % 2 ^ 22 := by
  unfold unsignedField signedField
  norm_num
  split <;> omega

end

section
variable {w : Word} {op4 : Nat} (hop : bits w 29 26 = op4)
include hop

theorem encodeR_fields (hclass : bits w 31 30 = 0) (h25 : bits w 25 25 = 0) (hlow : bits w 9 0 = 0) :
    encodeR op4 (regField w 20) (regField w 15) (regField w 10) = w := by
  subst hop
  apply BitVec.eq_of_toNat_eq
  rw [encodeR_toNat (bits_lt w 29 26)]
  simp only [bits, regField_val] at *
  omega

theorem encodeI_fields (hclass : bits w 31 30 = 0) (h25 : bits w 25 25 = 1) :
    encodeI op4 (regField w 20) (regField w 15) (signedField w 15) = w := by
  subst hop
  apply BitVec.eq_of_toNat_eq
  rw [encodeI_toNat (bits_lt w 29 26), unsignedField_signedField15]
  simp only [bits, regField_val] at *
  omega

theorem encodeM_fields (hclass : bits w 31 30 = 1) (h25 : bits w 25 25 = 0) :
    encodeM op4 (regField w 20) (regField w 15) (signedField w 15) = w := by
  subst hop
  apply BitVec.eq_of_toNat_eq
  rw [encodeM_toNat (bits_lt w 29 26), unsignedField_signedField15]
  simp only [bits, regField_val] at *
  omega

theorem encodeB_fields {cond : Nat} (hclass : bits w 31 30 = 2) (hcond : bits w 25 22 = cond) :
    encodeB op4 cond (signedField w 22) = w := by
  subst hop hcond
  apply BitVec.eq_of_toNat_eq
  rw [encodeB_toNat (bits_lt w 29 26) (bits_lt w 25 22), unsignedField_signedField22]
  simp only [bits] at *
  omega

theorem encodeZ_fields_eq (hclass : bits w 31 30 = 2) (hlow : bits w 25 0 = 0) : encodeZ op4 = w := by
  subst hop
  apply BitVec.eq_of_toNat_eq
  simp only [encodeZ, BitVec.toNat_ofNat, bits] at *
  omega

end

theorem encodeJ_fields_eq {w : Word} (hclass : bits w 31 30 = 2) (hop : bits w 29 26 = 2) (hhigh : bits w 25 20 = 0)
    (hlow : bits w 14 0 = 0) : encodeJ (regField w 15) = w := by
  apply BitVec.eq_of_toNat_eq
  rw [encodeJ_toNat]
  simp only [bits, regField_val] at *
  omega

/-! ## A decoded instruction's word is the one it came from (R114) -/

section
variable {w : Word} {i : Instr}

theorem encode_of_decodeR (hclass : bits w 31 30 = 0) (h25 : bits w 25 25 = 0) (h : decodeR w = some i) :
    encode i = w := by
  unfold decodeR at h
  obtain ⟨hlow, h⟩ := Option.ite_none_right_eq_some.1 h
  split at h
  case h_12 hop =>
    obtain ⟨hrd, h⟩ := Option.ite_none_right_eq_some.1 h
    cases h
    have hzero : regField w 20 = 0 := Fin.ext hrd
    rw [encode, ← hzero]
    exact encodeR_fields hop hclass h25 hlow
  case h_13 => cases h
  all_goals
    rename_i hop
    cases h
    exact encodeR_fields hop hclass h25 hlow

theorem encode_of_decodeI (hclass : bits w 31 30 = 0) (h25 : bits w 25 25 = 1) (h : decodeI w = some i) :
    encode i = w := by
  unfold decodeI at h
  split at h
  case h_12 hop =>
    obtain ⟨hrd, h⟩ := Option.ite_none_right_eq_some.1 h
    cases h
    have hzero : regField w 20 = 0 := Fin.ext hrd
    rw [encode, ← hzero]
    exact encodeI_fields hop hclass h25
  case h_13 => cases h
  all_goals
    rename_i hop
    cases h
    exact encodeI_fields hop hclass h25

theorem encode_of_decodeM (hclass : bits w 31 30 = 1) (h : decodeM w = some i) : encode i = w := by
  unfold decodeM at h
  obtain ⟨h25, h⟩ := Option.ite_none_right_eq_some.1 h
  split at h
  case h_5 => cases h
  all_goals
    rename_i hop
    cases h
    exact encodeM_fields hop hclass h25

theorem encode_of_decodeBranch (hclass : bits w 31 30 = 2) (hop : bits w 29 26 = 0) (h : decodeBranch w = some i) :
    encode i = w := by
  unfold decodeBranch at h
  split at h
  case h_16 => cases h
  all_goals
    rename_i hcond
    cases h
    exact encodeB_fields hop hclass hcond

theorem encode_of_decodeC (hclass : bits w 31 30 = 2) (h : decodeC w = some i) : encode i = w := by
  unfold decodeC at h
  split at h
  case h_1 hop => exact encode_of_decodeBranch hclass hop h
  case h_6 => cases h
  all_goals
    rename_i hop
    obtain ⟨hzero, h⟩ := Option.ite_none_right_eq_some.1 h
    cases h
  case h_2 => exact encodeB_fields hop hclass hzero
  case h_3 => exact encodeJ_fields_eq hclass hop hzero.1 hzero.2
  case h_4 | h_5 => exact encodeZ_fields_eq hop hclass hzero

theorem encode_of_decode (h : decode w = some i) : encode i = w := by
  unfold decode at h
  split at h
  case h_1 hclass =>
    have h25 := bits_lt w 25 25
    split at h
    case isTrue hr => exact encode_of_decodeR hclass hr h
    case isFalse hi => exact encode_of_decodeI hclass (by omega) h
  case h_2 hclass => exact encode_of_decodeM hclass h
  case h_3 hclass => exact encode_of_decodeC hclass h
  case h_4 => cases h

end

/-- Settles O2: each part of the decoder takes a word apart into all of its slices. -/
theorem encodeOfDecode : Obligations.EncodeOfDecode :=
  fun _ _ h => ⟨decode_wf h, encode_of_decode h⟩

/-- The legal words are the words of the well-formed instructions, one each. -/
theorem decode_eq_some_iff {w : Word} {i : Instr} : decode w = some i ↔ i.wf = true ∧ encode i = w :=
  ⟨encodeOfDecode w i, fun ⟨hwf, hw⟩ => hw ▸ decodeOfEncode i hwf⟩

/-! ## The illegal words (R114) -/

section
variable (w : Word)

theorem decodeR_eq_none_iff : decodeR w = none ↔
    (bits w 29 26 = 0 ∨ 13 ≤ bits w 29 26) ∨ bits w 9 0 ≠ 0 ∨ (bits w 29 26 = 12 ∧ bits w 24 20 ≠ 0) := by
  unfold decodeR
  split
  case isFalse hlow => simp [hlow]
  case isTrue hlow =>
    split
    case h_13 => simp only [imp_false, true_iff] at *; omega
    all_goals
      rename_i hop
      simp [hlow, hop]

theorem decodeI_eq_none_iff : decodeI w = none ↔
    (bits w 29 26 = 0 ∨ 13 ≤ bits w 29 26) ∨ (bits w 29 26 = 12 ∧ bits w 24 20 ≠ 0) := by
  unfold decodeI
  split
  case h_13 => simp only [imp_false, true_iff] at *; omega
  all_goals
    rename_i hop
    simp [hop]

theorem decodeM_eq_none_iff : decodeM w = none ↔ 4 ≤ bits w 29 26 ∨ bits w 25 25 = 1 := by
  have h25 := bits_lt w 25 25
  unfold decodeM
  split
  case isFalse hset => simp only [true_iff]; omega
  case isTrue hclear =>
    split
    case h_5 => simp only [imp_false, true_iff] at *; omega
    all_goals
      rename_i hop
      simp [hclear, hop]

theorem decodeBranch_eq_none_iff : decodeBranch w = none ↔ bits w 25 22 = 15 := by
  have hcond := bits_lt w 25 22
  unfold decodeBranch
  split
  case h_16 => simp only [imp_false, true_iff] at *; omega
  all_goals
    rename_i hc
    simp [hc]

theorem decodeC_eq_none_iff : decodeC w = none ↔
    (4 ≤ bits w 29 26 ∧ bits w 29 26 ≤ 14)
    ∨ (bits w 29 26 = 0 ∧ bits w 25 22 = 15)
    ∨ (bits w 29 26 = 1 ∧ bits w 25 22 ≠ 0)
    ∨ (bits w 29 26 = 2 ∧ (bits w 25 20 ≠ 0 ∨ bits w 14 0 ≠ 0))
    ∨ ((bits w 29 26 = 3 ∨ bits w 29 26 = 15) ∧ bits w 25 0 ≠ 0) := by
  have hlt := bits_lt w 29 26
  unfold decodeC
  split
  case h_1 hop => simp [hop, decodeBranch_eq_none_iff]
  case h_3 hop => simp [hop, imp_iff_not_or]
  case h_6 => simp only [imp_false, true_iff] at *; omega
  all_goals
    rename_i hop
    simp [hop]

end

/-- Settles O3: the decoder's top level sends each class to its part, whose illegal words are known. -/
theorem illegalWordsAreTheList : Obligations.IllegalWordsAreTheList := by
  intro w
  have hlt := bits_lt w 31 30
  unfold decode
  split
  case h_1 hclass =>
    split
    case isTrue hr => simp [decodeR_eq_none_iff, hclass, hr]
    case isFalse hi => simp [decodeI_eq_none_iff, hclass, hi]
  case h_2 hclass => simp [decodeM_eq_none_iff, hclass]
  case h_3 hclass => simp [decodeC_eq_none_iff, hclass]
  case h_4 => exact iff_of_true rfl (.inl (by simp only [imp_false] at *; omega))

/-- Settles O6: each legal word is the word of its instruction; the two illegal ones have operation 0 of class A and
the unassigned class 11. -/
theorem workedWordsDecode : Obligations.WorkedWordsDecode := by
  refine ⟨?_, ?_, ?_, ?_, ?_, ?_, ?_, ?_, ?_, (illegalWordsAreTheList _).2 (.inr (.inl ⟨rfl, .inl rfl⟩)),
    (illegalWordsAreTheList _).2 (.inl rfl)⟩
  all_goals exact decode_eq_some_iff.2 (by decide)

end Sys2Proof
end

section
/-!
PROOFS. The descriptor of a decoded instruction, slice by slice of its word (30_encoding.md R108, R113, R118). A decoded
word is the word of its instruction (`encode_of_decode`), so each format is looked at once.
-/
namespace Sys2Proof

/-! ## Immediates as sign-extended slices (R108) -/

section
variable (w : Word)

/-- The low `n` bits as a two's-complement number. -/
theorem toInt_extractLsb' {n : Nat} (hn : 0 < n) : (w.extractLsb' 0 n).toInt = signedField w n := by
  have hsign (v : Nat) : 2 * v < 2 ^ n ↔ v < 2 ^ (n - 1) := by
    rw [← Nat.two_pow_pred_add_two_pow_pred hn]; omega
  simp only [BitVec.toInt_eq_toNat_cond, BitVec.extractLsb'_toNat, Nat.shiftRight_zero, hsign, signedField]

theorem signExtend_imm15 : (w.extractLsb' 0 15).signExtend 32 = BitVec.ofInt 32 (signedField w 15) := by
  rw [← toInt_extractLsb' w (by decide)]; rfl

theorem signExtend_off22 : (w.extractLsb' 0 22 ++ 0#2).signExtend 32 = BitVec.ofInt 32 (4 * signedField w 22) := by
  have h : (w.extractLsb' 0 22 ++ 0#2).toInt = 4 * (w.extractLsb' 0 22).toInt := by
    have hnat : (w.extractLsb' 0 22 ++ 0#2).toNat = 4 * (w.extractLsb' 0 22).toNat := by
      rw [BitVec.toNat_append, Nat.shiftLeft_eq, Nat.mul_comm]; exact Nat.or_zero _
    simp only [BitVec.toInt_eq_toNat_cond, hnat]
    split <;> split <;> omega
  rw [← toInt_extractLsb' w (by decide), ← h]; rfl

end

section
variable {w : Word} {imm : Int}

theorem signExtend_unsignedField15 (hw : w.toNat % 2 ^ 15 = unsignedField 15 imm) (h : imm15Ok imm = true) :
    (w.extractLsb' 0 15).signExtend 32 = BitVec.ofInt 32 imm := by
  rw [signExtend_imm15, signedField_unsignedField15 hw h]

theorem signExtend_unsignedField22 (hw : w.toNat % 2 ^ 22 = unsignedField 22 imm) (h : off22Ok imm = true) :
    (w.extractLsb' 0 22 ++ 0#2).signExtend 32 = BitVec.ofInt 32 (4 * imm) := by
  rw [signExtend_off22, signedField_unsignedField22 hw h]

end

/-! ## Register ids as slices (R113) -/

theorem bits_rd (w : Word) : bits w 24 20 = (regField w 20).val := rfl

theorem bits_rs1 (w : Word) : bits w 19 15 = (regField w 15).val := rfl

theorem bits_rs2 (w : Word) : bits w 14 10 = (regField w 10).val := rfl

/-! ## The descriptor of each class, against the word -/

section
variable {i : Instr} (hwf : i.wf = true)
include hwf

theorem classA_slices (hcls : i.cls = .a) :
    bits (encode i) 31 30 = 0
    ∧ i.rd.map Fin.val = (if bits (encode i) 29 26 = 12 then none else some (bits (encode i) 24 20))
    ∧ i.srcA.map Fin.val = some (bits (encode i) 19 15)
    ∧ i.srcB.map Fin.val = (if bits (encode i) 25 25 = 1 then none else some (bits (encode i) 14 10))
    ∧ i.immWord = (if bits (encode i) 25 25 = 1
      then some (((encode i).extractLsb' 0 15).signExtend 32) else none) := by
  cases i
  case add | sub | mul | div | mod | and | or | xor | shl | shr | sar | cmp =>
    simp [encode, Instr.rd, Instr.srcA, Instr.srcB, Instr.immWord, encodeR_class, encodeR_op4, encodeR_bit25, bits_rd,
      bits_rs1, bits_rs2, encodeR_rd, encodeR_rs1, encodeR_rs2]
  case addi | subi | muli | divi | modi | andi | ori | xori | shli | shri | sari | cmpi =>
    simp [encode, Instr.rd, Instr.srcA, Instr.srcB, Instr.immWord, encodeI_class, encodeI_op4, encodeI_bit25, bits_rd,
      bits_rs1, encodeI_rd, encodeI_rs1, signExtend_unsignedField15 (encodeI_imm _ _ _ _) hwf]
  all_goals cases hcls

theorem classM_slices (hcls : i.cls = .m) :
    bits (encode i) 31 30 = 1
    ∧ i.rd.map Fin.val = (if Machine.isStore i then none else some (bits (encode i) 24 20))
    ∧ i.srcA.map Fin.val = some (bits (encode i) 19 15)
    ∧ i.srcB.map Fin.val = (if Machine.isStore i then some (bits (encode i) 24 20) else none)
    ∧ i.immWord = some (((encode i).extractLsb' 0 15).signExtend 32) := by
  cases i
  case ldr | str | ldrb | strb =>
    simp [encode, Instr.rd, Instr.srcA, Instr.srcB, Instr.immWord, Machine.isStore, Machine.memOp, encodeM_class,
      bits_rd, bits_rs1, encodeM_rt, encodeM_rb, signExtend_unsignedField15 (encodeM_off _ _ _ _) hwf]
  all_goals cases hcls

theorem classC_slices (hcls : i.cls = .c) :
    bits (encode i) 31 30 = 2
    ∧ i.rd = (if bits (encode i) 29 26 = 1 then some 31 else none)
    ∧ i.srcA.map Fin.val = (if bits (encode i) 29 26 = 2 then some (bits (encode i) 19 15) else none)
    ∧ i.srcB = none
    ∧ i.immWord = (if bits (encode i) 29 26 ≤ 1
      then some (((encode i).extractLsb' 0 22 ++ 0#2).signExtend 32) else none) := by
  cases i
  case b | beq | bne | blt | bge | bgt | ble | blo | bhs | bhi | bls | bmi | bpl | bvs | bvc | bl =>
    simp [encode, Instr.rd, Instr.srcA, Instr.srcB, Instr.immWord, encodeB_class, encodeB_op4,
      signExtend_unsignedField22 (encodeB_off _ _ _) hwf]
  case jr rs =>
    obtain ⟨hclass, hop, -, -⟩ := encodeJ_fields rs
    simp [encode, Instr.rd, Instr.srcA, Instr.srcB, Instr.immWord, hclass, hop, bits_rs1, encodeJ_rs]
  case nop | halt => decide
  all_goals cases hcls

end

/-- Settles O5: the word is the instruction's own, whose slices are known format by format. -/
theorem descriptorFieldsAreTheSlices : Obligations.DescriptorFieldsAreTheSlices := by
  intro w i h
  obtain ⟨hwf, rfl⟩ := decode_eq_some_iff.1 h
  exact ⟨classA_slices hwf, classM_slices hwf, classC_slices hwf⟩

end Sys2Proof
end

section
/-!
PROOFS. The rows of the opcode table (30_encoding.md R114): every instruction's word matches its own row, no row matches
an illegal word, and any two rows disagree under the bits that both fix.
-/
namespace Sys2Proof

/-! ## Words under a mask of the table -/

/-- The mask of the bits from `hi` up and of the bits below `lo`, the form of every mask of the table. -/
def outerMask (hi lo : Nat) : Word := BitVec.allOnes 32 <<< hi ||| BitVec.allOnes 32 >>> (32 - lo)

section
variable {hi lo : Nat} (hlo : lo ≤ 32)
include hlo

theorem getLsbD_outerMask {k : Nat} (hk : k < 32) :
    (outerMask hi lo).getLsbD k = (decide (hi ≤ k) || decide (k < lo)) := by
  rw [outerMask, BitVec.getLsbD_or, BitVec.getLsbD_shiftLeft, BitVec.getLsbD_ushiftRight, BitVec.getLsbD_allOnes,
    BitVec.getLsbD_allOnes]
  grind

variable (h : lo ≤ hi) (w : Word)
include h

/-- What is left of a word under such a mask: its two outer parts. -/
theorem toNat_and_outerMask :
    (w &&& outerMask hi lo).toNat = 2 ^ hi * (w.toNat / 2 ^ hi) + w.toNat % 2 ^ lo := by
  have hlt : w.toNat % 2 ^ lo < 2 ^ hi :=
    (Nat.mod_lt _ (Nat.two_pow_pos lo)).trans_le (Nat.pow_le_pow_right (by decide) h)
  rw [Nat.two_pow_add_eq_or_of_lt hlt]
  apply Nat.eq_of_testBit_eq
  intro k
  simp only [Nat.testBit_or, Nat.testBit_two_pow_mul, Nat.testBit_div_two_pow, Nat.testBit_mod_two_pow,
    BitVec.testBit_toNat, BitVec.getLsbD_and]
  by_cases hk : k < 32
  · rw [getLsbD_outerMask hlo hk]
    grind
  · have hbit : w.getLsbD k = false := BitVec.getLsbD_of_ge w k (by omega)
    grind

theorem OpRow.matchesWord_of_outer {r : OpRow} (hmask : r.mask = outerMask hi lo)
    (hw : 2 ^ hi * (w.toNat / 2 ^ hi) + w.toNat % 2 ^ lo = r.pattern.toNat) : r.matchesWord w = true := by
  rw [OpRow.matchesWord, beq_iff_eq, hmask]
  exact BitVec.eq_of_toNat_eq ((toNat_and_outerMask hlo h w).trans hw)

end

/-! ## The rows of each format match its words -/

section
variable {r : OpRow} {op4 : Nat} (h : op4 < 16)
include h

theorem encodeR_matchesWord (rd rs1 rs2 : Reg) (hmask : r.mask = outerMask 25 10)
    (hp : r.pattern.toNat = op4 * 2 ^ 26) : r.matchesWord (encodeR op4 rd rs1 rs2) = true := by
  apply OpRow.matchesWord_of_outer (by decide) (by decide) _ hmask
  rw [encodeR_toNat h, hp]
  omega

/-- The row of `CMP` fixes `rd` too. -/
theorem encodeR_zero_matchesWord (rs1 rs2 : Reg) (hmask : r.mask = outerMask 20 10)
    (hp : r.pattern.toNat = op4 * 2 ^ 26) : r.matchesWord (encodeR op4 0 rs1 rs2) = true := by
  apply OpRow.matchesWord_of_outer (by decide) (by decide) _ hmask
  rw [encodeR_toNat h, hp, Fin.val_zero]
  omega

theorem encodeI_matchesWord (rd rs1 : Reg) (imm : Int) (hmask : r.mask = outerMask 25 0)
    (hp : r.pattern.toNat = op4 * 2 ^ 26 + 2 ^ 25) : r.matchesWord (encodeI op4 rd rs1 imm) = true := by
  have himm := unsignedField_lt 15 imm
  apply OpRow.matchesWord_of_outer (by decide) (by decide) _ hmask
  rw [encodeI_toNat h, hp]
  omega

/-- The row of `CMPI` fixes `rd` too. -/
theorem encodeI_zero_matchesWord (rs1 : Reg) (imm : Int) (hmask : r.mask = outerMask 20 0)
    (hp : r.pattern.toNat = op4 * 2 ^ 26 + 2 ^ 25) : r.matchesWord (encodeI op4 0 rs1 imm) = true := by
  have himm := unsignedField_lt 15 imm
  apply OpRow.matchesWord_of_outer (by decide) (by decide) _ hmask
  rw [encodeI_toNat h, hp, Fin.val_zero]
  omega

theorem encodeM_matchesWord (rt rb : Reg) (off : Int) (hmask : r.mask = outerMask 25 0)
    (hp : r.pattern.toNat = 2 ^ 30 + op4 * 2 ^ 26) : r.matchesWord (encodeM op4 rt rb off) = true := by
  have hoff := unsignedField_lt 15 off
  apply OpRow.matchesWord_of_outer (by decide) (by decide) _ hmask
  rw [encodeM_toNat h, hp]
  omega

theorem encodeB_matchesWord {cond : Nat} (hc : cond < 16) (off : Int) (hmask : r.mask = outerMask 22 0)
    (hp : r.pattern.toNat = 2 ^ 31 + op4 * 2 ^ 26 + cond * 2 ^ 22) : r.matchesWord (encodeB op4 cond off) = true := by
  have hoff := unsignedField_lt 22 off
  apply OpRow.matchesWord_of_outer (by decide) (by decide) _ hmask
  rw [encodeB_toNat h hc, hp]
  omega

end

theorem encodeJ_matchesWord {r : OpRow} (rs : Reg) (hmask : r.mask = outerMask 20 15)
    (hp : r.pattern.toNat = 2 ^ 31 + 2 * 2 ^ 26) : r.matchesWord (encodeJ rs) = true := by
  apply OpRow.matchesWord_of_outer (by decide) (by decide) _ hmask
  rw [encodeJ_toNat, hp]
  omega

/-- The row of an instruction: the rows stand in the order of the constructors. -/
theorem exists_row (i : Instr) :
    ∃ r, opcodeRows[i.ctorIdx]? = some r ∧ r.mnemonic = i.mnemonic ∧ r.matchesWord (encode i) = true := by
  cases i
  case add | sub | mul | div | mod | and | or | xor | shl | shr | sar =>
    exact ⟨_, rfl, rfl, encodeR_matchesWord (by decide) _ _ _ rfl rfl⟩
  case cmp => exact ⟨_, rfl, rfl, encodeR_zero_matchesWord (by decide) _ _ rfl rfl⟩
  case addi | subi | muli | divi | modi | andi | ori | xori | shli | shri | sari =>
    exact ⟨_, rfl, rfl, encodeI_matchesWord (by decide) _ _ _ rfl rfl⟩
  case cmpi => exact ⟨_, rfl, rfl, encodeI_zero_matchesWord (by decide) _ _ rfl rfl⟩
  case ldr | str | ldrb | strb => exact ⟨_, rfl, rfl, encodeM_matchesWord (by decide) _ _ _ rfl rfl⟩
  case b | beq | bne | blt | bge | bgt | ble | blo | bhs | bhi | bls | bmi | bpl | bvs | bvc | bl =>
    exact ⟨_, rfl, rfl, encodeB_matchesWord (by decide) (by decide) _ rfl rfl⟩
  case jr => exact ⟨_, rfl, rfl, encodeJ_matchesWord _ rfl rfl⟩
  case nop | halt => exact ⟨_, rfl, rfl, rfl⟩

/-! ## No row matches an illegal word -/

theorem bits_and (v w : Word) (hi lo : Nat) : bits (v &&& w) hi lo = bits v hi lo &&& bits w hi lo := by
  simp only [bits, BitVec.toNat_and, Nat.and_div_two_pow, Nat.and_mod_two_pow]

/-- The row fixes every bit of the slice, to the value `v`. -/
abbrev OpRow.Fixes (r : OpRow) (hi lo v : Nat) : Prop :=
  bits r.mask hi lo = 2 ^ (hi + 1 - lo) - 1 ∧ bits r.pattern hi lo = v

theorem OpRow.Fixes.bits_eq {r : OpRow} {hi lo v : Nat} (hf : r.Fixes hi lo v) {w : Word}
    (h : r.matchesWord w = true) : bits w hi lo = v := by
  obtain ⟨hmask, rfl⟩ := hf
  rw [← beq_iff_eq.1 h, bits_and, hmask, Nat.and_two_pow_sub_one_of_lt_two_pow (bits_lt w hi lo)]

/-! What the rows of each class fix: R114 asks no more. -/

theorem opcodeRowsA_fix : ∀ r ∈ opcodeRowsA, r.Fixes 31 30 0
    ∧ (∃ op < 13, 1 ≤ op ∧ r.Fixes 29 26 op ∧ (op = 12 → r.Fixes 24 20 0))
    ∧ (r.Fixes 25 25 1 ∨ (r.Fixes 25 25 0 ∧ r.Fixes 9 0 0)) := by decide

theorem opcodeRowsM_fix : ∀ r ∈ opcodeRowsM, r.Fixes 31 30 1 ∧ (∃ op < 4, r.Fixes 29 26 op) ∧ r.Fixes 25 25 0 := by
  decide

theorem opcodeRowsC_fix : ∀ r ∈ opcodeRowsC, r.Fixes 31 30 2
    ∧ ((r.Fixes 29 26 0 ∧ ∃ cond < 15, r.Fixes 25 22 cond) ∨ (r.Fixes 29 26 1 ∧ r.Fixes 25 22 0)
      ∨ (r.Fixes 29 26 2 ∧ r.Fixes 25 20 0 ∧ r.Fixes 14 0 0)
      ∨ ((r.Fixes 29 26 3 ∨ r.Fixes 29 26 15) ∧ r.Fixes 25 0 0)) := by decide

section
variable {w : Word} {r : OpRow} (h : r.matchesWord w = true)
include h

theorem decode_ne_none_of_rowA (hr : r ∈ opcodeRowsA) : decode w ≠ none := by
  obtain ⟨hclass, ⟨op, hlt, hpos, hop, hcmp⟩, hform⟩ := opcodeRowsA_fix r hr
  have hrd (h12 : op = 12) : bits w 24 20 = 0 := (hcmp h12).bits_eq h
  have hlow : bits w 25 25 = 0 → bits w 9 0 = 0 := fun h25 => by
    rcases hform with hi | ⟨-, hlow⟩
    · exact absurd (h25.symm.trans (hi.bits_eq h)) (by decide)
    · exact hlow.bits_eq h
  rw [Ne, illegalWordsAreTheList]
  simp only [hclass.bits_eq h, hop.bits_eq h]
  omega

theorem decode_ne_none_of_rowM (hr : r ∈ opcodeRowsM) : decode w ≠ none := by
  obtain ⟨hclass, ⟨op, hlt, hop⟩, hbit⟩ := opcodeRowsM_fix r hr
  rw [Ne, illegalWordsAreTheList]
  simp only [hclass.bits_eq h, hop.bits_eq h, hbit.bits_eq h]
  omega

theorem decode_ne_none_of_rowC (hr : r ∈ opcodeRowsC) : decode w ≠ none := by
  obtain ⟨hclass, hcases⟩ := opcodeRowsC_fix r hr
  rw [Ne, illegalWordsAreTheList]
  rcases hcases with ⟨hop, cond, hlt, hcond⟩ | ⟨hop, hcond⟩ | ⟨hop, hhigh, hlow⟩ | ⟨hop | hop, hzero⟩
  · simp [hclass.bits_eq h, hop.bits_eq h, hcond.bits_eq h, hlt.ne]
  · simp [hclass.bits_eq h, hop.bits_eq h, hcond.bits_eq h]
  · simp [hclass.bits_eq h, hop.bits_eq h, hhigh.bits_eq h, hlow.bits_eq h]
  · simp [hclass.bits_eq h, hop.bits_eq h, hzero.bits_eq h]
  · simp [hclass.bits_eq h, hop.bits_eq h, hzero.bits_eq h]

theorem exists_decode_of_row (hr : r ∈ opcodeRows) : ∃ i, decode w = some i := by
  rw [← Option.ne_none_iff_exists']
  rcases List.mem_append.1 hr with hr | hr
  · rcases List.mem_append.1 hr with hr | hr
    · exact decode_ne_none_of_rowA h hr
    · exact decode_ne_none_of_rowM h hr
  · exact decode_ne_none_of_rowC h hr

end

/-! ## No word matches two rows -/

theorem opcodeRows_disagree : opcodeRows.Pairwise fun r q => r.pattern &&& q.mask ≠ q.pattern &&& r.mask := by decide

theorem row_unique {w : Word} {r q : OpRow} (hr : r ∈ opcodeRows) (hq : q ∈ opcodeRows)
    (hrw : r.matchesWord w = true) (hqw : q.matchesWord w = true) : r = q := by
  have hagree : r.pattern &&& q.mask = q.pattern &&& r.mask := by
    rw [← beq_iff_eq.1 hrw, ← beq_iff_eq.1 hqw, BitVec.and_assoc, BitVec.and_assoc,
      BitVec.and_comm r.mask]
  have hsymm : Std.Symm fun r q : OpRow => r.pattern &&& q.mask ≠ q.pattern &&& r.mask := ⟨fun _ _ => Ne.symm⟩
  by_contra hne
  exact opcodeRows_disagree.forall hr hq hne hagree

/-- Settles O4: a decoded word is its instruction's, which matches its row; rows match legal words only, and disagree
with each other. -/
theorem legalWordsMatchOneRow : Obligations.LegalWordsMatchOneRow := by
  refine ⟨fun w i h => ?_, fun w ⟨r, hr, hw⟩ => exists_decode_of_row hw hr, fun w r q hr hq => row_unique hr hq⟩
  obtain ⟨r, hr, hname, hmatch⟩ := exists_row i
  exact ⟨r, List.mem_of_getElem? hr, hname, encode_of_decode h ▸ hmatch⟩

end Sys2Proof
end

section
/-!
PROOFS. Conditions and branches (30_encoding.md R112, 43_control_flow.md R190 to R199), and what the conditions mean
after a subtraction (40_arithmetic_compare.md R132).
-/
namespace Sys2Proof.Machine

/-! ## The flags of a subtraction (R132) -/

section
variable (a b : Word)

theorem subFlags_fst : (subFlags a b).1 = a - b := by
  apply BitVec.eq_of_toNat_eq
  simp only [subFlags, BitVec.toNat_ofInt, BitVec.toNat_sub]
  omega

theorem outOfRange_sub_iff : OutOfRange (a.toInt - b.toInt) ↔ BitVec.ssubOverflow a b = true := by
  simp only [OutOfRange, BitVec.ssubOverflow, Bool.or_eq_true, decide_eq_true_eq]
  omega

theorem subFlags_snd : FlagsAre (subFlags a b).2 (a - b) (b.toNat ≤ a.toNat) (OutOfRange (a.toInt - b.toInt)) := by
  have hr : (subFlags a b).2
      = resultFlags (a - b) (decide (b.toNat ≤ a.toNat)) (a.msb != b.msb && (a - b).msb != a.msb) := by
    rw [← subFlags_fst]; rfl
  rw [hr, outOfRange_sub_iff, BitVec.ssubOverflow_eq]
  refine ⟨BitVec.msb_eq_getLsbD_last (a - b), by simp [resultFlags], by simp [resultFlags], ?_⟩
  simp only [resultFlags]
  cases a.msb <;> cases b.msb <;> simp

/-- The sign of a difference is wrong exactly when it overflows. -/
theorem toInt_lt_iff_msb_sub : a.toInt < b.toInt ↔ ((a - b).msb = true ↔ ¬ OutOfRange (a.toInt - b.toInt)) := by
  have ha := BitVec.toInt_lt (x := a)
  have ha' := BitVec.le_toInt a
  have hb := BitVec.toInt_lt (x := b)
  have hb' := BitVec.le_toInt b
  rw [msb_iff_toInt_neg, BitVec.toInt_sub, Int.bmod_def, OutOfRange]
  split <;> omega

end

/-! ## What a condition means -/

theorem condTrue_iff_taken (c : Cond) (f : Flags) : condTrue c f = true ↔ Taken c f := by
  cases c <;> simp [condTrue, Taken]

section
variable {f : Flags} {a b : Word} (h : FlagsAre f (a - b) (b.toNat ≤ a.toNat) (OutOfRange (a.toInt - b.toInt)))
include h

theorem FlagsAre.z_iff_eq : f.z = true ↔ a = b := by
  obtain ⟨-, hz, -, -⟩ := h
  rw [hz]; exact sub_eq_zero

theorem FlagsAre.n_ne_v_iff_lt : f.n ≠ f.v ↔ a.toInt < b.toInt := by
  obtain ⟨hn, -, -, hv⟩ := h
  rw [toInt_lt_iff_msb_sub, ← hv, hn, BitVec.msb_eq_getLsbD_last]
  cases (a - b).getLsbD 31 <;> cases f.v <;> simp

/-- After a subtraction the conditions compare its operands, signed and unsigned (R190). -/
theorem condTrue_iff_meaning (c : Cond) : condTrue c f = true ↔ Meaning c a b := by
  have hz := h.z_iff_eq
  have hlt := h.n_ne_v_iff_lt
  obtain ⟨hn, -, hc, hv⟩ := h
  have hne : f.z = false ↔ a ≠ b := Bool.eq_false_iff.trans hz.not
  have hge : f.n = f.v ↔ b.toInt ≤ a.toInt := by rw [← not_lt, ← hlt, not_not]
  have hlo : f.c = false ↔ a.toNat < b.toNat := by rw [Bool.eq_false_iff, Ne, hc, not_le]
  have hsigned : a.toInt = b.toInt ↔ a = b := BitVec.toInt_inj
  have hunsigned : a.toNat = b.toNat ↔ a = b := BitVec.toNat_inj
  rw [condTrue_iff_taken]
  cases c with
  | al => exact Iff.rfl
  | eq => exact hz
  | ne => exact hne
  | lt => exact hlt
  | ge => exact hge
  | gt => simp only [Taken, Meaning, hne, hge, ← hsigned, Ne]; omega
  | le => simp only [Taken, Meaning, hz, hlt, ← hsigned]; omega
  | lo => exact hlo
  | hs => exact hc
  | hi => simp only [Taken, Meaning, hc, hne, ← hunsigned, Ne]; omega
  | ls => simp only [Taken, Meaning, hlo, hz, ← hunsigned]; omega
  | mi => simp only [Taken, Meaning, hn]
  | pl => simp only [Taken, Meaning, hn]
  | vs => exact hv
  | vc => exact Bool.eq_false_iff.trans hv.not

end

/-- A compare or a subtraction leaves the flags of `SubFlags` (R137, R138, R145, R146). -/
theorem flags_of_subtraction {s t : State} {r : Word × Flags} {rd : Reg}
    (h : Host.Outcome.next (s.writeCompare r) = (.next t : Result) ∨ .next (s.writeArith rd r) = (.next t : Result)) :
    t.flags = r.2 := by
  rcases h with h | h <;> cases h <;> rfl

/-- Settles O19: compares and subtractions leave the flags of the same subtraction. -/
theorem conditionsAfterCompareMeanComparisons : Obligations.ConditionsAfterCompareMeanComparisons := by
  intro c rd rs1 rs2 imm s t
  refine ⟨fun h => ?_, fun h => ?_⟩
  all_goals
    rw [flags_of_subtraction h]
    exact condTrue_iff_meaning (subFlags_snd ..) c

/-! ## Branches (R190 to R199) -/

theorem exec_branchInstr (c : Cond) (off : Int) (s : State) :
    exec (branchInstr c off) s = .next (s.setPc (if condTrue c s.flags then branchTarget s.pc off else s.pc + 4)) := by
  rw [← State.branchIf_eq]
  cases c <;> rfl

theorem State.setPc_jumped (s : State) (target : Word) : Jumped s (s.setPc target) target where
  pc := rfl
  regs := fun _ => rfl
  flags := rfl
  memory := ⟨fun _ => rfl, rfl⟩
  status := rfl
  hidden := ⟨rfl, rfl, rfl⟩

theorem branchTarget_toNat (pc : Word) (off : Int) :
    ((branchTarget pc off).toNat : Int) = ((pc.toNat : Int) + 4 * off) % 2 ^ 32 := by
  simp only [branchTarget, branchDisp, BitVec.toNat_add, BitVec.toNat_ofInt]
  omega

/-- Settles O28: a branch only sets the `pc`, as its condition says. -/
theorem branchesGoWhereTheConditionSays : Obligations.BranchesGoWhereTheConditionSays := by
  intro c off s
  refine ⟨_, exec_branchInstr c off s, s.setPc_jumped _, fun htaken => ?_, fun hnot => ?_⟩
  · rw [State.setPc_pc, if_pos ((condTrue_iff_taken c s.flags).2 htaken)]
    exact branchTarget_toNat s.pc off
  · rw [State.setPc_pc, if_neg (fun h => hnot ((condTrue_iff_taken c s.flags).1 h))]
    exact BitVec.toNat_add s.pc 4

end Sys2Proof.Machine
end

section
/-!
PROOFS. The flag functions of addition, subtraction and multiplication (40_arithmetic_compare.md R130 to R133), as
words of `BitVec` and against the integers they compute.
-/
namespace Sys2Proof.Machine

/-- A word's sign is its bit 31. -/
theorem msb_eq_bit31 (r : Word) : r.msb = r.getLsbD 31 := BitVec.msb_eq_getLsbD_last r

/-- A number written as a word, against the word read back. -/
theorem toNat_ofInt_eq_emod (x : Int) : ((BitVec.ofInt 32 x).toNat : Int) = x % 2 ^ 32 := by
  rw [BitVec.toNat_ofInt]
  exact Int.toNat_of_nonneg (Int.emod_nonneg _ (by decide))

/-- N and Z of every flag function are those of R130. -/
theorem resultFlags_flagsAre (r : Word) {c v : Bool} {carry ovf : Prop} (hc : c = true ↔ carry)
    (hv : v = true ↔ ovf) : FlagsAre (resultFlags r c v) r carry ovf :=
  ⟨msb_eq_bit31 r, beq_iff_eq, hc, hv⟩

theorem FlagsAre.congr_ovf {f : Flags} {r : Word} {carry ovf ovf' : Prop} (h : FlagsAre f r carry ovf)
    (hovf : ovf ↔ ovf') : FlagsAre f r carry ovf' := by
  obtain ⟨hn, hz, hc, hv⟩ := h
  exact ⟨hn, hz, hc, hv.trans hovf⟩

section
variable (a b : Word)

/-! ## Addition (R131) -/

theorem addFlags_toNat : (addFlags a b).1.toNat = (a.toNat + b.toNat) % 2 ^ 32 := BitVec.toNat_ofNat _ _

theorem addFlags_fst : (addFlags a b).1 = a + b :=
  BitVec.eq_of_toNat_eq ((addFlags_toNat a b).trans (BitVec.toNat_add a b).symm)

/-- A signed sum does not fit exactly when equal signs give the other one. -/
theorem outOfRange_add_iff_signs :
    OutOfRange (a.toInt + b.toInt) ↔ a.getLsbD 31 = b.getLsbD 31 ∧ (a + b).getLsbD 31 ≠ a.getLsbD 31 := by
  have hover : OutOfRange (a.toInt + b.toInt) ↔ BitVec.saddOverflow a b = true := by
    simp only [OutOfRange, BitVec.saddOverflow, Bool.or_eq_true, decide_eq_true_eq]
    omega
  rw [hover, BitVec.saddOverflow_eq]
  simp [msb_eq_bit31]

theorem addFlags_flagsAre_signs :
    FlagsAre (addFlags a b).2 (addFlags a b).1 (2 ^ 32 ≤ a.toNat + b.toNat)
      (a.getLsbD 31 = b.getLsbD 31 ∧ (addFlags a b).1.getLsbD 31 ≠ a.getLsbD 31) :=
  resultFlags_flagsAre _ decide_eq_true_iff
    (by simp only [← msb_eq_bit31, Bool.and_eq_true, beq_iff_eq, bne_iff_ne]; rfl)

theorem addFlags_flagsAre :
    FlagsAre (addFlags a b).2 (addFlags a b).1 (2 ^ 32 ≤ a.toNat + b.toNat) (OutOfRange (a.toInt + b.toInt)) := by
  refine (addFlags_flagsAre_signs a b).congr_ovf ?_
  rw [addFlags_fst]
  exact (outOfRange_add_iff_signs a b).symm

/-! ## Subtraction (R132) -/

/-- A signed difference does not fit exactly when different signs give the subtrahend's. -/
theorem outOfRange_sub_iff_signs :
    OutOfRange (a.toInt - b.toInt) ↔ a.getLsbD 31 ≠ b.getLsbD 31 ∧ (a - b).getLsbD 31 ≠ a.getLsbD 31 := by
  rw [outOfRange_sub_iff, BitVec.ssubOverflow_eq]
  simp only [← msb_eq_bit31]
  cases a.msb <;> cases b.msb <;> simp

theorem subFlags_flagsAre :
    FlagsAre (subFlags a b).2 (subFlags a b).1 (b.toNat ≤ a.toNat) (OutOfRange (a.toInt - b.toInt)) := by
  rw [subFlags_fst]
  exact subFlags_snd a b

theorem subFlags_flagsAre_signs :
    FlagsAre (subFlags a b).2 (subFlags a b).1 (b.toNat ≤ a.toNat)
      (a.getLsbD 31 ≠ b.getLsbD 31 ∧ (subFlags a b).1.getLsbD 31 ≠ a.getLsbD 31) := by
  refine (subFlags_flagsAre a b).congr_ovf ?_
  rw [subFlags_fst]
  exact outOfRange_sub_iff_signs a b

theorem subFlags_toNat : ((subFlags a b).1.toNat : Int) = ((a.toNat : Int) - b.toNat) % 2 ^ 32 :=
  toNat_ofInt_eq_emod _

/-- No borrow is the carry out of the sum with the complement. -/
theorem le_iff_carry_of_complement : b.toNat ≤ a.toNat ↔ 2 ^ 32 ≤ a.toNat + (~~~b).toNat + 1 := by
  rw [BitVec.toNat_not]
  omega

/-! ## Multiplication (R133) -/

theorem mulFlags_toNat : (mulFlags a b).1.toNat = a.toNat * b.toNat % 2 ^ 32 := BitVec.toNat_ofNat _ _

theorem mulFlags_fst : (mulFlags a b).1 = a * b :=
  BitVec.eq_of_toNat_eq ((mulFlags_toNat a b).trans (BitVec.toNat_mul a b).symm)

theorem mulFlags_flagsAre :
    FlagsAre (mulFlags a b).2 (mulFlags a b).1 (2 ^ 32 ≤ a.toNat * b.toNat) (OutOfRange (a.toInt * b.toInt)) :=
  resultFlags_flagsAre _ decide_eq_true_iff (by simp [OutOfRange])

/-- The low half of the product does not depend on how the operands are read. -/
theorem mulFlags_toNat_signed : ((mulFlags a b).1.toNat : Int) = a.toInt * b.toInt % 2 ^ 32 := by
  have hsigned : (mulFlags a b).1 = BitVec.ofInt 32 (a.toInt * b.toInt) := by
    rw [mulFlags_fst, BitVec.ofInt_mul, BitVec.ofInt_toInt, BitVec.ofInt_toInt]
  rw [hsigned, toNat_ofInt_eq_emod]

end

/-- Settles O14: each flag function against its rule. -/
theorem flagFunctionsFollowTheRules : Obligations.FlagFunctionsFollowTheRules := by
  intro a b
  obtain ⟨-, -, -, haddOvf⟩ := addFlags_flagsAre a b
  obtain ⟨-, -, hnoBorrow, hsubOvf⟩ := subFlags_flagsAre a b
  exact ⟨⟨addFlags_toNat a b, addFlags_flagsAre_signs a b, haddOvf⟩,
    ⟨subFlags_toNat a b, subFlags_flagsAre_signs a b, hnoBorrow.trans (le_iff_carry_of_complement a b), hsubOvf⟩,
    ⟨mulFlags_toNat a b, mulFlags_toNat_signed a b, mulFlags_flagsAre a b⟩⟩

end Sys2Proof.Machine
end

section
/-!
PROOFS. Division rounded toward zero (40_arithmetic_compare.md R134).
-/
namespace Sys2Proof.Machine

/-- Lean's `tdiv` and `tmod` are the quotient and the remainder of R134. -/
theorem isDivMod_tdiv_tmod (a : Int) {b : Int} (hb : b ≠ 0) : IsDivMod a b (a.tdiv b) (a.tmod b) := by
  refine ⟨(Int.mul_tdiv_add_tmod a b).symm, ?_, ?_⟩
  · rw [Int.abs_eq_natAbs, Int.abs_eq_natAbs, Int.natAbs_tmod]
    exact_mod_cast Nat.mod_lt _ (Int.natAbs_pos.2 hb)
  · have hsign := Int.sign_tmod a b
    split at hsign
    · exact .inl (Int.sign_eq_zero_iff_zero.1 hsign)
    · right
      rw [← Int.sign_eq_neg_one_iff_neg, hsign, Int.sign_eq_neg_one_iff_neg]

theorem toInt_ne_zero {b : Word} (hb : b ≠ 0) : b.toInt ≠ 0 := fun h => hb (BitVec.toInt_inj.1 h)

section
variable (a b : Word)

/-- The only quotient of two words that does not fit is -2^31 / -1. -/
theorem tdiv_eq_two_pow_31_iff : a.toInt.tdiv b.toInt = 2 ^ 31 ↔ a = 0x80000000 ∧ b = 0xFFFFFFFF := by
  constructor
  · intro hq
    by_contra hne
    have hfits := BitVec.toInt_sdiv_of_ne_or_ne a b (not_and_or.1 hne)
    have hlt := BitVec.toInt_lt (x := a.sdiv b)
    omega
  · rintro ⟨rfl, rfl⟩
    decide

theorem ofInt_tdiv : BitVec.ofInt 32 (a.toInt.tdiv b.toInt) = a.sdiv b :=
  BitVec.toInt_inj.1 (by rw [BitVec.toInt_ofInt, BitVec.toInt_sdiv])

theorem ofInt_tmod : BitVec.ofInt 32 (a.toInt.tmod b.toInt) = a.srem b := by
  rw [← BitVec.toInt_srem, BitVec.ofInt_toInt]

/-- The identity of R143. -/
theorem sdiv_mul_add_srem : a.sdiv b * b + a.srem b = a :=
  calc a.sdiv b * b + a.srem b
      = BitVec.ofInt 32 (b.toInt * a.toInt.tdiv b.toInt + a.toInt.tmod b.toInt) := by
        rw [BitVec.ofInt_add, BitVec.ofInt_mul, BitVec.ofInt_toInt, ofInt_tdiv, ofInt_tmod, BitVec.mul_comm]
    _ = a := by rw [Int.mul_tdiv_add_tmod, BitVec.ofInt_toInt]

variable {b}

theorem divFlags_of_ne_zero (hb : b ≠ 0) :
    divFlags a b = some (a.sdiv b, resultFlags (a.sdiv b) false (decide (a.toInt.tdiv b.toInt = 2 ^ 31))) := by
  rw [← ofInt_tdiv]
  exact if_neg hb

theorem modFlags_of_ne_zero (hb : b ≠ 0) :
    modFlags a b = some (a.srem b, resultFlags (a.srem b) false false) := by
  rw [← ofInt_tmod, Int.tmod_def]
  exact if_neg hb

end

end Sys2Proof.Machine
end

section
/-!
PROOFS. The arithmetic and compare instructions (40_arithmetic_compare.md R135 to R146): each hands the answer of its
flag function to `State.writeArith`, `State.writeCompare` or `State.writeDivision`.
-/
namespace Sys2Proof.Machine

section
variable (s : State) (rd : Reg) (a b : Word)

/-! ## How arithmetic completes -/

/-- An arithmetic instruction writes its register and its flags and nothing else. -/
theorem State.writeArith_wrote (r : Word × Flags) : Wrote s (s.writeArith rd r) (some rd) r.1 :=
  have h := s.setReg_nextPc_wrote rd r.1
  { regs := h.regs, pc := h.pc, memory := h.memory, status := h.status, hidden := h.hidden }

/-- A compare writes no register: its result is discarded. -/
theorem State.writeCompare_wrote (r : Word × Flags) (v : Word) : Wrote s (s.writeCompare r) none v where
  regs _ := by simp [State.writeCompare]
  pc := rfl
  memory := ⟨fun _ => rfl, rfl⟩
  status := rfl
  hidden := ⟨rfl, rfl, rfl⟩

/-! ## Sum, difference and product -/

theorem State.writeArith_added : Added s (s.writeArith rd (addFlags a b)) rd a b :=
  ⟨_, addFlags_toNat a b, s.writeArith_wrote rd _, addFlags_flagsAre a b⟩

theorem State.writeArith_subtracted : Subtracted s (s.writeArith rd (subFlags a b)) (some rd) a b :=
  ⟨_, subFlags_toNat a b, s.writeArith_wrote rd _, subFlags_flagsAre a b⟩

theorem State.writeCompare_subtracted : Subtracted s (s.writeCompare (subFlags a b)) none a b :=
  ⟨_, subFlags_toNat a b, s.writeCompare_wrote _ _, subFlags_flagsAre a b⟩

theorem State.writeArith_multiplied : Multiplied s (s.writeArith rd (mulFlags a b)) rd a b :=
  ⟨_, mulFlags_toNat a b, mulFlags_toNat_signed a b, s.writeArith_wrote rd _, mulFlags_flagsAre a b⟩

/-! ## Divisions -/

/-- A division whose `DivMod` answers is an arithmetic instruction. -/
theorem State.writeDivision_some (i : Instr) (r : Word × Flags) : s.writeDivision i rd (some r) = s.writeArith rd r :=
  rfl

/-- A division whose `DivMod` does not answer takes the fault. -/
theorem State.writeDivision_faultTaken (i : Instr) {r : Option (Word × Flags)} (h : r = none) :
    FaultTaken s (s.writeDivision i rd r)
      { kind := .arithmeticFault, pc := s.pc, word := some (encode i), addr := none } := by
  subst h
  exact s.raise_faultTaken ..

variable {b}

theorem State.writeDivision_divided (i : Instr) (hb : b ≠ 0) :
    Divided s (s.writeDivision i rd (divFlags a b)) rd a b := by
  rw [divFlags_of_ne_zero a hb]
  refine ⟨_, _, _, isDivMod_tdiv_tmod a.toInt (toInt_ne_zero hb), ?_, s.writeArith_wrote rd _,
    resultFlags_flagsAre _ (by simp) (decide_eq_true_iff.trans (tdiv_eq_two_pow_31_iff a b))⟩
  rw [← ofInt_tdiv, toNat_ofInt_eq_emod]

theorem State.writeDivision_reduced (i : Instr) (hb : b ≠ 0) :
    Reduced s (s.writeDivision i rd (modFlags a b)) rd a b := by
  rw [modFlags_of_ne_zero a hb]
  exact ⟨_, _, _, isDivMod_tdiv_tmod a.toInt (toInt_ne_zero hb), BitVec.toInt_srem a b, s.writeArith_wrote rd _,
    resultFlags_flagsAre _ (by simp) (by simp)⟩

/-- The immediate of an instruction word is a zero operand only if it is zero (R142, R144). -/
theorem immOperand_ne_zero {imm : Int} (hok : imm15Ok imm = true) (hne : imm ≠ 0) : immOperand imm ≠ 0 := by
  simp only [imm15Ok, Bool.and_eq_true, decide_eq_true_eq] at hok
  intro h
  have hnat := congrArg BitVec.toNat h
  simp only [immOperand, BitVec.toNat_ofInt, show (0 : Word).toNat = 0 from rfl] at hnat
  omega

end

/-- Settles O11: both forms complete by `State.writeArith`. -/
theorem addWritesSumAndFlags : Obligations.AddWritesSumAndFlags :=
  fun rd _ _ _ s => ⟨⟨_, rfl, s.writeArith_added rd _ _⟩, ⟨_, rfl, s.writeArith_added rd _ _⟩⟩

/-- Settles O12: both forms complete by `State.writeArith`. -/
theorem subWritesDifferenceAndFlags : Obligations.SubWritesDifferenceAndFlags :=
  fun rd _ _ _ s => ⟨⟨_, rfl, s.writeArith_subtracted rd _ _⟩, ⟨_, rfl, s.writeArith_subtracted rd _ _⟩⟩

/-- Settles O13: both forms complete by `State.writeArith`. -/
theorem mulWritesLowProductAndFlags : Obligations.MulWritesLowProductAndFlags :=
  fun rd _ _ _ s => ⟨⟨_, rfl, s.writeArith_multiplied rd _ _⟩, ⟨_, rfl, s.writeArith_multiplied rd _ _⟩⟩

/-- Settles O18: a compare is the subtraction without its register, and register 0 discards the result (R21). -/
theorem compareWritesOnlyFlags : Obligations.CompareWritesOnlyFlags :=
  fun _ _ _ s => ⟨⟨_, rfl, s.writeCompare_subtracted _ _⟩, ⟨_, rfl, s.writeCompare_subtracted _ _⟩, rfl⟩

/-- Settles O15: the divisor is not zero, in the immediate forms by the range of the immediate. -/
theorem divisionRoundsTowardZero : Obligations.DivisionRoundsTowardZero := by
  refine ⟨fun rd rs1 rs2 s hb => ?_, fun rd rs1 imm s hok hne => ?_⟩
  · exact ⟨⟨_, rfl, s.writeDivision_divided rd _ _ hb⟩, ⟨_, rfl, s.writeDivision_reduced rd _ _ hb⟩⟩
  · have hb := immOperand_ne_zero hok hne
    exact ⟨⟨_, rfl, s.writeDivision_divided rd _ _ hb⟩, ⟨_, rfl, s.writeDivision_reduced rd _ _ hb⟩⟩

/-- Settles O17: the identity of the two results, which a register other than 0 holds. -/
theorem quotientAndRemainderIdentity : Obligations.QuotientAndRemainderIdentity := by
  intro rd rs1 rs2 s hrd hb
  refine ⟨_, _, rfl, rfl, ?_⟩
  rw [divFlags_of_ne_zero _ hb, modFlags_of_ne_zero _ hb, State.writeDivision_some, State.writeDivision_some,
    (s.writeArith_wrote rd _).regs, (s.writeArith_wrote rd _).regs, if_pos ⟨hrd, rfl⟩, if_pos ⟨hrd, rfl⟩]
  exact (sdiv_mul_add_srem _ _).symm

/-- Settles O16: `DivMod` does not answer for a zero divisor. -/
theorem zeroDivisorFaults : Obligations.ZeroDivisorFaults := by
  refine ⟨fun rd rs1 rs2 s hb => ?_, fun rd rs1 s => ?_⟩
  · exact ⟨⟨_, rfl, s.writeDivision_faultTaken rd _ (divFlags_eq_none.2 hb)⟩,
      ⟨_, rfl, s.writeDivision_faultTaken rd _ (modFlags_eq_none.2 hb)⟩⟩
  · have hb : immOperand 0 = 0 := rfl
    exact ⟨⟨_, rfl, s.writeDivision_faultTaken rd _ (divFlags_eq_none.2 hb)⟩,
      ⟨_, rfl, s.writeDivision_faultTaken rd _ (modFlags_eq_none.2 hb)⟩⟩

end Sys2Proof.Machine
end

section
/-!
PROOFS. The logic and shift instructions (41_logic_shift.md R160 to R173): each hands its word to `State.writeLogic`.
-/
namespace Sys2Proof.Machine

/-! ## Shifts (R167 to R173) -/

/-- The amount of an immediate shift depends on the immediate modulo 32 alone, however it is extended (R167). -/
theorem shiftAmount_immOperand (imm : Int) : shiftAmount (immOperand imm) = (imm % 32).toNat := by
  have himm : ((immOperand imm).toNat : Int) = imm % 2 ^ 32 := toNat_ofInt_eq_emod imm
  rw [shiftAmount]
  omega

section
variable (a b : Word)

theorem shiftLeft_eq : shiftLeft a b = a <<< shiftAmount b := by
  apply BitVec.eq_of_toNat_eq
  rw [shiftLeft, BitVec.toNat_ofNat, BitVec.toNat_shiftLeft, Nat.shiftLeft_eq]

theorem shiftRight_eq : shiftRight a b = a >>> shiftAmount b := by
  rw [shiftRight, ← Nat.shiftRight_eq_div_pow, ← BitVec.toNat_ushiftRight, BitVec.ofNat_toNat, BitVec.setWidth_eq]

theorem shiftRightArith_eq : shiftRightArith a b = a.sshiftRight (shiftAmount b) := by
  rw [shiftRightArith, BitVec.sshiftRight, Int.shiftRight_eq_div_pow, Nat.cast_pow, Nat.cast_ofNat]

/-- Bits move up, and zeros enter from below. -/
theorem getLsbD_shiftLeft {k : Nat} (hk : k < 32) :
    (shiftLeft a b).getLsbD k = (decide (shiftAmount b ≤ k) && a.getLsbD (k - shiftAmount b)) := by
  rw [shiftLeft_eq, BitVec.getLsbD_shiftLeft]
  simp [hk, ← decide_not]

/-- Bits move down; past bit 31 a word reads 0, so zeros enter from above. -/
theorem getLsbD_shiftRight (k : Nat) : (shiftRight a b).getLsbD k = a.getLsbD (k + shiftAmount b) := by
  rw [shiftRight_eq, BitVec.getLsbD_ushiftRight, Nat.add_comm]

/-- Bits move down, and copies of bit 31 enter from above. -/
theorem getLsbD_shiftRightArith {k : Nat} (hk : k < 32) :
    (shiftRightArith a b).getLsbD k
      = if k + shiftAmount b < 32 then a.getLsbD (k + shiftAmount b) else a.getLsbD 31 := by
  rw [shiftRightArith_eq, BitVec.getLsbD_sshiftRight, msb_eq_bit31, Nat.add_comm]
  simp [hk]

end

/-! ## How a logic or shift instruction completes -/

/-- A logic or shift instruction writes the bits of its word, and neither a flag nor anything else (R160). -/
theorem State.writeLogic_wroteBits (s : State) (rd : Reg) {r : Word} {bit : Nat → Bool}
    (hbits : ∀ k, k < 32 → r.getLsbD k = bit k) : WroteBits s (s.writeLogic rd r) rd bit :=
  ⟨r, hbits, s.setReg_nextPc_wrote rd r, s.setReg_flags rd r⟩

section
variable (s : State) (rd : Reg) (a b : Word)

theorem State.writeLogic_and :
    WroteBits s (s.writeLogic rd (a &&& b)) rd fun k => a.getLsbD k && b.getLsbD k :=
  s.writeLogic_wroteBits rd fun _ _ => BitVec.getLsbD_and

theorem State.writeLogic_or :
    WroteBits s (s.writeLogic rd (a ||| b)) rd fun k => a.getLsbD k || b.getLsbD k :=
  s.writeLogic_wroteBits rd fun _ _ => BitVec.getLsbD_or

theorem State.writeLogic_xor :
    WroteBits s (s.writeLogic rd (a ^^^ b)) rd fun k => a.getLsbD k != b.getLsbD k :=
  s.writeLogic_wroteBits rd fun _ _ => BitVec.getLsbD_xor

variable {b} {m : Nat}

theorem State.writeLogic_shiftLeft (hm : shiftAmount b = m) :
    WroteBits s (s.writeLogic rd (shiftLeft a b)) rd fun k => decide (m ≤ k) && a.getLsbD (k - m) :=
  s.writeLogic_wroteBits rd fun _ hk => hm ▸ getLsbD_shiftLeft a b hk

theorem State.writeLogic_shiftRight (hm : shiftAmount b = m) :
    WroteBits s (s.writeLogic rd (shiftRight a b)) rd fun k => a.getLsbD (k + m) :=
  s.writeLogic_wroteBits rd fun k _ => hm ▸ getLsbD_shiftRight a b k

theorem State.writeLogic_shiftRightArith (hm : shiftAmount b = m) :
    WroteBits s (s.writeLogic rd (shiftRightArith a b)) rd fun k =>
      if k + m < 32 then a.getLsbD (k + m) else a.getLsbD 31 :=
  s.writeLogic_wroteBits rd fun _ hk => hm ▸ getLsbD_shiftRightArith a b hk

end

/-- Settles O21: the register forms shift by the register modulo 32, the immediate forms by the immediate modulo 32. -/
theorem shiftsMoveBitsModulo32 : Obligations.ShiftsMoveBitsModulo32 := by
  intro rd rs1 rs2 imm s x m j
  have hreg : shiftAmount (s.reg rs2) = m := rfl
  have himm : shiftAmount (immOperand imm) = j := shiftAmount_immOperand imm
  exact
    ⟨⟨_, rfl, s.writeLogic_shiftLeft rd x hreg⟩,
      ⟨_, rfl, s.writeLogic_shiftLeft rd x himm⟩,
      ⟨_, rfl, s.writeLogic_shiftRight rd x hreg⟩,
      ⟨_, rfl, s.writeLogic_shiftRight rd x himm⟩,
      ⟨_, rfl, s.writeLogic_shiftRightArith rd x hreg⟩,
      ⟨_, rfl, s.writeLogic_shiftRightArith rd x himm⟩⟩

/-- Settles O20: a register operand and the sign-extended immediate enter the same bit operation. -/
theorem logicWorksBitByBit : Obligations.LogicWorksBitByBit :=
  fun rd _ _ _ s =>
    ⟨⟨_, rfl, s.writeLogic_and rd _ _⟩, ⟨_, rfl, s.writeLogic_and rd _ _⟩,
      ⟨_, rfl, s.writeLogic_or rd _ _⟩, ⟨_, rfl, s.writeLogic_or rd _ _⟩,
      ⟨_, rfl, s.writeLogic_xor rd _ _⟩, ⟨_, rfl, s.writeLogic_xor rd _ _⟩⟩

end Sys2Proof.Machine
end

section
/-!
PROOFS. The effective address of a load or store (42_load_store.md R180), as the integer it stands for.
-/
namespace Sys2Proof.Machine

/-- Settles O22: the offset is wrapped as an operand and the sum as a word, and wrapping the offset first changes
nothing. -/
theorem effectiveAddressWraps : Obligations.EffectiveAddressWraps := fun base off =>
  calc ((base + immOperand off).toNat : Int)
    _ = ((base.toNat : Int) + (immOperand off).toNat) % 2 ^ 32 := congrArg Nat.cast (BitVec.toNat_add base _)
    _ = ((base.toNat : Int) + off % 2 ^ 32) % 2 ^ 32 := by rw [immOperand, toNat_ofInt_eq_emod]
    _ = ((base.toNat : Int) + off) % 2 ^ 32 := Int.add_emod_emod _ _ _

end Sys2Proof.Machine
end

section
/-!
PROOFS. Calls, register jumps, `NOP` and `HALT` (43_control_flow.md R207 to R210): what each completes with, and the
fetch fault of a jump to a misaligned address (R208, R223).
-/
namespace Sys2Proof.Machine

/-! ## What each instruction completes with -/

section
variable (s : State)

theorem exec_bl (off : Int) : exec (.bl off) s = .next ((s.setReg 31 (s.pc + 4)).setPc (branchTarget s.pc off)) := rfl

theorem exec_jr (rs : Reg) : exec (.jr rs) s = .next (s.setPc (s.reg rs)) := rfl

theorem exec_nop : exec .nop s = .next (s.setPc (s.pc + 4)) := rfl

theorem exec_halt : exec .halt s = .next s.halt := rfl

end

/-- Settles O29: `BL` is a register write and a jump, which leave each other's part alone; `JR` is a jump. -/
theorem callAndRegisterJump : Obligations.CallAndRegisterJump := by
  refine fun off rs s => ⟨⟨_, exec_bl s off, ?link, ?others, branchTarget_toNat s.pc off, ?flags, ?memory, ?status,
    ?hidden⟩, _, exec_jr s rs, s.setPc_jumped _⟩
  case link => exact s.reg_setReg_same 31 (s.pc + 4) (by decide)
  case others => exact fun q hq => s.reg_setReg_other 31 q (s.pc + 4) hq
  case flags => exact s.setReg_flags 31 (s.pc + 4)
  case memory => simp [SameMemory]
  case status => exact s.setReg_status 31 (s.pc + 4)
  case hidden => simp [SameHidden]

/-- Settles O30: `NOP` is a jump to the next instruction, and `HALT` sets the status. -/
theorem nopAndHalt : Obligations.NopAndHalt := by
  refine fun s => ⟨⟨_, exec_nop s, s.setPc_jumped _⟩, _, exec_halt s, rfl, s.halt_pc, ?regs, s.halt_flags, ?memory,
    ?hidden⟩
  case regs => exact s.halt_reg
  case memory => simp [SameMemory]
  case hidden => simp [SameHidden]

/-- Settles O31: the `JR` only moves the `pc`, so the machine still runs and the next fetch is misaligned. -/
theorem jumpToMisalignedFaultsAtTheFetch : Obligations.JumpToMisalignedFaultsAtTheFetch := by
  intro rs s hrun hmis
  have hjump := s.setPc_jumped (s.reg rs)
  have hrun' := hjump.status.trans hrun
  obtain ⟨u, hstep, hfault⟩ := (fetchAndDecodeFaults _ hrun').1 hmis
  exact ⟨_, u, exec_jr s rs, hrun', hstep, hfault⟩

end Sys2Proof.Machine
end

section
/-!
PROOFS. The faults of the ISA level (60_exceptions.md R220 to R228): every instruction answers a next state, and the
causes for which an instruction raises a fault, each read off the effect of that instruction.
-/
namespace Sys2Proof.Machine

/-! ## Every step answers a next state (R227, R228) -/

/-- Settles O10: a terminal state, a fetch fault and an illegal word give a next state, and an instruction gives the
state its effect makes. -/
theorem everyStepAnswersNext : Obligations.EveryStepAnswersNext := by
  intro s
  refine ⟨?_, fun i => ⟨_, exec_eq_effect i s⟩⟩
  rcases step_cases s with ⟨-, e⟩ | ⟨f, -, -, e⟩ | ⟨-, -, -, e⟩ | ⟨i, -, -, -, e⟩ <;> exact ⟨_, e⟩

/-! ## The operands of the instructions that can fault -/

section
variable {i : Instr}

/-- A load or store has a base register and an offset (R180). -/
theorem operands_of_memOp {k : MemKind} {n : Width} (h : memOp i = some (k, n)) :
    ∃ a off, i.srcA = some a ∧ i.immWord = some off := by
  cases i
  case ldr | ldrb | str | strb => exact ⟨_, _, rfl, rfl⟩
  all_goals cases h

/-- `ALU` answers none only for a division whose divisor, the second source or the immediate, is zero (R224). -/
theorem zero_divisor_of_alu_eq_none {s : State} {a : Word}
    (h : alu i a (if i.srcB.isSome then s.readSrc i.srcB else i.immWord.getD 0) = none) :
    isDivision i = true ∧ (i.srcB.map s.reg).or i.immWord = some 0 := by
  rcases alu_eq_none h with ⟨h0, _, _, _, rfl⟩ | ⟨h0, _, _, _, rfl⟩ | ⟨h0, _, _, _, rfl⟩ |
    ⟨h0, _, _, _, rfl⟩ <;> exact ⟨rfl, congrArg some h0⟩

end

/-! ## The causes of a fault in execution (R222 to R224) -/

/-- The fault `k` with offending address `addr` has a cause in the operands of `i`: a zero divisor, or a data access
that fails its checks. -/
def FaultCause (s : State) (i : Instr) (k : Fault) (addr : Option Word) : Prop :=
  (k = .arithmeticFault ∧ addr = none ∧ isDivision i = true ∧ (i.srcB.map s.reg).or i.immWord = some 0)
  ∨ ∃ (op : MemKind) (n : Width) (a : Reg) (off : Word), memOp i = some (op, n) ∧ i.srcA = some a
    ∧ i.immWord = some off ∧ addr = some (s.reg a + off) ∧ accessFault s.cfg (s.reg a + off) n = some k

/-- An effect that is a fault has its cause in the operands. -/
theorem State.faultCause_of_effect {s : State} {i : Instr} {k : Fault} {addr : Option Word}
    (h : s.effect i = .fault k addr) : FaultCause s i k addr := by
  unfold State.effect at h
  rcases hop : memOp i with _ | ⟨op, n⟩ <;> simp only [hop] at h
  · by_cases hh : i = .halt
    · rw [if_pos hh] at h; cases h
    · rw [if_neg hh] at h
      cases halu : alu i (s.readSrc i.srcA) (if i.srcB.isSome then s.readSrc i.srcB else i.immWord.getD 0) with
      | none =>
        rw [halu] at h
        cases h
        exact .inl ⟨rfl, rfl, zero_divisor_of_alu_eq_none halu⟩
      | some r => rw [halu] at h; cases h
  · obtain ⟨a, off, ha, hoff⟩ := operands_of_memOp hop
    simp only [ha, hoff, State.readSrc, Option.getD_some] at h
    rcases s.memEffect_cases op n (s.reg a + off) (s.readSrc i.srcB) with
      ⟨f, hf, e⟩ | ⟨-, -, e⟩ | ⟨-, -, e⟩ <;> cases e.symm.trans h
    exact .inr ⟨op, n, a, off, hop, ha, hoff, rfl, hf⟩

/-- A running machine ends up faulted only by an effect that raises a fault (R225, R227). -/
theorem Effect.eq_fault_of_status {e : Effect} {i : Instr} {s : State} {d : FaultDetail} (hrun : s.status = .running)
    (h : (e.apply i s).status = .faulted d) :
    ∃ k addr, e = .fault k addr ∧ d = { kind := k, pc := s.pc, word := some (encode i), addr := addr } := by
  cases e with
  | complete v f target => rw [Effect.complete_apply_status, hrun] at h; cases h
  | store a n v => exact nomatch hrun.symm.trans h
  | fault k addr => cases h; exact ⟨k, addr, rfl, rfl⟩
  | halt => cases h

/-- Settles O35: the effect was a fault, and its cause is a zero divisor or one of the two failed checks. -/
theorem onlyTheListedFaults : Obligations.OnlyTheListedFaults := by
  intro i s t d hrun hexec hstatus
  obtain rfl := exec_eq_next_iff.1 hexec
  obtain ⟨k, addr, he, rfl⟩ := Effect.eq_fault_of_status hrun hstatus
  rw [he]
  refine ⟨s.raise_faultTaken k (some (encode i)) addr, rfl, rfl, ?_⟩
  rcases State.faultCause_of_effect he with hzero | ⟨op, n, a, off, hop, ha, hoff, haddr, hf⟩
  · exact .inl hzero
  · refine .inr ⟨op, n, a, off, hop, ha, hoff, haddr, ?_⟩
    rcases accessFault_eq_some.1 hf with ⟨hn, hmis, rfl⟩ | ⟨hnot, hout, rfl⟩
    · exact .inl ⟨rfl, hn, hmis⟩
    · exact .inr ⟨rfl, fun hn => not_not.1 fun hmis => hnot ⟨hn, hmis⟩, hout⟩

end Sys2Proof.Machine
end

section
/-!
PROOFS. The cycle in which the Memory stage finds a fault (70_reset_and_hazards.md R258, R267): the younger stages are
squashed, so every latch is empty after it and the fault is reported in the same cycle.
-/
namespace Sys2Proof.Machine

section
variable {s : State} {d : FaultDetail}

/-! ## The stages of the cycle -/

/-- A load or store that fails its checks makes no access (R258). -/
theorem State.memOut_of_accessFault {x : XM} {k : MemKind} {n : Width} {f : Fault} (hx : s.pipe.xm = some x)
    (hop : memOp x.d = some (k, n)) (hf : accessFault s.cfg x.result n = some f) :
    s.memOut = { next := s.writeBack, mw := none,
                 fault := some { kind := f, pc := x.pc, word := some x.word, addr := some x.result } } := by
  simp [State.memOut, State.memStage, hx, hop, hf]

/-- Execute does nothing in a cycle in which the Memory stage finds a fault (R260, R267). -/
theorem State.execOut_of_memFault (h : s.memOut.fault = some d) : s.execOut = ExecOut.idle := by
  rcases s.pipe.execStage_cases s.flags s.memOut.fault.isSome with ⟨-, e⟩ | ⟨y, -, hnone, -⟩
  · exact e
  · rw [h] at hnone; cases hnone

theorem State.squashes_of_memFault (h : s.memOut.fault = some d) : s.squashes = true := by
  simp [State.squashes, h]

/-- A squashed Fetch stage leaves the machine as the Memory stage made it. -/
theorem State.fetchOut_next_of_squashes (h : s.squashes = true) : s.fetchOut.next = s.memOut.next := by
  simp [State.fetchOut, State.fetchStage, h]

/-- A fault of the Memory stage replaces the pending one, which is younger (R267). -/
theorem State.nextPipe_pending_of_memFault (h : s.memOut.fault = some d) : s.nextPipe.pendingFault = some d := by
  simp [State.nextPipe, State.newFault, h]

/-- The faulting entry does not go on to `MW`, and every younger entry is squashed. -/
theorem State.latchesEmpty_of_memFault (h : s.memOut.fault = some d) (hmw : s.memOut.mw = none) :
    LatchesEmpty s.advanced :=
  have hsq := State.squashes_of_memFault h
  ⟨State.fetchOut_of_squashed (.inl hsq), congrArg DecodeOut.dx (State.decodeOut_of_squashes hsq),
    congrArg ExecOut.xm (State.execOut_of_memFault h), hmw⟩

/-! ## The report -/

/-- A pending fault of a running machine is reported once every latch is empty (R267). -/
theorem State.reportFault_of_latchesEmpty (hd : s.pipe.pendingFault = some d) (hrun : s.status = .running)
    (hempty : LatchesEmpty s) : s.reportFault = { s with status := .faulted d } := by
  obtain ⟨hfd, hdx, hxm, hmw⟩ := hempty
  simp [State.reportFault, hd, hrun, hfd, hdx, hxm, hmw]

/-- No `HALT` is in `MW` while an entry stands in `XM` (R268). -/
theorem PipeInv.mw_not_halt (h : PipeInv s) {x : XM} (hx : s.pipe.xm = some x) :
    s.pipe.mw.any MW.halt = false := by
  cases hm : s.pipe.mw with
  | none => rfl
  | some m =>
    refine Bool.eq_false_iff.2 fun hhalt => ?_
    obtain ⟨hnone, -, -⟩ := h.haltInMW m hm ((h.mwHalt m hm).1 hhalt)
    cases hnone.symm.trans hx

/-- The whole cycle: WriteBack commits, the latches are emptied and the fault is reported. -/
theorem State.advance_of_memFault (hinv : PipeInv s) (hrun : s.status = .running) {x : XM} (hx : s.pipe.xm = some x)
    (hout : s.memOut = { next := s.writeBack, mw := none, fault := some d }) :
    s.advance = { s.writeBack with pipe := s.nextPipe, status := .faulted d } := by
  have hfault : s.memOut.fault = some d := congrArg MemOut.fault hout
  have hrun' : s.advanced.status = .running := by
    rw [s.advanced_status, hinv.mw_not_halt hx, if_neg Bool.false_ne_true, hrun]
  have hempty := State.latchesEmpty_of_memFault hfault (congrArg MemOut.mw hout)
  have hnext : s.fetchOut.next = s.writeBack :=
    (State.fetchOut_next_of_squashes (State.squashes_of_memFault hfault)).trans (congrArg MemOut.next hout)
  rw [s.advance_eq, State.reportFault_of_latchesEmpty (State.nextPipe_pending_of_memFault hfault) hrun' hempty,
    State.advanced, hnext]

/-- A cycle whose access fails its checks is no wait cycle (R256). -/
theorem State.waits_of_accessFault {x : XM} {k : MemKind} {n : Width} {f : Fault} (hx : s.pipe.xm = some x)
    (hop : memOp x.d = some (k, n)) (hf : accessFault s.cfg x.result n = some f) : s.waits = false := by
  simp [State.waits, hx, hop, hf]

theorem clock_of_advance (hrun : s.status = .running) (hw : s.waits = false) : clock s = s.countCycle.advance := by
  simp [clock, hrun, hw]

end

/-- Settles O58: the cycle advances, and it is WriteBack with empty latches and the fault's status. -/
theorem memoryFaultIsReportedAtOnce : Obligations.MemoryFaultIsReportedAtOnce := by
  intro s x k n f hinv hrun hx hop hf
  have hout := State.memOut_of_accessFault (s := s.countCycle) hx hop hf
  have hempty := State.latchesEmpty_of_memFault (congrArg MemOut.fault hout) (congrArg MemOut.mw hout)
  rw [clock_of_advance hrun (State.waits_of_accessFault hx hop hf),
    State.advance_of_memFault hinv.countCycle hrun hx hout]
  refine ⟨rfl, hempty, s.countCycle.writeBack_mem, s.countCycle.writeBack_out, s.countCycle.writeBack_caches,
    fun r m hr hm hdest => ?_⟩
  have hmw : s.countCycle.pipe.mw = some m := hm
  calc s.countCycle.writeBack.reg r
    _ = if r ≠ 0 ∧ m.dest = some r then m.value else s.countCycle.reg r := by
      rw [State.writeBack_reg, hmw]; rfl
    _ = m.value := if_pos ⟨hr, hdest⟩

end Sys2Proof.Machine
end

section
/-!
PROOFS. What one cycle commits, and the control of an advance cycle: only WriteBack writes registers and flags
(70_reset_and_hazards.md R257, R270), a taken transfer squashes the two younger entries (R262), a load-use pair holds
Decode and Fetch (R264), and a `HALT` in WriteBack ends the run (R268).
-/
namespace Sys2Proof.Machine

section
variable (s : State)

/-! ## What an advance cycle commits (R257) -/

theorem State.reg_congr {s t : State} (h : t.regs = s.regs) (r : Reg) : t.reg r = s.reg r := by
  simp only [State.reg, h]

theorem State.advanced_reg (r : Reg) : s.advanced.reg r = s.writeBack.reg r := by
  obtain ⟨-, -, -, -, hregs⟩ := s.writeBack.memStage_next
  rw [s.advanced_eq]
  exact State.reg_congr hregs r

theorem State.advanced_flags : s.advanced.flags = s.writeBack.flags := by
  obtain ⟨-, -, hflags, -⟩ := s.writeBack.memStage_next
  rw [s.advanced_eq]
  exact hflags

@[simp] theorem State.reportFault_reg (r : Reg) : s.reportFault.reg r = s.reg r := by
  rw [s.reportFault_eq]; rfl

@[simp] theorem State.reportFault_flags : s.reportFault.flags = s.flags := by rw [s.reportFault_eq]

@[simp] theorem State.reportFault_pipe : s.reportFault.pipe = s.pipe := by rw [s.reportFault_eq]

theorem State.advance_reg (r : Reg) : s.advance.reg r = s.writeBack.reg r := by
  rw [s.advance_eq, State.reportFault_reg, s.advanced_reg]

theorem State.advance_flags : s.advance.flags = s.writeBack.flags := by
  rw [s.advance_eq, State.reportFault_flags, s.advanced_flags]

theorem State.advance_pipe : s.advance.pipe = s.nextPipe := by
  rw [s.advance_eq, State.reportFault_pipe, State.advanced]

/-- A fault is reported by a running machine only, so a terminal status stays. -/
theorem State.reportFault_of_terminal {s : State} (h : s.status ≠ .running) : s.reportFault = s := by
  rcases s.reportFault_cases with e | ⟨d, -, hrun, -⟩
  · exact e
  · exact absurd hrun h

theorem clock_of_wait {s : State} (hrun : s.status = .running) (hw : s.waits = true) :
    clock s = s.countCycle.waitCycle := by
  simp [clock, hrun, hw]

end

section
variable {s : State}

theorem State.writeBack_reg_other {r : Reg} (h : ∀ m, s.pipe.mw = some m → m.dest ≠ some r) :
    s.writeBack.reg r = s.reg r := by
  rw [State.writeBack_reg, if_neg]
  rintro ⟨-, hdest⟩
  obtain ⟨m, hm, hd⟩ := Option.bind_eq_some_iff.1 hdest
  exact h m hm hd

theorem State.writeBack_reg_dest {r : Reg} {m : MW} (hr : r ≠ 0) (hm : s.pipe.mw = some m) (hd : m.dest = some r) :
    s.writeBack.reg r = m.value := by
  simp [State.writeBack_reg, hr, hm, hd]

theorem State.writeBack_flags_of_some {m : MW} {f : Flags} (hm : s.pipe.mw = some m) (hf : m.flags = some f) :
    s.writeBack.flags = f := by
  simp [State.writeBack_flags, hm, hf]

theorem State.writeBack_flags_of_none (h : ∀ m, s.pipe.mw = some m → m.flags = none) :
    s.writeBack.flags = s.flags := by
  cases hm : s.pipe.mw with
  | none => simp [State.writeBack_flags, hm]
  | some m => simp [State.writeBack_flags, hm, h m hm]

end

/-- Settles O54: a wait cycle only counts, and an advance cycle writes registers and flags as WriteBack does. -/
theorem registersChangeOnlyInWriteBack : Obligations.RegistersChangeOnlyInWriteBack := by
  refine fun s hrun => ⟨fun hw => ?wait, fun hw => ?advance⟩
  case wait =>
    rw [clock_of_wait hrun hw]
    exact ⟨fun _ => rfl, rfl⟩
  case advance =>
    rw [clock_of_advance hrun hw]
    have hreg := s.countCycle.advance_reg
    have hflags := s.countCycle.advance_flags
    exact ⟨fun r h => (hreg r).trans (State.writeBack_reg_other (s := s.countCycle) h),
      fun r _ hr hm hd => (hreg r).trans (State.writeBack_reg_dest (s := s.countCycle) hr hm hd),
      fun _ _ hm hf => hflags.trans (State.writeBack_flags_of_some (s := s.countCycle) hm hf),
      fun h => hflags.trans (State.writeBack_flags_of_none (s := s.countCycle) h)⟩

section
variable {s : State}

/-! ## Execute without an older fault (R260, R262) -/

/-- A clean Memory stage finds no fault. -/
theorem State.memOut_fault_of_clean (h : MemoryStageClean s) : s.memOut.fault = none := by
  unfold State.memOut
  rcases s.writeBack.memStage_cases with ⟨-, e⟩ | ⟨_, -, -, e⟩ | ⟨x, k, n, f, hx, hop, hf, -⟩ | ⟨_, _, -, -, -, e⟩ |
    ⟨_, _, -, -, -, e⟩
  · rw [e]
  · rw [e]
  · rw [s.writeBack_pipe] at hx
    rw [s.writeBack_cfg, h x k n hx hop] at hf
    cases hf
  · rw [e]
  · rw [e]

/-- In a cycle without an older fault Execute works on the `DX` entry. -/
theorem State.execOut_of_dx {y : DX} (hm : s.memOut.fault = none) (hy : s.pipe.dx = some y) :
    s.execOut = s.pipe.execute s.flags y := by
  simp [State.execOut, Pipe.execStage, hm, hy]

/-- A division transfers no control (R262). -/
theorem redirect_of_isDivision {i : Instr} (h : isDivision i = true) (pc a : Word) (f : Flags) :
    redirect i pc a f = none := by
  cases i
  case div | divi | mod | modi => rfl
  all_goals cases h

/-- An instruction that transfers control is no division, so Execute hands it on. -/
theorem Pipe.execute_of_redirect {p : Pipe} {f : Flags} {y : DX} {target : Word}
    (h : redirect y.d y.pc (p.fwd y.d.srcA y.va) (p.fwdFlags f) = some target) :
    ∃ x, x.From y ∧ p.execute f y =
      { xm := some x, redirect := some target, stop := y.d == .halt, fault := none } := by
  rcases p.execute_cases f y with ⟨-, halu, -⟩ | ⟨x, hx, e⟩
  · cases (redirect_of_isDivision (isDivision_of_alu_eq_none halu) ..).symm.trans h
  · exact ⟨x, hx, h ▸ e⟩

/-- A load or store leaves Execute without a transfer, a stop or a fault. -/
theorem Pipe.execute_of_memOp (p : Pipe) (f : Flags) {y : DX} {k : MemKind} {n : Width}
    (h : memOp y.d = some (k, n)) :
    ∃ x, x.From y ∧ p.execute f y = { xm := some x, redirect := none, stop := false, fault := none } := by
  obtain ⟨hcls, hredirect⟩ : y.d.cls ≠ .a ∧ ∀ pc a f, redirect y.d pc a f = none := by
    cases hd : y.d
    case ldr | str | ldrb | strb => exact ⟨nofun, fun _ _ _ => rfl⟩
    all_goals rw [hd] at h; cases h
  obtain ⟨-, -, hhalt, -⟩ := memOp_eq_some h
  rcases p.execute_cases f y with ⟨ha, -⟩ | ⟨x, hx, e⟩
  · exact absurd ha hcls
  · rw [hredirect, beq_false_of_ne hhalt] at e
    exact ⟨x, hx, e⟩

theorem memOp_of_isLoad {i : Instr} (h : isLoad i = true) : ∃ n, memOp i = some (.load, n) := by
  cases i
  case ldr | ldrb => exact ⟨_, rfl⟩
  all_goals cases h

/-! ## Squashed and held cycles (R262, R264) -/

theorem State.fetchOut_fpc_of_squashes (h : s.squashes = true) :
    s.fetchOut.fpc = s.execOut.redirect.getD s.pipe.fpc := by
  simp [State.fetchOut, State.fetchStage, h]

/-- A stall of Decode holds the fetch latch and the fetch address, and nothing is fetched. -/
theorem State.fetchOut_of_stall (hsq : s.squashes = false)
    (hde : s.decodeOut = { DecodeOut.idle with stall := true }) :
    s.fetchOut = { next := s.memOut.next, fd := s.pipe.fd, fpc := s.pipe.fpc } := by
  simp [State.fetchOut, State.fetchStage, hsq, hde, DecodeOut.idle]

/-- Decode holds an entry that reads the destination of the load in Execute. -/
theorem State.decodeOut_of_loadUse {f : FD} {d : Instr} (hsq : s.squashes = false) (hf : s.pipe.fd = some f)
    (hff : f.ffault = none) (hd : decode f.word = some d) (hl : loadUse s.pipe.dx d = true) :
    s.decodeOut = { DecodeOut.idle with stall := true } := by
  simp [State.decodeOut, State.decodeStage, State.decodeEntry, hsq, hf, hff, hd, hl]

end

/-- Settles O55: Execute hands the transfer on, and its redirect squashes Decode and Fetch. -/
theorem takenTransferFlushes : Obligations.TakenTransferFlushes := by
  intro s y target hrun hw hclean hy hredirect
  have hm : s.countCycle.memOut.fault = none := State.memOut_fault_of_clean (s := s.countCycle) hclean
  obtain ⟨x, hfrom, he⟩ := Pipe.execute_of_redirect (p := s.countCycle.pipe) hredirect
  have hex := (State.execOut_of_dx (s := s.countCycle) hm hy).trans he
  have hsq : s.countCycle.squashes = true := by simp [State.squashes, hex]
  have hde := State.decodeOut_of_squashes hsq
  rw [clock_of_advance hrun hw, State.advance_pipe]
  refine ⟨?fpc, State.fetchOut_of_squashed (.inl hsq), congrArg DecodeOut.dx hde,
    ⟨x, congrArg ExecOut.xm hex, hfrom.d, hfrom.pc⟩, ?pending⟩
  case fpc => exact (State.fetchOut_fpc_of_squashes hsq).trans (by rw [hex]; rfl)
  case pending =>
    have hnew : s.countCycle.newFault = none := by simp [State.newFault, hm, hex, hde, DecodeOut.idle]
    exact congrArg (Option.or · s.pipe.pendingFault) hnew

/-- Settles O56: the load leaves Execute without squashing anything, and Decode stalls. -/
theorem loadUseStalls : Obligations.LoadUseStalls := by
  intro s y f d r hrun hw hclean hy hload hdest hf hff hd hsrc
  have hm : s.countCycle.memOut.fault = none := State.memOut_fault_of_clean (s := s.countCycle) hclean
  obtain ⟨n, hop⟩ := memOp_of_isLoad hload
  obtain ⟨x, hfrom, he⟩ := s.countCycle.pipe.execute_of_memOp s.countCycle.flags hop
  have hex := (State.execOut_of_dx (s := s.countCycle) hm hy).trans he
  have hsq : s.countCycle.squashes = false := by simp [State.squashes, hm, hex]
  have huse : loadUse s.pipe.dx d = true := by simpa [hy, loadUse, hload, hdest] using hsrc
  have hde := State.decodeOut_of_loadUse (s := s.countCycle) hsq hf hff hd huse
  have hfe := State.fetchOut_of_stall hsq hde
  rw [clock_of_advance hrun hw, State.advance_pipe]
  exact ⟨congrArg DecodeOut.dx hde, (congrArg FetchOut.fd hfe).trans hf, congrArg FetchOut.fpc hfe,
    x, congrArg ExecOut.xm hex, hfrom.d⟩

/-- A bubble in the Memory stage waits for nothing (R256). -/
theorem State.waits_of_bubble {s : State} (h : s.pipe.xm = none) : s.waits = false := by
  simp [State.waits, h]

/-- Settles O57: a `HALT` in `MW` is alone in the pipeline, so the cycle advances and leaves every latch empty. -/
theorem haltInWriteBackEndsTheRun : Obligations.HaltInWriteBackEndsTheRun := by
  intro s m hinv hrun hm hd
  obtain ⟨hxm, -⟩ := hinv.haltInMW m hm hd
  have hhalt : s.countCycle.advanced.status = .halted := by
    rw [State.advanced_status]
    show (if s.pipe.mw.any MW.halt then Status.halted else s.status) = .halted
    simp [hm, (hinv.mwHalt m hm).2 hd]
  have hterminal : s.countCycle.advanced.status ≠ .running := by rw [hhalt]; nofun
  obtain ⟨hfd, hdx, hxm', hmw, -⟩ := State.nextPipe_of_halted hinv.countCycle hrun hterminal
  rw [clock_of_advance hrun (State.waits_of_bubble hxm), State.advance_eq,
    State.reportFault_of_terminal hterminal]
  exact ⟨hhalt, hfd, hdx, hxm', hmw⟩

end Sys2Proof.Machine
end

section
/-!
PROOFS. The run of the ISA-level machine as the pipeline sees it (70_reset_and_hazards.md R272, R273): the next state,
the instruction about to run and what it does, where control goes on, and which code a store leaves alone.
-/
namespace Sys2Proof.Machine

/-! ## The next state -/

/-- The ISA-level machine one step on. -/
def State.stepped (a : State) : State := stepN 1 a

theorem step_eq_stepped (a : State) : step a = .next a.stepped := by
  obtain ⟨⟨t, ht⟩, -⟩ := everyStepAnswersNext a
  simp [State.stepped, stepN, ht]

theorem stepN_succ (k : Nat) (a : State) : stepN (k + 1) a = stepN k a.stepped := by
  rw [stepN, step_eq_stepped]

theorem stepN_succ_last (k : Nat) (a : State) : stepN (k + 1) a = (stepN k a).stepped := by
  induction k generalizing a with
  | zero => rfl
  | succ k ih => rw [stepN_succ, ih, ← stepN_succ]

theorem stepN_add (j k : Nat) (a : State) : stepN (j + k) a = stepN k (stepN j a) := by
  induction k with
  | zero => rfl
  | succ k ih => rw [← Nat.add_assoc, stepN_succ_last, stepN_succ_last, ih]

section
variable {a : State}

theorem State.stepped_eq_iff {t : State} : step a = .next t ↔ a.stepped = t := by
  rw [step_eq_stepped, Host.Outcome.next.injEq]

theorem State.stepped_of_terminal (h : a.status ≠ .running) : a.stepped = a :=
  State.stepped_eq_iff.1 (step_of_terminal h)

theorem stepN_of_terminal (h : a.status ≠ .running) (k : Nat) : stepN k a = a := by
  induction k with
  | zero => rfl
  | succ k ih => rw [stepN_succ, State.stepped_of_terminal h, ih]

/-- A terminal state of a run is its only one: all later states equal it. -/
theorem stepN_eq_of_terminal {j k : Nat} (hj : (stepN j a).status ≠ .running) (hk : (stepN k a).status ≠ .running) :
    stepN j a = stepN k a := by
  induction j generalizing a k with
  | zero => exact (stepN_of_terminal hj k).symm
  | succ j ih =>
    cases k with
    | zero => exact stepN_of_terminal hk (j + 1)
    | succ k =>
      rw [stepN_succ] at hj ⊢
      rw [stepN_succ] at hk ⊢
      exact ih hj hk

theorem State.stepped_cfg : a.stepped.cfg = a.cfg := by
  rcases step_cases a with ⟨-, e⟩ | ⟨f, -, -, e⟩ | ⟨-, -, -, e⟩ | ⟨i, -, -, -, e⟩ <;> rw [State.stepped_eq_iff.1 e]
  · rfl
  · rfl
  · exact (Effect.apply_hidden ..).1

/-! ## The instruction about to run -/

/-- The ISA-level machine is about to run instruction `i` at `pc`, whose word is `word`. -/
structure Fetches (a : State) (pc word : Word) (i : Instr) : Prop where
  running : a.status = .running
  pc      : a.pc = pc
  access  : accessFault a.cfg a.pc .word = none
  fetched : a.mem.readWord a.pc.toNat = word
  decoded : decode word = some i

/-- The machine takes the fault `d`: nothing but the status changes (R227). -/
def State.Faults (a : State) (d : FaultDetail) : Prop := a.stepped = { a with status := .faulted d }

variable {pc word : Word} {i : Instr}

theorem Fetches.stepped (h : Fetches a pc word i) : a.stepped = (a.effect i).apply i a := by
  refine State.stepped_eq_iff.1 ((step_of_decode h.running h.access ?_).trans (exec_eq_effect i a))
  rw [h.fetched, h.decoded]

theorem Fetches.fetch (h : Fetches a pc word i) : a.fetch = .ok word :=
  (State.memRead_of_access h.access).trans (congrArg Except.ok h.fetched)

theorem Fetches.frame (h : Fetches a pc word i) :
    (∀ q, i.dest ≠ some q → a.stepped.reg q = a.reg q) ∧ (i.writesFlags = false → a.stepped.flags = a.flags) := by
  have hexec : exec i a = .next a.stepped := by rw [h.stepped, exec_eq_effect]
  obtain ⟨hreg, hflags, -⟩ := onlyTheListedWrites i a a.stepped hexec
  exact ⟨hreg, hflags⟩

/-- An instruction whose effect is a fault takes it, with the word it was fetched as (R225). -/
theorem Fetches.faults (h : Fetches a pc word i) {k : Fault} {addr : Option Word} (he : a.effect i = .fault k addr) :
    a.Faults { kind := k, pc := pc, word := some word, addr := addr } := by
  obtain ⟨-, hword⟩ := encodeOfDecode word i h.decoded
  rw [State.Faults, h.stepped, he, ← h.pc, ← hword]
  rfl

theorem State.faults_of_access {k : Fault} (hrun : a.status = .running) (h : accessFault a.cfg a.pc .word = some k) :
    a.Faults { kind := k, pc := a.pc, word := none, addr := some a.pc } :=
  State.stepped_eq_iff.1 (step_of_fetchFault hrun h)

theorem State.faults_of_illegal (hrun : a.status = .running) (h : accessFault a.cfg a.pc .word = none)
    (hd : decode (a.mem.readWord a.pc.toNat) = none) :
    a.Faults { kind := .invalidOpcode, pc := a.pc, word := some (a.mem.readWord a.pc.toNat), addr := none } :=
  State.stepped_eq_iff.1 (step_of_illegal hrun h hd)

/-! ## Where control goes on (R190, R262) -/

/-- The target of the control transfer that instruction `i` takes, if it takes one. -/
def State.transfer (a : State) (i : Instr) : Option Word := redirect i a.pc (a.readSrc i.srcA) a.flags

theorem Fetches.takesTransfer (h : Fetches a pc word i) : takesTransfer a = (a.transfer i).isSome := by
  simp [Machine.takesTransfer, h.fetch, h.decoded, State.transfer]

theorem redirect_of_memOp {k : MemKind} {n : Width} (h : memOp i = some (k, n)) (pc v : Word) (f : Flags) :
    redirect i pc v f = none := by
  cases i
  case ldr | str | ldrb | strb => rfl
  all_goals cases h

theorem State.effect_target {v target : Word} {f : Option Flags} (h : a.effect i = .complete v f target) :
    target = (a.transfer i).getD (a.pc + 4) := by
  unfold State.effect at h
  rcases hop : memOp i with _ | ⟨k, n⟩ <;> simp only [hop] at h
  · by_cases hh : i = .halt
    · rw [if_pos hh] at h; cases h
    · rw [if_neg hh] at h
      unfold State.aluEffect at h
      split at h <;> cases h
      rfl
  · rw [State.transfer, redirect_of_memOp hop]
    rcases a.memEffect_cases k n (a.readSrc i.srcA + i.immWord.getD 0) (a.readSrc i.srcB) with
      ⟨f, -, e⟩ | ⟨-, -, e⟩ | ⟨-, -, e⟩ <;> cases e.symm.trans h
    rfl

/-- After an instruction that neither faults nor halts the machine goes on at the transfer's target, or at the next
instruction. -/
theorem Fetches.stepped_pc (h : Fetches a pc word i) (hrun : a.stepped.status = .running) :
    a.stepped.pc = (a.transfer i).getD (a.pc + 4) := by
  rw [h.stepped] at hrun ⊢
  rcases a.effect_cases i with ⟨v, f, target, e, -, -⟩ | ⟨ea, n, v, e, hst, -⟩ | ⟨k, ea, n, e, -⟩ | ⟨e, -⟩ | ⟨e, -⟩ <;>
    rw [e] at hrun ⊢
  · exact State.effect_target e
  · obtain ⟨k, n, hop⟩ : ∃ k n, memOp i = some (k, n) := by
      cases i
      case str | strb => exact ⟨_, _, rfl⟩
      all_goals cases hst
    rw [State.transfer, redirect_of_memOp hop]
    rfl
  · cases hrun
  · cases hrun
  · cases hrun

/-- A machine that goes on and takes no transfer goes on at the next instruction. -/
theorem State.stepped_pc_of_no_transfer (hrun : a.status = .running) (hrun' : a.stepped.status = .running)
    (h : takesTransfer a = false) : a.stepped.pc = a.pc + 4 := by
  rcases step_cases a with ⟨hn, -⟩ | ⟨f, -, -, e⟩ | ⟨-, -, -, e⟩ | ⟨i, -, hacc, hd, -⟩
  · exact absurd hrun hn
  · rw [State.stepped_eq_iff.1 e] at hrun'; cases hrun'
  · rw [State.stepped_eq_iff.1 e] at hrun'; cases hrun'
  · have hfetch : Fetches a a.pc _ i := ⟨hrun, rfl, hacc, rfl, hd⟩
    rw [hfetch.takesTransfer, Option.isSome_eq_false_iff, Option.isNone_iff_eq_none] at h
    rw [hfetch.stepped_pc hrun', h]
    rfl

/-! ## Code that a store leaves alone (R272) -/

/-- A store whose effect is to store has passed its checks. -/
theorem State.memEffect_eq_store {k : MemKind} {n n' : Width} {ea ea' v v' : Word}
    (h : a.memEffect k n ea v = .store ea' n' v') : ea = ea' ∧ n = n' ∧ accessFault a.cfg ea n = none := by
  rcases a.memEffect_cases k n ea v with ⟨_, -, e⟩ | ⟨-, -, e⟩ | ⟨hacc, -, e⟩ <;> cases e.symm.trans h
  exact ⟨rfl, rfl, hacc⟩

/-- The span of a store is the one its effect writes. -/
theorem Fetches.storeSpan (h : Fetches a pc word i) {ea v : Word} {n : Width} (he : a.effect i = .store ea n v) :
    storeSpan a = some (ea.toNat, n.bytes) := by
  rcases a.effect_cases i with ⟨_, _, _, e, -⟩ | ⟨_, _, _, -, hst, -⟩ | ⟨_, _, _, e, -⟩ | ⟨e, -⟩ | ⟨e, -⟩
  case inr.inl =>
    cases i
    case str rt rb off =>
      change a.memEffect .store .word (effectiveAddress (a.reg rb) off) (a.reg rt) = _ at he
      obtain ⟨rfl, rfl, hacc⟩ := State.memEffect_eq_store he
      simp [Machine.storeSpan, h.fetch, h.decoded, hacc, Width.bytes]
    case strb rt rb off =>
      change a.memEffect .store .byte (effectiveAddress (a.reg rb) off) (a.reg rt) = _ at he
      obtain ⟨rfl, rfl, hacc⟩ := State.memEffect_eq_store he
      simp [Machine.storeSpan, h.fetch, h.decoded, hacc, Width.bytes]
    all_goals cases hst
  all_goals cases e.symm.trans he

/-- A store changes no word it shares no byte with. -/
theorem Memory.readWord_writeWidth_other (m : Memory) {p ea : Word} {n : Width} (v : Word)
    (h : ¬ overlapsCode p (ea.toNat, n.bytes)) :
    (m.writeWidth ea.toNat n v).readWord p.toNat = m.readWord p.toNat := by
  simp only [overlapsCode] at h
  have hbyte (j : Nat) (hj : j < 4) : (m.writeWidth ea.toNat n v).read (p.toNat + j) = m.read (p.toNat + j) :=
    m.read_writeWidth_other _ _ n v (by omega)
  rw [Memory.readWord, Memory.readWord, ← hbyte 1 (by decide), ← hbyte 2 (by decide), ← hbyte 3 (by decide)]
  exact congrArg (wordOfBytes · _ _ _) (hbyte 0 (by decide))

/-- A step leaves the word at `p` alone if what it stores does not overlap it. -/
theorem State.stepped_readWord {p : Word}
    (h : ∀ span, a.status = .running → storeSpan a = some span → ¬ overlapsCode p span) :
    a.stepped.mem.readWord p.toNat = a.mem.readWord p.toNat := by
  rcases step_cases a with ⟨-, e⟩ | ⟨f, -, -, e⟩ | ⟨-, -, -, e⟩ | ⟨i, hrun, hacc, hd, e⟩ <;>
    rw [State.stepped_eq_iff.1 e]
  · rfl
  · rfl
  · have hfetch : Fetches a a.pc _ i := ⟨hrun, rfl, hacc, rfl, hd⟩
    rcases a.effect_cases i with ⟨v, f, target, he, -⟩ | ⟨ea, n, v, he, -⟩ | ⟨k, ea, n, he, -⟩ | ⟨he, -⟩ | ⟨he, -⟩ <;>
      rw [he]
    · rw [(Effect.complete_apply_memory ..).1]
    · exact a.mem.readWord_writeWidth_other v (h _ hrun (hfetch.storeSpan he))
    · rfl
    · rfl
    · rfl

theorem NoStoreIntoNextCode.stepped (h : NoStoreIntoNextCode a) : NoStoreIntoNextCode a.stepped := by
  intro k
  rw [← stepN_succ, ← stepN_succ, ← stepN_succ]
  exact h (k + 1)

/-- Outside the window of R272 the word of the next instruction is the one memory held before the step. -/
theorem NoStoreIntoNextCode.readWord_next (h : NoStoreIntoNextCode a) :
    a.stepped.mem.readWord a.stepped.pc.toNat = a.mem.readWord a.stepped.pc.toNat :=
  State.stepped_readWord fun span hrun hspan => (h 0 span hrun hspan).1

/-- Outside the window of R272 the word of the instruction after the next one is the one memory held two steps
before, unless the next one transfers control. -/
theorem NoStoreIntoNextCode.readWord_afterNext (h : NoStoreIntoNextCode a) (hseq : takesTransfer a.stepped = false) :
    a.stepped.stepped.mem.readWord a.stepped.stepped.pc.toNat = a.mem.readWord a.stepped.stepped.pc.toNat := by
  refine h.stepped.readWord_next.trans (State.stepped_readWord fun span hrun hspan => ?_)
  have hnext := (h 0 span hrun hspan).2 hseq
  rwa [stepN_succ] at hnext

end

end Sys2Proof.Machine
end

section
/-!
PROOFS. What a latch says of the run of the ISA-level machine: an `MW` entry of what its instruction commits, an `XM`
entry of the access or the result to come, an `FD` entry of the fetch; and what the stages make of such entries
(70_reset_and_hazards.md R257 to R266).
-/
namespace Sys2Proof.Machine

/-! ## Latch entries -/

/-- The entry commits what the instruction that `a` runs next does (R257). -/
structure MW.Tracks (m : MW) (a : State) : Prop where
  regs   : ∀ r, a.stepped.reg r = if r ≠ 0 ∧ m.dest = some r then m.value else a.reg r
  flags  : a.stepped.flags = m.flags.getD a.flags
  status : a.stepped.status = if m.halt then .halted else .running

/-- The entry holds what Execute makes of the instruction that `a` runs next: the operands of its access, or its
result and flags (R260). -/
structure XM.Tracks (x : XM) (a : State) : Prop where
  fetches : Fetches a x.pc x.word x.d
  access  : ∀ k n, memOp x.d = some (k, n) → a.effect x.d = a.memEffect k n x.result x.sdata
  result  : memOp x.d = none → x.d ≠ .halt →
    ∃ v target, a.effect x.d = .complete v x.flags target ∧ ∀ r, x.d.dest = some r → v = x.result

/-- The entry holds the word that `a` is about to run, or the fault of its fetch (R266). -/
structure FD.Tracks (f : FD) (a : State) : Prop where
  pc     : f.pc = a.pc
  fetch  : (f.ffault = none ∧ accessFault a.cfg a.pc .word = none ∧ f.word = a.mem.readWord a.pc.toNat)
    ∨ ∃ k, f.ffault = some (k, a.pc) ∧ accessFault a.cfg a.pc .word = some k

section
variable {a : State} {pc word : Word} {i : Instr}

/-- An instruction that completes writes its destination and its flags and nothing else but the `pc`. -/
theorem Fetches.stepped_of_complete (h : Fetches a pc word i) {v value target : Word} {f : Option Flags}
    (he : a.effect i = .complete v f target) (hv : ∀ r, i.dest = some r → v = value) :
    (∀ r, a.stepped.reg r = if r ≠ 0 ∧ i.dest = some r then value else a.reg r)
    ∧ a.stepped.flags = f.getD a.flags ∧ a.stepped.status = .running ∧ a.stepped.mem = a.mem
    ∧ a.stepped.out = a.out := by
  obtain ⟨hmem, hout⟩ := Effect.complete_apply_memory v f target i a
  refine ⟨fun r => ?_, ?_⟩
  · by_cases hd : i.dest = some r
    · rw [if_pos ⟨(Instr.dest_eq_some.1 hd).1, hd⟩, h.stepped, he, Effect.complete_apply_dest hd, hv r hd]
    · rw [if_neg fun hr => hd hr.2]
      exact h.frame.1 r hd
  · rw [h.stepped, he, Effect.complete_apply_flags, Effect.complete_apply_status, h.running]
    exact ⟨rfl, rfl, hmem, hout⟩

/-! ## The Memory stage (R258) -/

variable {x : XM}

/-- An entry without an access goes on to `MW` as it is, and memory stays. -/
theorem XM.Tracks.toMW (h : x.Tracks a) (hs : x.Sound) (hop : memOp x.d = none) :
    (x.toMW x.result x.dest x.flags x.halt).Tracks a ∧ a.stepped.mem = a.mem ∧ a.stepped.out = a.out := by
  by_cases hh : x.d = .halt
  · have hstepped : a.stepped = a.halt := by
      rw [h.fetches.stepped, hh]; rfl
    have hflags : x.flags = none := by
      rw [← Option.isNone_iff_eq_none, ← Option.isSome_eq_false_iff, hs.flags, hh]; rfl
    have hdest : x.dest = none := by rw [hs.dest, hh]; rfl
    rw [hstepped]
    refine ⟨⟨fun r => ?_, ?_, ?_⟩, rfl, rfl⟩
    · simp [hstepped, XM.toMW, hdest]
    · simp [hstepped, XM.toMW, hflags]
    · simp [hstepped, XM.toMW, hs.halt.2 hh]
  · obtain ⟨v, target, he, hv⟩ := h.result hop hh
    obtain ⟨hreg, hflags, hstatus, hmem, hout⟩ := h.fetches.stepped_of_complete he hv
    refine ⟨⟨fun r => ?_, hflags, ?_⟩, hmem, hout⟩
    · rw [hreg, ← hs.dest]; rfl
    · simp [hstatus, XM.toMW, Bool.eq_false_iff.2 (mt hs.halt.1 hh)]

variable {k : MemKind} {n : Width}

/-- An access that fails its checks is the fault of the instruction. -/
theorem XM.Tracks.faults (h : x.Tracks a) (hop : memOp x.d = some (k, n)) {f : Fault}
    (hf : accessFault a.cfg x.result n = some f) :
    a.Faults { kind := f, pc := x.pc, word := some x.word, addr := some x.result } :=
  h.fetches.faults ((h.access k n hop).trans (by simp [State.memEffect, hf]))

/-- A load that passes its checks commits what memory holds, and memory stays. -/
theorem XM.Tracks.load (h : x.Tracks a) (hs : x.Sound) (hop : memOp x.d = some (.load, n))
    (hf : accessFault a.cfg x.result n = none) :
    (x.toMW (a.mem.readWidth x.result.toNat n) x.dest none false).Tracks a
    ∧ a.stepped.mem = a.mem ∧ a.stepped.out = a.out := by
  have he : a.effect x.d = .complete (a.mem.readWidth x.result.toNat n) none (a.pc + 4) :=
    (h.access .load n hop).trans (by simp [State.memEffect, hf])
  obtain ⟨hreg, hflags, hstatus, hmem, hout⟩ := h.fetches.stepped_of_complete he fun _ _ => rfl
  exact ⟨⟨fun r => by rw [hreg, ← hs.dest]; rfl, hflags, hstatus⟩, hmem, hout⟩

/-- A store that passes its checks commits nothing in WriteBack and writes memory and the output log. -/
theorem XM.Tracks.store (h : x.Tracks a) (hop : memOp x.d = some (.store, n))
    (hf : accessFault a.cfg x.result n = none) :
    (x.toMW 0 none none false).Tracks a ∧ a.stepped.mem = (a.store x.result n x.sdata).mem
    ∧ a.stepped.out = (a.store x.result n x.sdata).out := by
  have he : a.effect x.d = .store x.result n x.sdata :=
    (h.access .store n hop).trans (by simp [State.memEffect, hf])
  have hstepped : a.stepped = (a.store x.result n x.sdata).nextPc := by rw [h.fetches.stepped, he]; rfl
  rw [hstepped]
  refine ⟨⟨fun r => ?_, ?_, ?_⟩, rfl, rfl⟩
  · simp [hstepped, XM.toMW]
  · simp [hstepped, XM.toMW]
  · simp [hstepped, XM.toMW, h.fetches.running]

/-! ## Forwarding from the Memory stage (R259, R261) -/

/-- A result forwarded from `XM` is what its instruction writes. -/
theorem XM.Tracks.reg_of_supplies (h : x.Tracks a) (hs : x.Sound) {q : Reg} (hq : q ≠ 0) (hsup : x.supplies q = true) :
    a.stepped.reg q = x.result := by
  simp only [XM.supplies, Bool.and_eq_true, beq_iff_eq, Bool.not_eq_true'] at hsup
  obtain ⟨hdest, hload⟩ := hsup
  have hop : memOp x.d = none := by
    cases hop : memOp x.d with
    | none => rfl
    | some p =>
      obtain ⟨_ | _, n⟩ := p
      · simp [isLoad, hop] at hload
      · rw [hs.dest, (isStore_writes_nothing (by simp [isStore, hop])).1] at hdest
        cases hdest
  obtain ⟨hm, -⟩ := h.toMW hs hop
  rw [hm.regs]
  exact if_pos ⟨hq, hdest⟩

theorem XM.Tracks.reg_other (h : x.Tracks a) (hs : x.Sound) {q : Reg} (hd : x.dest ≠ some q) :
    a.stepped.reg q = a.reg q :=
  h.fetches.frame.1 q (hs.dest ▸ hd)

theorem XM.Tracks.stepped_flags (h : x.Tracks a) (hs : x.Sound) : a.stepped.flags = x.flags.getD a.flags := by
  cases hop : memOp x.d with
  | none => exact (h.toMW hs hop).1.flags
  | some p =>
    obtain ⟨k, n⟩ := p
    have hw := (memOp_eq_some hop).1
    have hflags : x.flags = none := by
      rw [← Option.isNone_iff_eq_none, ← Option.isSome_eq_false_iff, hs.flags, hw]
    rw [h.fetches.frame.2 hw, hflags]
    rfl

/-! ## Execute (R260, R262) -/

/-- An operand of Execute: the second source, or the immediate of an instruction without one. -/
def State.operandB (a : State) (i : Instr) : Word :=
  if i.srcB.isSome then a.readSrc i.srcB else i.immWord.getD 0

/-- An instruction of class A has the effect of its `ALU` result. -/
theorem State.effect_of_alu (hc : i.cls = .a) :
    a.effect i = a.aluEffect i (alu i (a.readSrc i.srcA) (a.operandB i)) ((a.transfer i).getD (a.pc + 4)) := by
  have hop : memOp i = none := by
    rw [← Option.isNone_iff_eq_none, ← Option.isSome_eq_false_iff, Bool.eq_false_iff]
    intro h
    cases hc.symm.trans ((memOp_isSome i).1 h)
  have hh : i ≠ .halt := by rintro rfl; cases hc
  simp [State.effect, hop, hh, State.operandB, State.transfer]

/-- An instruction of class C other than `HALT` has the effect of its control transfer and its return address. -/
theorem State.effect_of_control (hc : i.cls = .c) (hh : i ≠ .halt) :
    a.effect i = .complete (a.pc + 4) none ((a.transfer i).getD (a.pc + 4)) := by
  cases i
  case halt => exact absurd rfl hh
  case b | beq | bne | blt | bge | bgt | ble | blo | bhs | bhi | bls | bmi | bpl | bvs | bvc | bl | jr | nop => rfl
  all_goals cases hc

theorem State.transfer_of_not_control (hc : i.cls ≠ .c) : a.transfer i = none := by
  cases i
  case b | beq | bne | blt | bge | bgt | ble | blo | bhs | bhi | bls | bmi | bpl | bvs | bvc | bl | jr | nop | halt =>
    exact absurd rfl hc
  all_goals rfl

/-- A load or store has the effect of its access; the value to store plays no part in a load. -/
theorem State.effect_of_access {k : MemKind} {n : Width} (hop : memOp i = some (k, n)) :
    a.effect i = a.memEffect k n (a.readSrc i.srcA + i.immWord.getD 0) (if isStore i then a.readSrc i.srcB else 0) := by
  simp only [State.effect, hop]
  cases k with
  | load => rfl
  | store => rw [if_pos ((memOp_eq_some hop).2.2.2.2 rfl)]

section
variable {p : Pipe} {flags0 : Flags} {y : DX} (h : Fetches a y.pc y.word y.d)
  (ha : p.fwd y.d.srcA y.va = a.readSrc y.d.srcA) (hb : p.fwd y.d.srcB y.vb = a.readSrc y.d.srcB)
  (hf : p.fwdFlags flags0 = a.flags)
include h ha hb

/-- Execute on an instruction of class A: its fault, or the `XM` entry of its `ALU` result. -/
theorem Pipe.execute_tracks_alu (hc : y.d.cls = .a) :
    (∃ d, p.execute flags0 y = { ExecOut.idle with fault := some d } ∧ a.Faults d)
    ∨ ∃ x, x.Tracks a ∧ p.execute flags0 y = { ExecOut.idle with xm := some x } := by
  have he := State.effect_of_alu (a := a) hc
  have hop : memOp y.d = none := by
    rw [← Option.isNone_iff_eq_none, ← Option.isSome_eq_false_iff, Bool.eq_false_iff]
    exact fun hm => nomatch hc.symm.trans ((memOp_isSome y.d).1 hm)
  cases halu : alu y.d (a.readSrc y.d.srcA) (a.operandB y.d) with
  | none =>
    rw [halu] at he
    refine .inl ⟨_, ?_, h.faults he⟩
    rw [State.operandB] at halu
    simp only [Pipe.execute, hc, ha, hb, halu]
  | some r =>
    obtain ⟨v, f⟩ := r
    rw [halu, State.aluEffect, if_neg (by rw [hc]; nofun)] at he
    refine .inr ⟨{ y.toXM with result := v, flags := f, dest := y.d.dest },
      ⟨h, fun _ _ hm => (nomatch hop.symm.trans hm), fun _ _ => ⟨v, _, he, fun _ _ => rfl⟩⟩, ?_⟩
    rw [State.operandB] at halu
    simp only [Pipe.execute, hc, ha, hb, halu]

/-- Execute on a load or store: the `XM` entry of its access. -/
theorem Pipe.execute_tracks_access (hc : y.d.cls = .m) :
    ∃ x, x.Tracks a ∧ p.execute flags0 y = { ExecOut.idle with xm := some x } := by
  refine ⟨{ y.toXM with
      result := a.readSrc y.d.srcA + y.d.immWord.getD 0
      sdata := if isStore y.d then a.readSrc y.d.srcB else 0
      dest := y.d.dest }, ⟨h, fun _ _ hop => State.effect_of_access hop, fun hop => ?_⟩, ?_⟩
  · exact absurd ((memOp_isSome y.d).2 hc) (by rw [show memOp y.d = none from hop]; nofun)
  · simp only [Pipe.execute, hc, ha, hb]

include hf

omit hb in
/-- Execute on an instruction of class C: the `XM` entry of its return address, and its transfer. -/
theorem Pipe.execute_tracks_control (hc : y.d.cls = .c) :
    ∃ x, x.Tracks a ∧ p.execute flags0 y =
      { xm := some x, redirect := a.transfer y.d, stop := y.d == .halt, fault := none } := by
  refine ⟨{ y.toXM with
      result := if y.d.dest.isSome then y.pc + 4 else 0
      dest := y.d.dest
      halt := y.d == .halt }, ⟨h, fun k n hop => ?_, fun _ hh => ?_⟩, ?_⟩
  · have hm := (memOp_isSome y.d).1 (by change memOp y.d = some (k, n) at hop; rw [hop]; rfl)
    cases hc.symm.trans hm
  · refine ⟨_, _, State.effect_of_control hc hh, fun r hr => ?_⟩
    change y.d.dest = some r at hr
    change a.pc + 4 = if y.d.dest.isSome then y.pc + 4 else 0
    rw [hr, h.pc]
    rfl
  · simp only [Pipe.execute, hc, ha, hf, State.transfer, h.pc]

/-- Execute on the instruction that the ISA-level machine runs next, its operands forwarded: the fault that the
instruction takes, or its `XM` entry and its control transfer. -/
theorem Pipe.execute_tracks :
    (∃ d, p.execute flags0 y = { ExecOut.idle with fault := some d } ∧ a.Faults d)
    ∨ ∃ x, x.Tracks a ∧ p.execute flags0 y =
      { xm := some x, redirect := a.transfer y.d, stop := y.d == .halt, fault := none } := by
  have quiet (hc : y.d.cls ≠ .c) (x : XM) : { ExecOut.idle with xm := some x }
      = { xm := some x, redirect := a.transfer y.d, stop := y.d == .halt, fault := none : ExecOut } := by
    rw [State.transfer_of_not_control hc, beq_false_of_ne fun hh => hc (by rw [hh]; rfl)]
    rfl
  cases hc : y.d.cls with
  | a =>
    rcases Pipe.execute_tracks_alu (flags0 := flags0) h ha hb hc with hfault | ⟨x, hx, e⟩
    · exact .inl hfault
    · exact .inr ⟨x, hx, e.trans (quiet (by rw [hc]; nofun) x)⟩
  | m =>
    obtain ⟨x, hx, e⟩ := Pipe.execute_tracks_access (flags0 := flags0) h ha hb hc
    exact .inr ⟨x, hx, e.trans (quiet (by rw [hc]; nofun) x)⟩
  | c => exact .inr (Pipe.execute_tracks_control h ha hf hc)

end

/-! ## Decode and Fetch (R263 to R266) -/

/-- Everything Decode can do with an entry that tracks the ISA-level machine, if that still runs. -/
theorem FD.decodeEntry_tracks {f : FD} (h : a.status = .running → f.Tracks a) (s : State) (p : Pipe) :
    (∃ d, s.decodeEntry p f = { DecodeOut.idle with fault := some d } ∧ (a.status = .running → a.Faults d))
    ∨ s.decodeEntry p f = { DecodeOut.idle with stall := true }
    ∨ ∃ y, s.decodeEntry p f = { DecodeOut.idle with dx := some y }
      ∧ (a.status = .running → Fetches a y.pc y.word y.d) := by
  rcases s.decodeEntry_cases p f with ⟨k, ad, hff, e⟩ | ⟨hff, hd, e⟩ | ⟨d, -, -, -, e⟩ | ⟨d, hff, hd, -, e⟩
  · refine .inl ⟨_, e, fun hrun => ?_⟩
    obtain ⟨hpc, ⟨hnone, -⟩ | ⟨k', hk, hacc⟩⟩ := h hrun
    · cases hnone.symm.trans hff
    · cases hk.symm.trans hff
      rw [hpc]
      exact State.faults_of_access hrun hacc
  · refine .inl ⟨_, e, fun hrun => ?_⟩
    obtain ⟨hpc, ⟨-, hacc, hword⟩ | ⟨k', hk, -⟩⟩ := h hrun
    · rw [hword] at hd ⊢
      rw [hpc]
      exact State.faults_of_illegal hrun hacc hd
    · cases hff.symm.trans hk
  · exact .inr (.inl e)
  · refine .inr (.inr ⟨_, e, fun hrun => ?_⟩)
    obtain ⟨hpc, ⟨-, hacc, hword⟩ | ⟨k', hk, -⟩⟩ := h hrun
    · exact ⟨hrun, hpc.symm, hacc, hword.symm, hd⟩
    · cases hff.symm.trans hk

/-- A fetch at the `pc` of the ISA-level machine, with coherent caches, makes an entry that tracks it, if memory
already holds the word that the machine is going to run. -/
theorem State.fetchEntry_tracks {t : State} (hinv : CacheInv t) (pc : Word) :
    ∃ f, (t.fetchEntry pc).fd = some f ∧ (t.fetchEntry pc).fpc = pc + 4
      ∧ (t.cfg = a.cfg → pc = a.pc → t.mem.readWord a.pc.toNat = a.mem.readWord a.pc.toNat → f.Tracks a) := by
  rcases t.fetchEntry_cases pc with ⟨k, hk, e⟩ | ⟨hacc, e⟩ <;> rw [e]
  · refine ⟨_, rfl, rfl, ?_⟩
    rintro hcfg rfl -
    exact ⟨rfl, .inr ⟨k, rfl, hcfg ▸ hk⟩⟩
  · refine ⟨_, rfl, rfl, ?_⟩
    rintro hcfg rfl hword
    exact ⟨rfl, .inl ⟨rfl, hcfg ▸ hacc, (hinv.dataLoad_value hacc).trans hword⟩⟩

end

end Sys2Proof.Machine
end

section
/-!
PROOFS. The simulation relation between the pipeline and the ISA-level machine (70_reset_and_hazards.md R273). The
pipeline tracks the ISA-level state `a` in which the oldest instruction in flight is about to run: registers and flags
are those of `a`; memory is that of the state behind the instruction in `MW`, whose access is done; and each latch
holds the instruction that the ISA-level machine runs after those in the older latches. What stands in `DX` and `FD`
is so only as long as no older instruction faults, halts or transfers control.
-/
namespace Sys2Proof.Machine

/-! ## The ISA-level state behind a latch -/

/-- The ISA-level machine past the instruction in a latch, if there is one. -/
def State.past {α : Type} (a : State) (latch : Option α) : State := if latch.isSome then a.stepped else a

/-- The ISA-level machine past the instruction in `MW`. -/
def Pipe.atMem (p : Pipe) (a : State) : State := a.past p.mw

/-- The ISA-level machine past the instructions in `MW` and `XM`. -/
def Pipe.atExec (p : Pipe) (a : State) : State := (p.atMem a).past p.xm

/-- The ISA-level machine past the instructions in `MW`, `XM` and `DX`. -/
def Pipe.atDecode (p : Pipe) (a : State) : State := (p.atExec a).past p.dx

/-- The entry in a latch, whose instruction the ISA-level machine `a` runs next, transfers no control. -/
def Sequential {α : Type} (latch : Option α) (a : State) : Prop := latch.isSome = true → takesTransfer a = false

section
variable {α β : Type} {a : State}

@[simp] theorem State.past_none : a.past (none : Option α) = a := rfl

@[simp] theorem State.past_some (x : α) : a.past (some x) = a.stepped := rfl

theorem State.past_congr {l : Option α} {l' : Option β} (h : l.isSome = l'.isSome) : a.past l = a.past l' := by
  simp [State.past, h]

theorem Sequential.congr {l : Option α} {l' : Option β} (h : l.isSome = l'.isSome) (hl : Sequential l a) :
    Sequential l' a :=
  fun hs => hl (h.trans hs)

theorem Sequential.of_none : Sequential (none : Option α) a := nofun

theorem State.past_cfg (l : Option α) : (a.past l).cfg = a.cfg := by
  cases l with
  | none => rfl
  | some x => exact State.stepped_cfg

theorem NoStoreIntoNextCode.past (h : NoStoreIntoNextCode a) (l : Option α) : NoStoreIntoNextCode (a.past l) := by
  cases l with
  | none => exact h
  | some x => exact h.stepped

/-- Up to two instructions ahead, outside the window of R272, memory already holds the word to be run. -/
theorem NoStoreIntoNextCode.readWord_past (h : NoStoreIntoNextCode a) (l : Option α) (l' : Option β)
    (hseq : Sequential l' (a.past l)) :
    ((a.past l).past l').mem.readWord ((a.past l).past l').pc.toNat
      = a.mem.readWord ((a.past l).past l').pc.toNat := by
  cases l <;> cases l'
  case none.none => rfl
  case none.some => exact h.readWord_next
  case some.none => exact h.readWord_next
  case some.some => exact h.readWord_afterNext (hseq rfl)

/-- A machine that runs after a step ran before it. -/
theorem State.running_of_stepped (h : a.stepped.status = .running) : a.status = .running := by
  by_contra hn
  rw [State.stepped_of_terminal hn] at h
  exact hn h

end

/-! ## The relation -/

/-- What the younger latches say of the ISA-level machine `a` past `MW` and `XM`. -/
structure FrontTracks (p : Pipe) (a : State) : Prop where
  dx      : ∀ y, p.dx = some y → a.status = .running → Fetches a y.pc y.word y.d
  fd      : ∀ f, p.fd = some f → Sequential p.dx a → (a.past p.dx).status = .running → f.Tracks (a.past p.dx)
  fpc     : p.fetchEnable = true → Sequential p.dx a → Sequential p.fd (a.past p.dx) →
    ((a.past p.dx).past p.fd).status = .running → p.fpc = ((a.past p.dx).past p.fd).pc
  stopped : p.fetchEnable = false → a.status = .running → ∃ d, p.pendingFault = some d ∧ a.Faults d

/-- The pipeline `s` tracks the ISA-level machine `a`, which is about to run the oldest instruction in flight. -/
structure State.Tracks (s a : State) : Prop where
  running  : a.status = .running
  cfg      : s.cfg = a.cfg
  regs     : SameRegs a s
  flags    : s.flags = a.flags
  mem      : s.mem = (s.pipe.atMem a).mem
  out      : s.out = (s.pipe.atMem a).out
  mw       : ∀ m, s.pipe.mw = some m → m.Tracks a
  xm       : ∀ x, s.pipe.xm = some x → x.Tracks (s.pipe.atMem a)
  operands : ∀ y, s.pipe.dx = some y → y.va = s.readSrc y.d.srcA ∧ y.vb = s.readSrc y.d.srcB
  front    : FrontTracks s.pipe (s.pipe.atExec a)

/-- The relation does not look at the counters of the pipeline. -/
theorem State.Tracks.withCounters {s a : State} (h : s.Tracks a) (cycle elapsed : Nat) :
    State.Tracks { s with pipe := { s.pipe with cycle := cycle, memElapsed := elapsed } } a :=
  ⟨h.running, h.cfg, h.regs, h.flags, h.mem, h.out, h.mw, h.xm, h.operands,
    ⟨h.front.dx, h.front.fd, h.front.fpc, h.front.stopped⟩⟩

/-- The pipeline `s` runs in step with the ISA-level machine `a`: it tracks it, the invariants hold, and the rest of
the run keeps out of the window of R272. -/
structure InStep (s a : State) : Prop where
  running : s.status = .running
  tracks  : s.Tracks a
  pipe    : PipeInv s
  cache   : CacheInv s
  clear   : NoStoreIntoNextCode a

section
variable {s a : State}

/-! ## WriteBack and Memory -/

/-- WriteBack makes the registers and flags those past the instruction in `MW`. -/
theorem State.Tracks.writeBack (h : s.Tracks a) :
    SameRegs (s.pipe.atMem a) s.writeBack ∧ s.writeBack.flags = (s.pipe.atMem a).flags := by
  unfold Pipe.atMem
  cases hm : s.pipe.mw with
  | none =>
    have hreg (r : Reg) : s.writeBack.reg r = s.reg r := State.writeBack_reg_other (by simp [hm])
    have hflags : s.writeBack.flags = s.flags := State.writeBack_flags_of_none (by simp [hm])
    exact ⟨fun r => (hreg r).trans (h.regs r), hflags.trans h.flags⟩
  | some m =>
    have hmw := h.mw m hm
    refine ⟨fun r => ?_, ?_⟩
    · rw [State.past_some, hmw.regs, State.writeBack_reg, hm, h.regs r]
      rfl
    · rw [State.past_some, hmw.flags, State.writeBack_flags, hm, h.flags]
      rfl

/-- The instruction behind `MW` runs unless a `HALT` commits. -/
theorem State.Tracks.atMem_status (h : s.Tracks a) :
    (s.pipe.atMem a).status = if s.pipe.mw.any MW.halt then .halted else .running := by
  unfold Pipe.atMem
  cases hm : s.pipe.mw with
  | none => exact h.running
  | some m => exact (h.mw m hm).status

/-- The Memory stage finds the fault that the instruction in `XM` takes, or does its access and hands it on. -/
theorem InStep.memOut (h : InStep s a) :
    (∃ x d, s.pipe.xm = some x ∧ s.memOut = { next := s.writeBack, mw := none, fault := some d }
      ∧ (s.pipe.atMem a).Faults d)
    ∨ (s.memOut.fault = none ∧ s.memOut.mw.isSome = s.pipe.xm.isSome
      ∧ (∀ m, s.memOut.mw = some m → m.Tracks (s.pipe.atMem a))
      ∧ s.memOut.next.mem = (s.pipe.atExec a).mem ∧ s.memOut.next.out = (s.pipe.atExec a).out) := by
  have hcfg : s.writeBack.cfg = (s.pipe.atMem a).cfg :=
    s.writeBack_cfg.trans (h.tracks.cfg.trans (State.past_cfg _).symm)
  have hmem : s.writeBack.mem = (s.pipe.atMem a).mem := s.writeBack_mem.trans h.tracks.mem
  have hout : s.writeBack.out = (s.pipe.atMem a).out := s.writeBack_out.trans h.tracks.out
  unfold State.memOut Pipe.atExec
  rcases s.writeBack.memStage_cases with ⟨hx, e⟩ | ⟨x, hx, hop, e⟩ | ⟨x, k, n, f, hx, hop, hf, e⟩ |
    ⟨x, n, hx, hop, hf, e⟩ | ⟨x, n, hx, hop, hf, e⟩ <;> rw [s.writeBack_pipe] at hx <;> rw [e, hx]
  · exact .inr ⟨rfl, rfl, by simp, hmem, hout⟩
  · obtain ⟨hmw, hm, ho⟩ := (h.tracks.xm x hx).toMW (h.pipe.xmSound hx) hop
    refine .inr ⟨rfl, rfl, fun m hm' => ?_, hmem.trans hm.symm, hout.trans ho.symm⟩
    cases hm'
    exact hmw
  · exact .inl ⟨x, _, rfl, rfl, (h.tracks.xm x hx).faults hop (hcfg ▸ hf)⟩
  · obtain ⟨hmw, hm, ho⟩ := (h.tracks.xm x hx).load (h.pipe.xmSound hx) hop (hcfg ▸ hf)
    have hval := h.cache.writeBack.dataLoad_value hf
    refine .inr ⟨rfl, rfl, fun m hm' => ?_, ?_, ?_⟩
    · cases hm'
      rw [hval, hmem]
      exact hmw
    · exact (State.dataLoad_mem ..).trans (hmem.trans hm.symm)
    · exact (State.dataLoad_out ..).trans (hout.trans ho.symm)
  · obtain ⟨hmw, hm, ho⟩ := (h.tracks.xm x hx).store hop (hcfg ▸ hf)
    refine .inr ⟨rfl, rfl, fun m hm' => ?_, ?_, ?_⟩
    · cases hm'
      exact hmw
    · rw [State.past_some, hm, State.dataStore_mem, State.store_mem, hmem]
    · rw [State.past_some, ho, State.dataStore_out, State.store_out, hcfg, hout]

/-! ## Forwarding (R259, R261) -/

theorem Pipe.fwd_of_supplies {p : Pipe} {x : XM} {q : Reg} {v : Word} (hq : q ≠ 0) (hx : p.xm = some x)
    (hs : x.supplies q = true) : p.fwd (some q) v = x.result := by
  simp [Pipe.fwd, hq, hx, Option.filter_some, hs]

/-- A register that `XM` does not supply comes from `MW` if that writes it. -/
theorem Pipe.fwd_of_not_supplies {p : Pipe} {q : Reg} {v : Word} (hq : q ≠ 0)
    (hx : ∀ x, p.xm = some x → x.supplies q = false) :
    p.fwd (some q) v = if q ≠ 0 ∧ p.mw.bind MW.dest = some q then (p.mw.map MW.value).getD 0 else v := by
  have hnone : p.xm.filter (·.supplies q) = none := by
    cases hxm : p.xm with
    | none => rfl
    | some x => simp [hx x hxm]
  cases hm : p.mw with
  | none => simp [Pipe.fwd, hq, hnone, hm]
  | some m => by_cases hd : m.dest = some q <;> simp [Pipe.fwd, hq, hnone, hm, Option.filter_some, hd]

/-- The flags that Execute uses are those past the instruction in `XM`. -/
theorem InStep.fwdFlags (h : InStep s a) :
    s.pipe.fwdFlags s.flags = (s.pipe.atExec a).flags := by
  have hwb := h.tracks.writeBack.2
  rw [State.writeBack_flags] at hwb
  unfold Pipe.fwdFlags Pipe.atExec
  cases hx : s.pipe.xm with
  | none => exact hwb
  | some x =>
    rw [State.past_some, (h.tracks.xm x hx).stepped_flags (h.pipe.xmSound hx), ← hwb, Option.bind_some]
    cases x.flags <;> rfl

/-- A source register that no load in `XM` is about to write is forwarded as it stands past `XM`. -/
theorem InStep.fwd (h : InStep s a) (r : Option Reg)
    (hload : ∀ x q, s.pipe.xm = some x → isLoad x.d = true → x.dest = some q → r ≠ some q) :
    s.pipe.fwd r (s.readSrc r) = (s.pipe.atExec a).readSrc r := by
  cases r with
  | none => rfl
  | some q =>
    by_cases hq : q = 0
    · subst hq; rfl
    have hwb : s.writeBack.reg q = (s.pipe.atMem a).reg q := h.tracks.writeBack.1 q
    rw [State.writeBack_reg] at hwb
    show s.pipe.fwd (some q) (s.reg q) = (s.pipe.atExec a).reg q
    unfold Pipe.atExec
    cases hx : s.pipe.xm with
    | none =>
      rw [Pipe.fwd_of_not_supplies hq (by simp [hx])]
      exact hwb
    | some x =>
      have htracks := h.tracks.xm x hx
      have hsound := h.pipe.xmSound hx
      cases hsup : x.supplies q with
      | true => rw [Pipe.fwd_of_supplies hq hx hsup, State.past_some, htracks.reg_of_supplies hsound hq hsup]
      | false =>
        have hdest : x.dest ≠ some q := by
          intro hd
          cases hl : isLoad x.d with
          | true => exact hload x q hx hl hd rfl
          | false => simp [XM.supplies, hd, hl] at hsup
        rw [Pipe.fwd_of_not_supplies hq (by simp [hx, hsup]), State.past_some, htracks.reg_other hsound hdest]
        exact hwb

end

end Sys2Proof.Machine
end

section
/-!
PROOFS. An advance cycle keeps the simulation relation (70_reset_and_hazards.md R269, R273): what Execute, Decode and
Fetch make of latches that track the ISA-level machine, and the next latches put together.
-/
namespace Sys2Proof.Machine

/-- With bubbles in `FD` and `DX` the younger latches say where fetching goes on, or which fault ends the run. -/
theorem FrontTracks.of_empty {p : Pipe} {a : State} (hfd : p.fd = none) (hdx : p.dx = none)
    (hfpc : p.fetchEnable = true → a.status = .running → p.fpc = a.pc)
    (hstop : p.fetchEnable = false → a.status = .running → ∃ d, p.pendingFault = some d ∧ a.Faults d) :
    FrontTracks p a where
  dx y hy := nomatch hdx.symm.trans hy
  fd f hf := nomatch hfd.symm.trans hf
  fpc hen _ _ hrun := by
    rw [hdx, hfd] at hrun ⊢
    exact hfpc hen hrun
  stopped := hstop

section
variable {s a : State}

/-- A valid `DX` entry is there only while Fetch is enabled. -/
theorem PipeInv.fetchEnable_of_dx (hinv : PipeInv s) {y : DX} (hy : s.pipe.dx = some y) :
    s.pipe.fetchEnable = true := by
  by_contra hoff
  cases hy.symm.trans (hinv.stopped (Bool.eq_false_iff.2 hoff)).2

theorem PipeInv.fetchEnable_of_fd (hinv : PipeInv s) {f : FD} (hf : s.pipe.fd = some f) :
    s.pipe.fetchEnable = true := by
  by_contra hoff
  cases hf.symm.trans (hinv.stopped (Bool.eq_false_iff.2 hoff)).1

section
variable (h : InStep s a) (hm : s.memOut.fault = none)
include h hm

/-! ## Execute (R260, R262, R268) -/

/-- While Fetch is enabled no `HALT` is in flight; without a fault in the Memory stage the ISA-level machine then runs
past `MW` and `XM`. -/
theorem InStep.atExec_running (hen : s.pipe.fetchEnable = true) : (s.pipe.atExec a).status = .running := by
  have hmem : (s.pipe.atMem a).status = .running := by
    rw [h.tracks.atMem_status, if_neg]
    intro hhalt
    obtain ⟨m, hmw, hmh⟩ := (Option.any_eq_true ..).1 hhalt
    obtain ⟨-, hoff, -⟩ := h.pipe.haltInMW m hmw ((h.pipe.mwHalt m hmw).1 hmh)
    cases hen.symm.trans hoff
  unfold Pipe.atExec
  cases hx : s.pipe.xm with
  | none => exact hmem
  | some x =>
    rcases h.memOut with ⟨_, _, -, e, -⟩ | ⟨-, hsome, hmw, -⟩
    · rw [e] at hm; cases hm
    · obtain ⟨m, hmo⟩ := Option.isSome_iff_exists.1 (hsome.trans (by rw [hx]; rfl))
      obtain ⟨x', hx', hd, hsound, -⟩ := State.memOut_mw h.pipe hmo
      have hne : m.halt ≠ true := by
        intro hmh
        obtain ⟨hoff, -⟩ := h.pipe.haltInXM x' hx' (hd ▸ hsound.halt.1 hmh)
        cases hen.symm.trans hoff
      rw [State.past_some, (hmw m hmo).status, if_neg hne]

/-- Execute does nothing with a bubble; with a valid entry it does what the ISA-level machine does next. -/
theorem InStep.execOut :
    (s.pipe.dx = none ∧ s.execOut = ExecOut.idle)
    ∨ ∃ y, s.pipe.dx = some y ∧ Fetches (s.pipe.atExec a) y.pc y.word y.d
      ∧ ((∃ d, s.execOut = { ExecOut.idle with fault := some d } ∧ (s.pipe.atExec a).Faults d)
        ∨ ∃ x, x.Tracks (s.pipe.atExec a)
          ∧ s.execOut =
            { xm := some x, redirect := (s.pipe.atExec a).transfer y.d, stop := y.d == .halt, fault := none }) := by
  cases hy : s.pipe.dx with
  | none => exact .inl ⟨rfl, by simp [State.execOut, Pipe.execStage, hy]⟩
  | some y =>
    have hfetch := h.tracks.front.dx y hy (h.atExec_running hm (h.pipe.fetchEnable_of_dx hy))
    obtain ⟨hva, hvb⟩ := h.tracks.operands y hy
    have ha := h.fwd y.d.srcA fun x q hx hl hd => (h.pipe.noLoadUse x y q hx hl hd hy).1
    have hb := h.fwd y.d.srcB fun x q hx hl hd => (h.pipe.noLoadUse x y q hx hl hd hy).2
    rw [← hva] at ha
    rw [← hvb] at hb
    refine .inr ⟨y, rfl, hfetch, ?_⟩
    rw [State.execOut_of_dx hm hy]
    exact Pipe.execute_tracks hfetch ha hb (h.fwdFlags)

theorem InStep.execOut_xm {x : XM} (hx : s.execOut.xm = some x) : x.Tracks (s.pipe.atExec a) := by
  rcases h.execOut hm with ⟨-, e⟩ | ⟨y, -, -, ⟨d, e, -⟩ | ⟨x', htracks, e⟩⟩ <;> rw [e] at hx <;> cases hx
  exact htracks

/-- Without a fault in the Memory stage Execute finds the fault of its instruction, or squashes the younger stages for
a `HALT` or a taken transfer, or lets them work. -/
theorem InStep.execOut_cases :
    (s.squashes = true ∧ s.execOut.xm = none ∧ ∃ d, s.newFault = some d ∧ (s.pipe.atExec a).Faults d)
    ∨ (s.squashes = true ∧ s.execOut.xm.isSome = true ∧ s.newFault = none ∧ s.pipe.fetchEnable = true
      ∧ ((s.pipe.atExec a).stepped.status = .running →
        s.execOut.stop = false ∧ s.execOut.redirect = some (s.pipe.atExec a).stepped.pc))
    ∨ (s.squashes = false ∧ s.execOut.xm.isSome = s.pipe.dx.isSome ∧ s.execOut.fault = none ∧ s.execOut.stop = false
      ∧ Sequential s.pipe.dx (s.pipe.atExec a)) := by
  rcases h.execOut hm with ⟨hdx, e⟩ | ⟨y, hy, hfetch, ⟨d, e, hd⟩ | ⟨x, -, e⟩⟩
  · refine .inr (.inr ⟨by simp [State.squashes, hm, e, ExecOut.idle], ?_, ?_, ?_, ?_⟩)
    · rw [e, hdx]; rfl
    · rw [e]; rfl
    · rw [e]; rfl
    · rw [hdx]; exact Sequential.of_none
  · exact .inl ⟨by simp [State.squashes, e], by rw [e]; rfl, d, by simp [State.newFault, hm, e], hd⟩
  · have hnew (hsq : s.squashes = true) : s.newFault = none := by
      simp [State.newFault, hm, e, State.decodeOut_of_squashes hsq, DecodeOut.idle]
    by_cases hh : y.d = .halt
    · have hsq : s.squashes = true := by simp [State.squashes, e, hh]
      refine .inr (.inl ⟨hsq, by rw [e]; rfl, hnew hsq, h.pipe.fetchEnable_of_dx hy, fun hrun => ?_⟩)
      rw [hfetch.stepped, hh] at hrun
      cases hrun
    · cases ht : (s.pipe.atExec a).transfer y.d with
      | some target =>
        have hsq : s.squashes = true := by simp [State.squashes, e, ht]
        refine .inr (.inl ⟨hsq, by rw [e]; rfl, hnew hsq, h.pipe.fetchEnable_of_dx hy, fun hrun => ?_⟩)
        rw [e, hfetch.stepped_pc hrun, ht]
        exact ⟨beq_false_of_ne hh, rfl⟩
      | none =>
        refine .inr (.inr ⟨by simp [State.squashes, hm, e, ht, hh], by rw [e, hy]; rfl, by rw [e],
          by rw [e]; exact beq_false_of_ne hh, fun _ => ?_⟩)
        rw [hfetch.takesTransfer, ht]
        rfl

end

/-! ## Decode (R263 to R265) -/

/-- Decode hands on `o`: a bubble for a bubble in `FD`, else the instruction that the ISA-level machine `c` runs
next. -/
structure State.HandsOn (s c : State) (o : Option DX) : Prop where
  out     : s.decodeOut = { DecodeOut.idle with dx := o }
  isSome  : o.isSome = s.pipe.fd.isSome
  fetches : ∀ y, o = some y → c.status = .running → Fetches c y.pc y.word y.d

/-- Decode, not squashed: it finds the fault of its entry, stalls, or hands its entry on. -/
theorem InStep.decodeOut_cases (h : InStep s a) (hsq : s.squashes = false)
    (hseq : Sequential s.pipe.dx (s.pipe.atExec a)) :
    (∃ d, s.decodeOut = { DecodeOut.idle with fault := some d }
      ∧ ((s.pipe.atDecode a).status = .running → (s.pipe.atDecode a).Faults d))
    ∨ (s.pipe.fd.isSome = true ∧ s.decodeOut = { DecodeOut.idle with stall := true })
    ∨ ∃ o, s.HandsOn (s.pipe.atDecode a) o := by
  cases hf : s.pipe.fd with
  | none => exact .inr (.inr ⟨none, State.decodeOut_of_bubble hf, by rw [hf]; rfl, nofun⟩)
  | some f =>
    have he : s.decodeOut = s.writeBack.decodeEntry s.pipe f := by
      simp [State.decodeOut, State.decodeStage, hf, hsq]
    rcases FD.decodeEntry_tracks (h.tracks.front.fd f hf hseq) s.writeBack s.pipe with ⟨d, e, hd⟩ | e | ⟨y, e, hy⟩
    · exact .inl ⟨d, he.trans e, hd⟩
    · exact .inr (.inl ⟨rfl, he.trans e⟩)
    · refine .inr (.inr ⟨some y, he.trans e, by rw [hf]; rfl, fun y' hy' hrun => ?_⟩)
      cases hy'
      exact hy hrun

/-! ## The younger latches after the cycle -/

theorem State.nextPipe_fetchEnable_of_stop (hstop : s.execOut.stop = false) (hnew : s.newFault = none) :
    s.nextPipe.fetchEnable = s.pipe.fetchEnable := by
  simp [State.nextPipe, hstop, hnew]

theorem State.nextPipe_pendingFault_of_new {d : FaultDetail} (h : s.newFault = some d) :
    s.nextPipe.pendingFault = some d := by
  simp [State.nextPipe, h]

theorem State.nextPipe_fetchEnable_of_new {d : FaultDetail} (h : s.newFault = some d) :
    s.nextPipe.fetchEnable = false :=
  State.nextPipe_fetchEnable_eq_false.2 (.inr (.inr (by rw [h]; rfl)))

/-- After a squash of the younger stages fetching goes on where the ISA-level machine does, or the fault found is the
one it takes. -/
theorem InStep.nextFront_of_squashes (h : InStep s a)
    (hm : s.memOut.fault = none) (hsq : s.squashes = true) :
    FrontTracks s.nextPipe ((s.pipe.atExec a).past s.execOut.xm) := by
  have hfd : s.nextPipe.fd = none := State.fetchOut_of_squashed (.inl hsq)
  have hdx : s.nextPipe.dx = none := congrArg DecodeOut.dx (State.decodeOut_of_squashes hsq)
  rcases h.execOut_cases hm with ⟨-, hxm, d, hnew, hd⟩ | ⟨-, hxm, hnew, hen, hgo⟩ | ⟨hnot, -⟩
  · rw [hxm, State.past_none]
    refine FrontTracks.of_empty hfd hdx (fun hen => ?_) fun _ _ => ⟨d, State.nextPipe_pendingFault_of_new hnew, hd⟩
    cases hen.symm.trans (State.nextPipe_fetchEnable_of_new hnew)
  · obtain ⟨x, hx⟩ := Option.isSome_iff_exists.1 hxm
    rw [hx, State.past_some]
    refine FrontTracks.of_empty hfd hdx (fun _ hrun => ?_) fun hoff hrun => ?_
    · exact (State.fetchOut_fpc_of_squashes hsq).trans (by rw [(hgo hrun).2]; rfl)
    · rw [State.nextPipe_fetchEnable_of_stop (hgo hrun).1 hnew, hen] at hoff
      cases hoff
  · cases hsq.symm.trans hnot

/-- The fetch makes an entry for the instruction after the one that Decode hands on: the fetch address is its address,
and memory, outside the window of R272, already holds its word. -/
theorem InStep.fetchEntry (h : InStep s a) (hm : s.memOut.fault = none) (hen : s.pipe.fetchEnable = true)
    (hseq : Sequential s.pipe.dx (s.pipe.atExec a)) {o : Option DX} (ho : o.isSome = s.pipe.fd.isSome) :
    ∃ f, (s.memOut.next.fetchEntry s.pipe.fpc).fd = some f
      ∧ (s.memOut.next.fetchEntry s.pipe.fpc).fpc = s.pipe.fpc + 4
      ∧ (Sequential o (s.pipe.atDecode a) → ((s.pipe.atDecode a).past o).status = .running →
        s.pipe.fpc = ((s.pipe.atDecode a).past o).pc ∧ f.Tracks ((s.pipe.atDecode a).past o)) := by
  have hcache : CacheInv s.memOut.next := h.cache.writeBack.memStage
  obtain ⟨f, hf, hnext, htracks⟩ := State.fetchEntry_tracks (a := (s.pipe.atDecode a).past o) hcache s.pipe.fpc
  refine ⟨f, hf, hnext, fun hseq' hrun => ?_⟩
  have hpast : (s.pipe.atDecode a).past o = (s.pipe.atDecode a).past s.pipe.fd := State.past_congr ho
  have hfpc : s.pipe.fpc = ((s.pipe.atDecode a).past o).pc := by
    rw [hpast] at hrun ⊢
    exact h.tracks.front.fpc hen hseq (hseq'.congr ho) hrun
  have hcfg : s.memOut.next.cfg = ((s.pipe.atDecode a).past o).cfg := by
    rw [State.past_cfg, Pipe.atDecode, State.past_cfg, Pipe.atExec, State.past_cfg, Pipe.atMem, State.past_cfg,
      ← h.tracks.cfg]
    exact s.writeBack.memStage_next.1.trans s.writeBack_cfg
  have hmem : s.memOut.next.mem = (s.pipe.atExec a).mem := by
    rcases h.memOut with ⟨_, _, -, e, -⟩ | ⟨-, -, -, hmem, -⟩
    · rw [e] at hm; cases hm
    · exact hmem
  refine ⟨hfpc, htracks hcfg hfpc ?_⟩
  rw [hmem]
  exact (((h.clear.past s.pipe.mw).past s.pipe.xm).readWord_past s.pipe.dx o hseq').symm

/-- Decode hands its entry on and Fetch makes the next one. -/
theorem InStep.nextFront_of_fetch (h : InStep s a) (hm : s.memOut.fault = none) (hsq : s.squashes = false)
    (hen : s.pipe.fetchEnable = true) (hnext : s.nextPipe.fetchEnable = true)
    (hseq : Sequential s.pipe.dx (s.pipe.atExec a)) {o : Option DX} (hde : s.HandsOn (s.pipe.atDecode a) o) :
    FrontTracks s.nextPipe (s.pipe.atDecode a) := by
  have hfe : s.fetchOut = s.memOut.next.fetchEntry s.pipe.fpc := by
    simp [State.fetchOut, State.fetchStage, hsq, hde.out, DecodeOut.idle, hen]
  obtain ⟨f, hf, hfpc, htracks⟩ := h.fetchEntry hm hen hseq hde.isSome
  have hdx : s.nextPipe.dx = o := congrArg DecodeOut.dx hde.out
  have hfd : s.nextPipe.fd = some f := (congrArg FetchOut.fd hfe).trans hf
  exact
    { dx := fun y hy => hde.fetches y (hdx ▸ hy)
      fd := fun f' hf' hseq' hrun => by
        cases hfd.symm.trans hf'
        rw [hdx] at hseq' hrun ⊢
        exact (htracks hseq' hrun).2
      fpc := fun _ hseq' hseqf hrun => by
        rw [hdx] at hseq' hseqf hrun ⊢
        rw [hfd] at hseqf hrun ⊢
        have hrun' := State.running_of_stepped hrun
        rw [State.past_some, State.stepped_pc_of_no_transfer hrun' hrun (hseqf rfl), ← (htracks hseq' hrun').1]
        exact (congrArg FetchOut.fpc hfe).trans hfpc
      stopped := fun hoff => nomatch hnext.symm.trans hoff }

/-- A stall of Decode holds its entry and the fetch address. -/
theorem InStep.nextFront_of_stall (h : InStep s a) (hsq : s.squashes = false) (hfd : s.pipe.fd.isSome = true)
    (hnext : s.nextPipe.fetchEnable = s.pipe.fetchEnable) (hseq : Sequential s.pipe.dx (s.pipe.atExec a))
    (hde : s.decodeOut = { DecodeOut.idle with stall := true }) : FrontTracks s.nextPipe (s.pipe.atDecode a) := by
  have hfe := State.fetchOut_of_stall hsq hde
  have hdx' : s.nextPipe.dx = none := congrArg DecodeOut.dx hde
  have hfd' : s.nextPipe.fd = s.pipe.fd := congrArg FetchOut.fd hfe
  obtain ⟨f, hf⟩ := Option.isSome_iff_exists.1 hfd
  have hen := h.pipe.fetchEnable_of_fd hf
  exact
    { dx := fun y hy => nomatch hdx'.symm.trans hy
      fd := fun f hf _ hrun => by
        rw [hdx'] at hrun ⊢
        exact h.tracks.front.fd f (hfd' ▸ hf) hseq hrun
      fpc := fun _ _ hseq' hrun => by
        rw [hdx', hfd'] at hseq' hrun ⊢
        exact (congrArg FetchOut.fpc hfe).trans (h.tracks.front.fpc hen hseq hseq' hrun)
      stopped := fun hoff => nomatch hen.symm.trans (hnext.symm.trans hoff) }

/-- While Fetch is switched off the younger latches stay empty, and the pending fault stays. -/
theorem InStep.nextFront_of_disabled (h : InStep s a) (hoff : s.pipe.fetchEnable = false)
    (hnext : s.nextPipe.fetchEnable = s.pipe.fetchEnable) (hnew : s.newFault = none) :
    FrontTracks s.nextPipe (s.pipe.atDecode a) := by
  have hoff' := hnext.trans hoff
  obtain ⟨hfd', hdx'⟩ := State.nextPipe_stopped h.pipe hoff'
  rw [Pipe.atDecode, (h.pipe.stopped hoff).2, State.past_none]
  refine FrontTracks.of_empty hfd' hdx' (fun hon => nomatch hoff'.symm.trans hon) fun _ hrun => ?_
  obtain ⟨d, hd, hfaults⟩ := h.tracks.front.stopped hoff hrun
  exact ⟨d, by simp [State.nextPipe, hnew, hd], hfaults⟩

/-- The younger latches after a cycle without a fault in the Memory stage. -/
theorem InStep.nextFront (h : InStep s a) (hm : s.memOut.fault = none) :
    FrontTracks s.nextPipe ((s.pipe.atExec a).past s.execOut.xm) := by
  rcases h.execOut_cases hm with ⟨hsq, -⟩ | ⟨hsq, -⟩ | ⟨hsq, hxm, hfault, hstop, hseq⟩
  · exact h.nextFront_of_squashes hm hsq
  · exact h.nextFront_of_squashes hm hsq
  rw [State.past_congr hxm]
  have hnewde : s.newFault = s.decodeOut.fault := by simp [State.newFault, hm, hfault]
  rcases h.decodeOut_cases hsq hseq with ⟨d, e, hd⟩ | ⟨hfd, e⟩ | ⟨o, hde⟩
  · have hnew : s.newFault = some d := by rw [hnewde, e]
    exact FrontTracks.of_empty (State.fetchOut_of_squashed (.inr (by rw [e]; rfl))) (congrArg DecodeOut.dx e)
      (fun hen => nomatch hen.symm.trans (State.nextPipe_fetchEnable_of_new hnew))
      fun _ hrun => ⟨d, State.nextPipe_pendingFault_of_new hnew, hd hrun⟩
  · have hnew : s.newFault = none := hnewde.trans (by rw [e]; rfl)
    exact h.nextFront_of_stall hsq hfd (State.nextPipe_fetchEnable_of_stop hstop hnew) hseq e
  · have hnew : s.newFault = none := hnewde.trans (by rw [hde.out]; rfl)
    have hnext := State.nextPipe_fetchEnable_of_stop hstop hnew
    cases hen : s.pipe.fetchEnable with
    | true => exact h.nextFront_of_fetch hm hsq hen (hnext.trans hen) hseq hde
    | false => exact h.nextFront_of_disabled hen hnext hnew

end

end Sys2Proof.Machine
end

section
/-!
PROOFS. The pipeline ends like the ISA-level machine (70_reset_and_hazards.md R273). A cycle either keeps the
simulation relation or ends both runs alike; and while the ISA-level machine has steps to do, the oldest instruction
in flight retires after finitely many cycles, because every advance cycle brings it, or the next fetch, one latch
further.
-/
namespace Sys2Proof.Machine

section
variable {s a : State}

/-! ## An advance cycle -/

/-- Past a latch is a state of the run. -/
theorem State.past_eq_stepN {α : Type} (a : State) (l : Option α) : ∃ j, a.past l = stepN j a := by
  cases l with
  | none => exact ⟨0, rfl⟩
  | some x => exact ⟨1, rfl⟩

theorem State.advanced_mem (s : State) : s.advanced.mem = s.memOut.next.mem := by rw [s.advanced_eq]

theorem State.advanced_out (s : State) : s.advanced.out = s.memOut.next.out := by rw [s.advanced_eq]

/-- The operands that Decode read are those of the committed registers (R265). -/
theorem State.decodeOut_operands {y : DX} (h : s.decodeOut.dx = some y) :
    y.va = s.writeBack.readSrc y.d.srcA ∧ y.vb = s.writeBack.readSrc y.d.srcB := by
  unfold State.decodeOut at h
  rcases s.writeBack.decodeStage_cases s.pipe s.squashes with ⟨-, e⟩ | ⟨f, -, -, e⟩ <;> rw [e] at h
  · cases h
  · rcases s.writeBack.decodeEntry_cases s.pipe f with ⟨_, _, -, e⟩ | ⟨-, -, e⟩ | ⟨_, -, -, -, e⟩ | ⟨_, -, -, -, e⟩ <;>
      rw [e] at h <;> cases h
    exact ⟨rfl, rfl⟩

/-- What the Memory stage and the younger stages make of their latches decides whether the pipeline still tracks the
ISA-level machine: WriteBack has committed the instruction that retires. -/
theorem State.Tracks.advanced_of_latches (h : s.Tracks a) (hrun : (s.pipe.atMem a).status = .running)
    (hmem : s.memOut.next.mem = (s.nextPipe.atMem (s.pipe.atMem a)).mem)
    (hout : s.memOut.next.out = (s.nextPipe.atMem (s.pipe.atMem a)).out)
    (hmw : ∀ m, s.nextPipe.mw = some m → m.Tracks (s.pipe.atMem a))
    (hxm : ∀ x, s.nextPipe.xm = some x → x.Tracks (s.nextPipe.atMem (s.pipe.atMem a)))
    (hfront : FrontTracks s.nextPipe (s.nextPipe.atExec (s.pipe.atMem a))) : s.advanced.Tracks (s.pipe.atMem a) where
  running := hrun
  cfg := s.advanced_cfg.trans (h.cfg.trans (State.past_cfg _).symm)
  regs r := (s.advanced_reg r).trans (h.writeBack.1 r)
  flags := s.advanced_flags.trans h.writeBack.2
  mem := s.advanced_mem.trans hmem
  out := s.advanced_out.trans hout
  mw := hmw
  xm := hxm
  operands y hy := by
    obtain ⟨hva, hvb⟩ := State.decodeOut_operands hy
    exact ⟨hva.trans (State.readSrc_congr fun q _ => (s.advanced_reg q).symm),
      hvb.trans (State.readSrc_congr fun q _ => (s.advanced_reg q).symm)⟩
  front := hfront

/-- After a fault of the Memory stage the pipeline is empty, and the fault is the one that comes next. -/
theorem State.Tracks.advanced_of_memFault (h : s.Tracks a) (hrun : (s.pipe.atMem a).status = .running)
    {d : FaultDetail} (e : s.memOut = { next := s.writeBack, mw := none, fault := some d })
    (hd : (s.pipe.atMem a).Faults d) : s.advanced.Tracks (s.pipe.atMem a) := by
  have hfault : s.memOut.fault = some d := congrArg MemOut.fault e
  have hnew : s.newFault = some d := by simp [State.newFault, hfault]
  obtain ⟨hfd, hdx, hxm, hmw⟩ : s.nextPipe.fd = none ∧ s.nextPipe.dx = none ∧ s.nextPipe.xm = none
      ∧ s.nextPipe.mw = none := State.latchesEmpty_of_memFault hfault (congrArg MemOut.mw e)
  have hmem : s.nextPipe.atMem (s.pipe.atMem a) = s.pipe.atMem a := by rw [Pipe.atMem, hmw, State.past_none]
  have hexec : s.nextPipe.atExec (s.pipe.atMem a) = s.pipe.atMem a := by rw [Pipe.atExec, hmem, hxm, State.past_none]
  refine h.advanced_of_latches hrun ?mem ?out (fun m hm => nomatch hmw.symm.trans hm)
    (fun x hx => nomatch hxm.symm.trans hx) ?front
  case mem => rw [e, hmem]; exact s.writeBack_mem.trans h.mem
  case out => rw [e, hmem]; exact s.writeBack_out.trans h.out
  case front =>
    rw [hexec]
    exact FrontTracks.of_empty hfd hdx
      (fun hen => nomatch hen.symm.trans (State.nextPipe_fetchEnable_of_new hnew))
      fun _ _ => ⟨d, State.nextPipe_pendingFault_of_new hnew, hd⟩

/-- An advance cycle in which no `HALT` commits tracks the ISA-level machine past the instruction it retires. -/
theorem InStep.advanced (h : InStep s a)
    (hrun : (s.pipe.atMem a).status = .running) : s.advanced.Tracks (s.pipe.atMem a) := by
  rcases h.memOut with ⟨x, d, -, e, hd⟩ | ⟨hm, hsome, hmw, hmem, hout⟩
  · exact h.tracks.advanced_of_memFault hrun e hd
  · have hatMem : s.nextPipe.atMem (s.pipe.atMem a) = s.pipe.atExec a := State.past_congr hsome
    refine h.tracks.advanced_of_latches hrun (hmem.trans (congrArg State.mem hatMem.symm))
      (hout.trans (congrArg State.out hatMem.symm)) hmw (fun x hx => hatMem ▸ h.execOut_xm hm hx) ?_
    rw [Pipe.atExec, hatMem]
    exact h.nextFront hm

/-- With a pending fault and empty latches both machines end with that fault. -/
theorem State.Tracks.reportFault (h : s.Tracks a) (hinv : PipeInv s) :
    s.reportFault = s ∨ (s.reportFault.status ≠ .running ∧ SameEnd s.reportFault a.stepped) := by
  rcases s.reportFault_cases with e | ⟨d, hd, -, -, -, hxm, hmw, e⟩
  · exact .inl e
  · have hmem : s.pipe.atMem a = a := by rw [Pipe.atMem, hmw, State.past_none]
    have hexec : s.pipe.atExec a = a := by rw [Pipe.atExec, hmem, hxm, State.past_none]
    obtain ⟨d', hd', hfaults⟩ := h.front.stopped (hinv.pending d hd).1 (by rw [hexec]; exact h.running)
    cases hd.symm.trans hd'
    have hsmem := h.mem
    have hsout := h.out
    rw [hmem] at hsmem hsout
    rw [hexec] at hfaults
    rw [e, hfaults]
    exact .inr ⟨nofun, rfl, h.regs, h.flags, fun b => congrArg (Memory.read · b) hsmem, hsout⟩

/-- A `HALT` that commits ends both machines. -/
theorem InStep.advance_of_halt (h : InStep s a) {m : MW} (hm : s.pipe.mw = some m) (hhalt : m.halt = true) :
    s.advance.status ≠ .running ∧ SameEnd s.advance a.stepped := by
  have hatMem : s.pipe.atMem a = a.stepped := by rw [Pipe.atMem, hm, State.past_some]
  obtain ⟨hxm, -⟩ := h.pipe.haltInMW m hm ((h.pipe.mwHalt m hm).1 hhalt)
  have hatExec : s.pipe.atExec a = a.stepped := by rw [Pipe.atExec, hatMem, hxm, State.past_none]
  have hstatus : s.advanced.status = .halted := by simp [s.advanced_status, hm, hhalt]
  have hterminal : s.advanced.status ≠ .running := by rw [hstatus]; nofun
  obtain ⟨-, -, -, hmem, hout⟩ := h.memOut.resolve_left (by simp [hxm])
  obtain ⟨hregs, hflags⟩ := h.tracks.writeBack
  rw [hatMem] at hregs hflags
  rw [hatExec] at hmem hout
  rw [State.advance_eq, State.reportFault_of_terminal hterminal]
  refine ⟨hterminal, hstatus.trans ?_, fun r => (s.advanced_reg r).trans (hregs r), s.advanced_flags.trans hflags,
    fun b => congrArg (Memory.read · b) (s.advanced_mem.trans hmem), s.advanced_out.trans hout⟩
  rw [(h.tracks.mw m hm).status, if_pos hhalt]

/-! ## A cycle -/

theorem InStep.countCycle (h : InStep s a) : InStep s.countCycle a :=
  ⟨h.running, h.tracks.withCounters _ _, h.pipe.countCycle, h.cache.congr rfl rfl rfl rfl, h.clear⟩

/-- An advance cycle ends both machines alike, or stays in step past the instruction it retires. -/
theorem InStep.advance (h : InStep s a) :
    (s.advance.status ≠ .running ∧ ∃ j, SameEnd s.advance (stepN j a))
    ∨ (s.advance = s.advanced ∧ InStep s.advanced (s.pipe.atMem a)) := by
  cases hhalt : s.pipe.mw.any MW.halt with
  | true =>
    obtain ⟨m, hm, hmh⟩ := (Option.any_eq_true ..).1 hhalt
    obtain ⟨hterminal, hend⟩ := h.advance_of_halt hm hmh
    exact .inl ⟨hterminal, 1, hend⟩
  | false =>
    have hrun : s.advanced.status = .running := by
      rw [s.advanced_status, hhalt, if_neg Bool.false_ne_true, h.running]
    have hatMem : (s.pipe.atMem a).status = .running := by
      rw [h.tracks.atMem_status, hhalt, if_neg Bool.false_ne_true]
    have htracks := h.advanced hatMem
    have hpipe := h.pipe.advanced h.running
    have hcache := h.cache.advance
    rw [s.advance_eq] at hcache ⊢
    rcases htracks.reportFault hpipe with e | ⟨hterminal, hend⟩
    · exact .inr ⟨e, hrun, htracks, hpipe, e ▸ hcache, h.clear.past s.pipe.mw⟩
    · obtain ⟨j, hj⟩ := a.past_eq_stepN s.pipe.mw
      rw [Pipe.atMem, hj, ← stepN_succ_last] at hend
      exact .inl ⟨hterminal, j + 1, hend⟩

/-- A cycle ends both machines alike, or stays in step. -/
theorem InStep.clock (h : InStep s a) :
    ((clock s).status ≠ .running ∧ ∃ j, SameEnd (clock s) (stepN j a)) ∨ ∃ j, InStep (clock s) (stepN j a) := by
  cases hw : s.waits with
  | true =>
    have e := clock_of_wait h.running hw
    have hpipe : PipeInv (Machine.clock s) := clockKeepsThePipelineInvariant s h.pipe
    rw [e] at hpipe ⊢
    exact .inr ⟨0, h.running, h.tracks.withCounters _ _, hpipe, h.cache.congr rfl rfl rfl rfl, h.clear⟩
  | false =>
    rw [clock_of_advance h.running hw]
    refine h.countCycle.advance.imp_right fun ⟨e, hstep⟩ => ?_
    obtain ⟨j, hj⟩ := a.past_eq_stepN s.pipe.mw
    exact ⟨j, hj ▸ e ▸ hstep⟩

/-- After any number of cycles the machines have ended alike or are in step. -/
theorem InStep.clockN (h : InStep s a) (n : Nat) :
    ((clockN n s).status ≠ .running ∧ ∃ j, SameEnd (clockN n s) (stepN j a))
    ∨ ∃ j, InStep (clockN n s) (stepN j a) := by
  induction n with
  | zero => exact .inr ⟨0, h⟩
  | succ n ih =>
    rw [clockN_add n 1]
    rcases ih with ⟨hterminal, hend⟩ | ⟨j, hstep⟩
    · rw [clockN_of_terminal hterminal]
      exact .inl ⟨hterminal, hend⟩
    · have stepN_stepN (i : Nat) : stepN i (stepN j a) = stepN (j + i) a := (stepN_add j i a).symm
      exact hstep.clock.imp (fun ⟨ht, i, hi⟩ => ⟨ht, j + i, stepN_stepN i ▸ hi⟩)
        fun ⟨i, hi⟩ => ⟨j + i, stepN_stepN i ▸ hi⟩

/-! ## Progress -/

/-- How many latches the oldest instruction in flight is away from `MW`; with none in flight the next fetch counts. -/
def Pipe.distance (p : Pipe) : Nat :=
  if p.mw.isSome then 0 else if p.xm.isSome then 1 else if p.dx.isSome then 2 else if p.fd.isSome then 3 else 4

theorem Pipe.distance_of_mw {p : Pipe} (h : p.mw.isSome = true) : p.distance = 0 := if_pos h

theorem Pipe.distance_le_of_xm {p : Pipe} (h : p.xm.isSome = true) : p.distance ≤ 1 := by
  unfold Pipe.distance; split_ifs <;> omega

theorem Pipe.distance_le_of_dx {p : Pipe} (h : p.dx.isSome = true) : p.distance ≤ 2 := by
  unfold Pipe.distance; split_ifs <;> omega

theorem Pipe.distance_le_of_fd {p : Pipe} (h : p.fd.isSome = true) : p.distance ≤ 3 := by
  unfold Pipe.distance; split_ifs <;> omega

/-- Decode stalls only for a load in `DX` (R264). -/
theorem State.dx_isSome_of_stall (h : s.decodeOut.stall = true) : s.pipe.dx.isSome = true := by
  unfold State.decodeOut at h
  rcases s.writeBack.decodeStage_cases s.pipe s.squashes with ⟨-, e⟩ | ⟨f, -, -, e⟩ <;> rw [e] at h
  · cases h
  · rcases s.writeBack.decodeEntry_cases s.pipe f with ⟨_, _, -, e⟩ | ⟨-, -, e⟩ | ⟨d, -, -, hl, -⟩ | ⟨_, -, -, -, e⟩
    · rw [e] at h; cases h
    · rw [e] at h; cases h
    · cases hx : s.pipe.dx with
      | none => rw [hx] at hl; cases hl
      | some y => rfl
    · rw [e] at h; cases h

/-- A pipeline that stays in step does not stand still: with nothing in `XM` and `MW` it has found no fault and goes on
fetching, as it would otherwise have reported the fault. -/
theorem InStep.no_fault_of_empty {b : State} (h : InStep s.advanced b) (hinv : PipeInv s)
    (e : s.advance = s.advanced) (hmw : s.nextPipe.mw = none) (hxm : s.nextPipe.xm = none) :
    s.newFault = none ∧ s.pipe.fetchEnable = true := by
  have hon : s.nextPipe.fetchEnable ≠ false := by
    intro hoff
    obtain ⟨hfd, hdx⟩ := State.nextPipe_stopped hinv hoff
    have hexec : s.nextPipe.atExec b = b := by
      rw [Pipe.atExec, Pipe.atMem, hmw, hxm, State.past_none, State.past_none]
    obtain ⟨d, hd, -⟩ := h.tracks.front.stopped hoff (hexec.symm ▸ h.tracks.running)
    have hreport := State.reportFault_of_latchesEmpty (s := s.advanced) hd h.running ⟨hfd, hdx, hxm, hmw⟩
    rw [← s.advance_eq, e] at hreport
    cases h.running.symm.trans (congrArg State.status hreport)
  rw [Ne, State.nextPipe_fetchEnable_eq_false, not_or, not_or] at hon
  obtain ⟨hen, -, hnew⟩ := hon
  exact ⟨Option.not_isSome_iff_eq_none.1 hnew, by simpa using hen⟩

section
variable (h : InStep s a)
  (hgo : s.nextPipe.mw = none → s.nextPipe.xm = none → s.newFault = none ∧ s.pipe.fetchEnable = true)
include h hgo

/-- The entry in `XM` goes on to `MW`. -/
theorem InStep.mw_of_xm {x : XM} (hx : s.pipe.xm = some x) : s.nextPipe.mw.isSome = true := by
  rcases h.memOut with ⟨_, d, -, e, -⟩ | ⟨-, hsome, -⟩
  · have hfault : s.memOut.fault = some d := congrArg MemOut.fault e
    obtain ⟨hnew, -⟩ := hgo (congrArg MemOut.mw e) (congrArg ExecOut.xm (State.execOut_of_memFault hfault))
    simp [State.newFault, hfault] at hnew
  · exact hsome.trans (by rw [hx]; rfl)

omit hgo in
theorem InStep.memOut_of_bubble (hx : s.pipe.xm = none) : s.memOut.fault = none ∧ s.nextPipe.mw = none := by
  rcases h.memOut with ⟨x, _, hx', -⟩ | ⟨hm, hsome, -⟩
  · cases hx.symm.trans hx'
  · rw [hx] at hsome
    exact ⟨hm, Option.isSome_eq_isSome.1 hsome |>.2 rfl⟩

/-- Behind a bubble in `XM` the entry in `DX` goes on to `XM`. -/
theorem InStep.xm_of_dx (hx : s.pipe.xm = none) {y : DX} (hy : s.pipe.dx = some y) :
    s.nextPipe.xm.isSome = true := by
  obtain ⟨hm, hmw⟩ := h.memOut_of_bubble hx
  rcases h.execOut_cases hm with ⟨-, hxm, d, hnew, -⟩ | ⟨-, hxm, -⟩ | ⟨-, hxm, -⟩
  · cases (hgo hmw hxm).1.symm.trans hnew
  · exact hxm
  · exact hxm.trans (by rw [hy]; rfl)

omit hgo in
/-- With bubbles in `XM` and `DX` nothing squashes Decode, and a fault it finds is the cycle's. -/
theorem InStep.decode_of_bubbles (hx : s.pipe.xm = none) (hdx : s.pipe.dx = none) :
    s.execOut = ExecOut.idle ∧ s.squashes = false ∧ s.newFault = s.decodeOut.fault := by
  obtain ⟨hm, -⟩ := h.memOut_of_bubble hx
  have e : s.execOut = ExecOut.idle := by simp [State.execOut, Pipe.execStage, hdx]
  exact ⟨e, by simp [State.squashes, hm, e, ExecOut.idle], by simp [State.newFault, hm, e, ExecOut.idle]⟩

/-- Behind bubbles in `XM` and `DX` the entry in `FD` goes on to `DX`. -/
theorem InStep.dx_of_fd (hx : s.pipe.xm = none) (hdx : s.pipe.dx = none) {f : FD} (hf : s.pipe.fd = some f) :
    s.nextPipe.dx.isSome = true := by
  obtain ⟨-, hmw⟩ := h.memOut_of_bubble hx
  obtain ⟨hex, hsq, hnew⟩ := h.decode_of_bubbles hx hdx
  have hseq : Sequential s.pipe.dx (s.pipe.atExec a) := by rw [hdx]; exact Sequential.of_none
  rcases h.decodeOut_cases hsq hseq with ⟨d, e, -⟩ | ⟨-, e⟩ | ⟨o, hde⟩
  · rw [(hgo hmw (congrArg ExecOut.xm hex)).1, e] at hnew
    cases hnew
  · have hsome := State.dx_isSome_of_stall (s := s) (by rw [e])
    rw [hdx] at hsome
    cases hsome
  · have hdx' : s.nextPipe.dx = o := congrArg DecodeOut.dx hde.out
    rw [hdx', hde.isSome, hf]
    rfl

/-- With every older latch empty Fetch makes an entry. -/
theorem InStep.fd_of_empty (hx : s.pipe.xm = none) (hdx : s.pipe.dx = none) (hfd : s.pipe.fd = none) :
    s.nextPipe.fd.isSome = true := by
  obtain ⟨-, hmw⟩ := h.memOut_of_bubble hx
  obtain ⟨hex, hsq, -⟩ := h.decode_of_bubbles hx hdx
  obtain ⟨-, hen⟩ := hgo hmw (congrArg ExecOut.xm hex)
  have hfe : s.fetchOut = s.memOut.next.fetchEntry s.pipe.fpc := by
    simp [State.fetchOut, State.fetchStage, hsq, State.decodeOut_of_bubble hfd, DecodeOut.idle, hen]
  show s.fetchOut.fd.isSome = true
  rw [hfe]
  rcases s.memOut.next.fetchEntry_cases s.pipe.fpc with ⟨_, -, e⟩ | ⟨-, e⟩ <;> rw [e] <;> rfl

/-- The oldest entry in flight comes one latch further, or the next fetch is made. -/
theorem InStep.distance_lt (hmw : s.pipe.mw = none) : s.nextPipe.distance < s.pipe.distance := by
  cases hx : s.pipe.xm with
  | some x =>
    rw [Pipe.distance_of_mw (h.mw_of_xm hgo hx)]
    simp [Pipe.distance, hmw, hx]
  | none =>
    cases hdx : s.pipe.dx with
    | some y =>
      have hle := Pipe.distance_le_of_xm (h.xm_of_dx hgo hx hdx)
      have hd : s.pipe.distance = 2 := by simp [Pipe.distance, hmw, hx, hdx]
      omega
    | none =>
      cases hfd : s.pipe.fd with
      | some f =>
        have hle := Pipe.distance_le_of_dx (h.dx_of_fd hgo hx hdx hfd)
        have hd : s.pipe.distance = 3 := by simp [Pipe.distance, hmw, hx, hdx, hfd]
        omega
      | none =>
        have hle := Pipe.distance_le_of_fd (h.fd_of_empty hgo hx hdx hfd)
        have hd : s.pipe.distance = 4 := by simp [Pipe.distance, hmw, hx, hdx, hfd]
        omega

end

/-- After finitely many wait cycles the access in the Memory stage has spent its latency (R256). -/
theorem InStep.exists_afterWaits (h : InStep s a) (h0 : s.pipe.memElapsed = 0) :
    ∃ j, Machine.clockN j s = s.afterWaits j ∧ (s.afterWaits j).waits = false ∧ InStep (s.afterWaits j) a := by
  cases hw : s.waits with
  | false =>
    refine ⟨0, (State.afterWaits_zero h0).symm, ?_⟩
    rw [State.afterWaits_zero h0]
    exact ⟨hw, h⟩
  | true =>
    obtain ⟨x, k, n, hx, hop, hacc⟩ := State.access_of_waits hw
    have hlat : 1 < s.latency x.result k := by
      have hlt := (State.waits_iff hx hop hacc).1 hw
      omega
    refine ⟨s.latency x.result k - 1, State.clockN_eq_afterWaits hx hop hacc h.running h0 (by omega), ?_, h.running,
      h.tracks.withCounters _ _, h.pipe.withCounters _ fun _ => ⟨x, k, n, hx, hop, hacc⟩,
      h.cache.congr rfl rfl rfl rfl, h.clear⟩
    rw [Bool.eq_false_iff, Ne, State.afterWaits_waits_iff hx hop hacc]
    omega

/-- The machines, in step, stand at the start of an access (R256). -/
structure InStepFresh (s a : State) : Prop where
  inStep  : InStep s a
  elapsed : s.pipe.memElapsed = 0

/-- The wait cycles and the advance cycle after them end the run, or retire the instruction in `MW`, or bring the
oldest instruction one latch further. -/
theorem InStepFresh.advance (h : InStepFresh s a) :
    ∃ n, (clockN n s).status ≠ .running
      ∨ (InStepFresh (clockN n s) (s.pipe.atMem a)
        ∧ (s.pipe.mw = none → (clockN n s).pipe.distance < s.pipe.distance)) := by
  obtain ⟨j, hj, hwaits, hstep⟩ := h.inStep.exists_afterWaits h.elapsed
  have hcycle : clockN (j + 1) s = (s.afterWaits j).countCycle.advance := by
    rw [clockN_add j 1, hj]
    exact clock_of_advance hstep.running hwaits
  refine ⟨j + 1, ?_⟩
  rw [hcycle]
  have hcount := hstep.countCycle
  rcases hcount.advance with ⟨hterminal, -⟩ | ⟨e, hnext⟩
  · exact .inl hterminal
  · rw [e]
    refine .inr ⟨⟨hnext, State.nextPipe_memElapsed hcount.pipe⟩, fun hmw => ?_⟩
    exact hcount.distance_lt (hnext.no_fault_of_empty hcount.pipe e) hmw

/-- The oldest instruction in flight retires, or the run ends. -/
theorem InStepFresh.retires (h : InStepFresh s a) :
    ∃ n, (clockN n s).status ≠ .running ∨ InStepFresh (clockN n s) a.stepped := by
  induction hd : s.pipe.distance using Nat.strong_induction_on generalizing s with
  | _ d ih =>
    obtain ⟨n, hterminal | ⟨hnext, hlt⟩⟩ := h.advance
    · exact ⟨n, .inl hterminal⟩
    · cases hmw : s.pipe.mw with
      | some m =>
        rw [Pipe.atMem, hmw, State.past_some] at hnext
        exact ⟨n, .inr hnext⟩
      | none =>
        rw [Pipe.atMem, hmw, State.past_none] at hnext
        obtain ⟨n', hn'⟩ := ih _ (hd ▸ hlt hmw) hnext rfl
        exact ⟨n + n', by rwa [clockN_add]⟩

/-- The pipeline retires any number of instructions, or the run ends. -/
theorem InStepFresh.retires_many (h : InStepFresh s a) (k : Nat) :
    ∃ n, (clockN n s).status ≠ .running ∨ InStepFresh (clockN n s) (stepN k a) := by
  induction k with
  | zero => exact ⟨0, .inr h⟩
  | succ k ih =>
    obtain ⟨n, hterminal | hstep⟩ := ih
    · exact ⟨n, .inl hterminal⟩
    · obtain ⟨n', hn'⟩ := hstep.retires
      rw [stepN_succ_last]
      exact ⟨n + n', by rwa [clockN_add]⟩

end

/-! ## From reset -/

theorem resetState_tracks (c : Config) (i : ResetInput) : (resetState c i).Tracks (resetState c i) where
  running := rfl
  cfg := rfl
  regs _ := rfl
  flags := rfl
  mem := rfl
  out := rfl
  mw _ hm := nomatch hm
  xm _ hx := nomatch hx
  operands _ hy := nomatch hy
  front := FrontTracks.of_empty rfl rfl (fun _ _ => rfl) nofun

/-- After `reset` the two machines are in step. -/
theorem inStepFresh_of_reset {c : Config} {i : ResetInput} {s : State} (h : reset c i = .ok s)
    (hno : NoStoreIntoNextCode s) : InStepFresh s s := by
  obtain ⟨-, hcache, hpipe⟩ := everyResetMeetsTheInvariants c i s h
  obtain ⟨-, rfl⟩ := reset_eq_ok_iff.1 h
  exact ⟨⟨rfl, resetState_tracks c i, hpipe, hcache, hno⟩, rfl⟩

/-- Settles O59: from reset the machines are in step. What the pipeline ends with, the ISA-level machine ends with; and
the pipeline cannot go on after the ISA-level machine has ended, as it retires instruction after instruction. -/
theorem pipelineEndsLikeTheSequentialMachine : Obligations.PipelineEndsLikeTheSequentialMachine := by
  intro c i s hs hno
  have hstart := inStepFresh_of_reset hs hno
  have hend (n : Nat) (hn : (clockN n s).status ≠ .running) :
      ∃ j, (stepN j s).status ≠ .running ∧ SameEnd (clockN n s) (stepN j s) := by
    rcases hstart.inStep.clockN n with ⟨-, j, hj⟩ | ⟨j, hj⟩
    · have ⟨hstatus, _⟩ := hj
      exact ⟨j, hstatus ▸ hn, hj⟩
    · exact absurd hj.running hn
  refine ⟨⟨fun ⟨n, hn⟩ => ?_, fun ⟨k, hk⟩ => ?_⟩, fun n k hn hk => ?_⟩
  · obtain ⟨j, hj, -⟩ := hend n hn
    exact ⟨j, hj⟩
  · obtain ⟨n, hterminal | hstep⟩ := hstart.retires_many k
    · exact ⟨n, hterminal⟩
    · exact absurd hstep.inStep.tracks.running hk
  · obtain ⟨j, hj, hsame⟩ := hend n hn
    rwa [stepN_eq_of_terminal hj hk] at hsame

end Sys2Proof.Machine
end
